-- ==== Sys2Proof/Word.lean ====
section
/-! DEFINITION. Word types of HBCC: the 32-bit word every register access moves (20_memory R77), the 16-bit
raw sample and register address (30_encoding R91), channels and sections (00_scope R6). Bits are numbered from
0, the least significant (00_scope R16), as `BitVec` numbers them. -/

namespace Sys2Proof

/-- A 32-bit word: CMD, DATA, TNOW, RESULT, a `u32` or a `b32` register (00_scope R17). -/
abbrev Word := BitVec 32

/-- A 16-bit unsigned quantity: a raw sample, a register address, a `u16`, a channel mask (00_scope R17). -/
abbrev Half := BitVec 16

/-- A channel index 0..15 (00_scope R6: N_CH = 16). -/
abbrev Channel := Fin 16

/-- A section index 0..3 (00_scope R6: N_SEC = 4). -/
abbrev Sec := Fin 4

end Sys2Proof
end

