-- ==== Sys2Proof/Config.lean ====
section
/-! DEFINITION. What a deployment fixes: the parameters of 00_scope section 4 (R9-R13), the source constants
(R14) and defaults (R15), and the parameter set the model resets with. The parameters are OPEN in the spec
(92_eei_decisions "Open parameters"); a machine carries its own set in `State.params` (log 1), so every
statement about every state holds for every parameter set. -/

namespace Sys2Proof

/-- The control strategy, fixed for a deployment (00_scope R13, 70_reset R245). -/
inductive Strategy where
  /-- STRATEGY = HYST: PID fails with E_STRAT. -/
  | hyst
  /-- STRATEGY = PID: HYST fails with E_STRAT. -/
  | pid
deriving DecidableEq, Repr

/-- One entry of the calibration ROM: `CAL_RAW[i]` and `CAL_TEMP[i]` (00_scope R10, 20_memory R75). -/
structure CalPoint where
  /-- `RomRaw(i)`, a u16. -/
  raw : Half
  /-- `RomTemp(i)`, a b32. -/
  temp : Word
deriving DecidableEq, Repr

/-- A parameter set (00_scope R9-R13). `N_CAL` is the length of `rom`. Legality is `Params.check` in
WellFormed.lean (R11). -/
structure Params where
  /-- The calibration ROM, in index order (R10). -/
  rom : List CalPoint
  /-- `RAW_MAX` (R9). -/
  rawMax : Half
  /-- `TICK_HZ`, the ticks of TNOW per second (R12). -/
  tickHz : Word
  /-- `STRATEGY` (R13). -/
  strategy : Strategy
deriving DecidableEq, Repr

/-- `N_CAL`, the number of points of the calibration ROM (00_scope R10). -/
abbrev Params.nCal (p : Params) : Nat := p.rom.length

namespace Config

/-- `SENT = -999.0`, the sentinel temperature (00_scope R14). -/
def sent : Word := 0xC479C000#32

/-- `T_DEFAULT = 25.0`, the average of a section with no valid reading (00_scope R14). -/
def tDefault : Word := 0x41C80000#32

/-- The default hysteresis band 2.0 (00_scope R15). -/
def hystBandDefault : Word := 0x40000000#32

/-- The default PID drive threshold 0.5 (00_scope R15). -/
def pidThrDefault : Word := 0x3F000000#32

/-- The parameter set of `State.reset`. RAW_MAX and TICK_HZ are the spec's defaults (00_scope R9, R12).
DESIGN CHOICE, unsafe (log 2): STRATEGY and the ROM have no default (R10, R13); the ROM is the fixture of
95_test_vectors section 1 and STRATEGY the fixture's HYST. No statement rests on this set. -/
def resetParams : Params where
  rom := [⟨100#16, 0x00000000#32⟩, ⟨300#16, 0x42480000#32⟩, ⟨500#16, 0x42700000#32⟩,
          ⟨700#16, 0x42A00000#32⟩, ⟨900#16, 0x43160000#32⟩]
  rawMax := 1023#16
  tickHz := 1000#32
  strategy := .hyst

end Config

end Sys2Proof
end

