-- ==== Sys2Proof/Syntax.lean ====
section
/-! DEFINITION. The command set of HBCC, whole: one constructor per row of spec/opcode_table.json
(30_encoding R94). Operands are the fields of the command word a row uses (R91); DATA and TNOW are inputs of the
transaction, not fields of the command (R90), and stand in the state. -/

namespace Sys2Proof

/-- The nine operations of 30_encoding R94. -/
inductive Instr where
  /-- NOP, OPC 0x0 (43_register_access R190). -/
  | nop
  /-- CONV raw, OPC 0x1 (40_lookup R110). -/
  | conv (raw : Half)
  /-- SAMPLE ch, raw, OPC 0x2 (40_lookup R120). -/
  | sample (ch : Channel) (raw : Half)
  /-- AVG s, OPC 0x3 (41_hysteresis R140). -/
  | avg (s : Sec)
  /-- HYST s, OPC 0x4 (41_hysteresis R147). -/
  | hyst (s : Sec)
  /-- PID ch, OPC 0x5 (42_pid R170). -/
  | pid (ch : Channel)
  /-- AGG s, OPC 0x6 (41_hysteresis R155). -/
  | agg (s : Sec)
  /-- RDREG addr, OPC 0x7 (43_register_access R192). -/
  | rdreg (addr : Half)
  /-- WRREG addr, OPC 0x8, writing the DATA input (43_register_access R193). -/
  | wrreg (addr : Half)
deriving DecidableEq, Repr

end Sys2Proof
end

