-- ==== Sys2Proof/WellFormed.lean ====
section
/-! DEFINITION. Well-formedness. A parameter set is checked before it is admitted (00_scope R9-R12, R11), each
clause under a name of its own. A command needs no check beyond its types: every 4-bit CH names a channel and every
2-bit SEC a section (30_encoding R92), and every 16-bit IMM16 is a raw sample or a register address (R93). -/

namespace Sys2Proof

/-- Why a parameter set is refused (00_scope R11; 93_implementation_defined U2). -/
inductive ParamError where
  /-- N_CAL < 2 (R10, R11). -/
  | tooFewPoints
  /-- N_CAL > 256 (R10). -/
  | tooManyPoints
  /-- Two consecutive raw values are not strictly increasing (R11). -/
  | rawNotIncreasing
  /-- A temperature is infinite or NaN (R11). -/
  | tempNotFinite
  /-- RAW_MAX outside 2..65535 (R9). -/
  | rawMaxIllegal
  /-- TICK_HZ outside 1..2^24 (R12). -/
  | tickHzIllegal
deriving DecidableEq, Repr

/-- A binary32 pattern is finite when its exponent field (bits 30..23, 00_scope R17) is not all ones. -/
def finitePattern (w : Word) : Bool := w.toNat / 2 ^ 23 % 256 != 255

/-- The raw values of a ROM are strictly increasing in index order (00_scope R11). -/
def rawIncreasing : List CalPoint → Bool
  | [] => true
  | [_] => true
  | p :: q :: rest => decide (p.raw.toNat < q.raw.toNat) && rawIncreasing (q :: rest)

/-- The check of 00_scope R11 with the legal values of R9, R10 and R12; the first clause broken names the error. -/
def Params.check (p : Params) : Except ParamError Unit :=
  if p.nCal < 2 then .error .tooFewPoints
  else if 256 < p.nCal then .error .tooManyPoints
  else if !rawIncreasing p.rom then .error .rawNotIncreasing
  else if !p.rom.all (fun c => finitePattern c.temp) then .error .tempNotFinite
  else if p.rawMax.toNat < 2 then .error .rawMaxIllegal
  else if p.tickHz.toNat < 1 ∨ 2 ^ 24 < p.tickHz.toNat then .error .tickHzIllegal
  else .ok ()

/-- The parameter set passes every clause of `Params.check` (00_scope R11). -/
def Params.admitted (p : Params) : Bool :=
  match p.check with
  | .ok _ => true
  | .error _ => false

/-- Every command is well formed: its operand types hold exactly what the encoding admits (30_encoding R92, R93). -/
def Instr.wellFormed : Instr → Bool
  | .nop => true
  | .conv _ => true
  | .sample _ _ => true
  | .avg _ => true
  | .hyst _ => true
  | .pid _ => true
  | .agg _ => true
  | .rdreg _ => true
  | .wrreg _ => true

end Sys2Proof
end

