-- ==== Sys2Proof/Decode.lean ====
section
/-! DEFINITION. Decoding and encoding of the 32-bit command word (30_encoding R90, R91, R94, R96, R97, R101). -/

namespace Sys2Proof

/-! ## Fields of the command word (R90, R91) -/

/-- OPC, bits 31..28. -/
def opcField (cmd : Word) : BitVec 4 := cmd.extractLsb' 28 4

/-- CH, bits 27..24: `ch = CMD[27:24]`, unsigned. -/
def chField (cmd : Word) : Channel := (cmd.extractLsb' 24 4).toFin

/-- SEC, bits 23..22: `s = CMD[23:22]`, unsigned. -/
def secField (cmd : Word) : Sec := (cmd.extractLsb' 22 2).toFin

/-- IMM16, bits 15..0: a raw sample or a register address, unsigned. -/
def imm16Field (cmd : Word) : Half := cmd.extractLsb' 0 16

/-! ## The opcode map (R94) -/

/-- One row of the opcode map: the bits the decoder compares (`mask`) and what they must be (`pattern`, the row's
"match"). -/
structure OpcodeRow where
  pattern : Word
  mask : Word
deriving DecidableEq, Repr

/-- The rows of 30_encoding R94, by OPC; none for the reserved 0x9..0xF. -/
def opcodeRow (opc : BitVec 4) : Option OpcodeRow :=
  match opc.toNat with
  | 0x0 => some ⟨0x00000000#32, 0xFFFFFFFF#32⟩
  | 0x1 => some ⟨0x10000000#32, 0xFFFF0000#32⟩
  | 0x2 => some ⟨0x20000000#32, 0xF0FF0000#32⟩
  | 0x3 => some ⟨0x30000000#32, 0xFF3FFFFF#32⟩
  | 0x4 => some ⟨0x40000000#32, 0xFF3FFFFF#32⟩
  | 0x5 => some ⟨0x50000000#32, 0xF0FFFFFF#32⟩
  | 0x6 => some ⟨0x60000000#32, 0xFF3FFFFF#32⟩
  | 0x7 => some ⟨0x70000000#32, 0xFFFF0000#32⟩
  | 0x8 => some ⟨0x80000000#32, 0xFFFF0000#32⟩
  | _ => none

/-- The operation of a row, with the operands of R91. `none` only for a reserved OPC. -/
def operationOf (cmd : Word) : Option Instr :=
  match (opcField cmd).toNat with
  | 0x0 => some .nop
  | 0x1 => some (.conv (imm16Field cmd))
  | 0x2 => some (.sample (chField cmd) (imm16Field cmd))
  | 0x3 => some (.avg (secField cmd))
  | 0x4 => some (.hyst (secField cmd))
  | 0x5 => some (.pid (chField cmd))
  | 0x6 => some (.agg (secField cmd))
  | 0x7 => some (.rdreg (imm16Field cmd))
  | 0x8 => some (.wrreg (imm16Field cmd))
  | _ => none

/-- Why a command word is illegal (30_encoding R97). Both reach the host as E_ILLEGAL. -/
inductive DecodeError where
  /-- OPC 0x9..0xF. -/
  | reservedOpcode (opc : BitVec 4)
  /-- A 1 in a bit that the row of this OPC requires to be zero. -/
  | mustBeZeroBit (opc : BitVec 4)
deriving DecidableEq, Repr

/-- `decode(CMD)` of 30_encoding R96, total on every 32-bit word. -/
def decode (cmd : Word) : Except DecodeError Instr :=
  match opcodeRow (opcField cmd), operationOf cmd with
  | some row, some i =>
    if cmd &&& row.mask = row.pattern then .ok i else .error (.mustBeZeroBit (opcField cmd))
  | _, _ => .error (.reservedOpcode (opcField cmd))

/-- The instruction the decoder reads from the `nbits`-bit command word `w` of spec/opcode_table.json. Every HBCC
command is one 32-bit word (R90); the bits at and above `nbits` are 0. -/
def decodeTableWord (nbits w : Nat) : Option Instr :=
  match decode (BitVec.ofNat 32 (w % 2 ^ nbits)) with
  | .ok i => some i
  | .error _ => none

/-! ## Encoding (R101) -/

/-- `CMD = (OPC, CH, SEC, 000000, IMM16)`, the fields joined from the high bits down (30_encoding R101). -/
def packCommand (opc : BitVec 4) (ch : Channel) (s : Sec) (imm : Half) : Word :=
  opc ++ BitVec.ofFin (w := 4) ch ++ BitVec.ofFin (w := 2) s ++ 0#6 ++ imm

/-- The OPC value of each operation (30_encoding R94). -/
def Instr.opc : Instr → BitVec 4
  | .nop => 0x0#4
  | .conv _ => 0x1#4
  | .sample _ _ => 0x2#4
  | .avg _ => 0x3#4
  | .hyst _ => 0x4#4
  | .pid _ => 0x5#4
  | .agg _ => 0x6#4
  | .rdreg _ => 0x7#4
  | .wrreg _ => 0x8#4

/-- The command word of an operation: every field the mnemonic does not take is 0 (30_encoding R101). WRREG's value
is the transaction's DATA word, not part of CMD (R90). -/
def encode (i : Instr) : Word :=
  match i with
  | .nop => packCommand i.opc 0 0 0#16
  | .conv raw => packCommand i.opc 0 0 raw
  | .sample ch raw => packCommand i.opc ch 0 raw
  | .avg s => packCommand i.opc 0 s 0#16
  | .hyst s => packCommand i.opc 0 s 0#16
  | .pid ch => packCommand i.opc ch 0 0#16
  | .agg s => packCommand i.opc 0 s 0#16
  | .rdreg addr => packCommand i.opc 0 0 addr
  | .wrreg addr => packCommand i.opc 0 0 addr

end Sys2Proof
end

