-- ==== Sys2Proof/Machine/Binary32.lean ====
section
/-! DEFINITION. IEEE 754 binary32 (00_scope R17-R19): the four arithmetic primitives, integer conversion, truncation
and the ordered comparisons, each rounded once to nearest, ties to even, subnormals kept, a NaN result always the
quiet NaN 0x7FC00000. The IEEE 754 definitions themselves are general knowledge (93_implementation_defined I1;
PRESUMED, log 8).

Every finite binary32 value is an integer multiple of 2^-149, so a finite value is held as a sign and a magnitude
counted in units of 2^-149. Sums and products of finite values are then exact integers or fractions, quotients exact
fractions, and `roundMag` rounds an exact fraction once. -/

namespace Sys2Proof.Machine

/-- What a binary32 pattern denotes: NaN, an infinity, or `± mag · 2^-149`. -/
inductive F32 where
  | nan
  | inf (neg : Bool)
  | fin (neg : Bool) (mag : Nat)
deriving DecidableEq, Repr

/-- The canonical quiet NaN 0x7FC00000 (00_scope R18). -/
def canonicalNaN : Word := 0x7FC00000#32

/-- The sign bit (bit 31, 00_scope R17). -/
def signBit (w : Word) : Bool := decide (2 ^ 31 ≤ w.toNat)

/-- The exponent field (bits 30..23, 00_scope R17). -/
def expField (w : Word) : Nat := w.toNat / 2 ^ 23 % 256

/-- The fraction field (bits 22..0, 00_scope R17). -/
def fracField (w : Word) : Nat := w.toNat % 2 ^ 23

/-- The value a pattern denotes. A subnormal (exponent field 0) is `frac · 2^-149`; a normal number is
`(2^23 + frac) · 2^(exp - 1) · 2^-149`. -/
def decodeF32 (w : Word) : F32 :=
  if expField w = 255 then
    if fracField w = 0 then .inf (signBit w) else .nan
  else if expField w = 0 then .fin (signBit w) (fracField w)
  else .fin (signBit w) ((2 ^ 23 + fracField w) * 2 ^ (expField w - 1))

/-- `num / den` rounded to the nearest integer, a tie to the even one; `den` is positive. -/
def roundHalfEven (num den : Nat) : Nat :=
  let q := num / den
  let r := num % den
  if 2 * r > den ∨ (2 * r = den ∧ q % 2 = 1) then q + 1 else q

/-- How many low bits of the integer part `n` (in units of 2^-149) lie below a 24-bit significand. -/
def excessBits (n : Nat) : Nat := if n < 2 ^ 24 then 0 else Nat.log2 n - 23

/-- Bits 30..0 of the binary32 number nearest to `(num / den) · 2^-149`, ties to even; overflow gives the infinity
pattern. With `k` excess bits the significand `m` (at most 2^24) is the fraction divided by 2^k and rounded, and the
pattern is `2^23 · k + m`: the hidden bit of `m` adds one to the exponent field, and a carry to 2^24 adds one more. -/
def roundMag (num den : Nat) : Nat :=
  let k := excessBits (num / den)
  min (2 ^ 23 * k + roundHalfEven num (den * 2 ^ k)) 0x7F800000

/-- A pattern from a sign and bits 30..0. -/
def packF32 (neg : Bool) (low : Nat) : Word := BitVec.ofNat 32 ((if neg then 2 ^ 31 else 0) + low)

/-- The infinity of a sign. -/
def infPattern (neg : Bool) : Word := if neg then 0xFF800000#32 else 0x7F800000#32

/-- The zero of a sign. -/
def zeroPattern (neg : Bool) : Word := if neg then 0x80000000#32 else 0x00000000#32

/-- The signed integer `± mag`. -/
def signedMag (neg : Bool) (mag : Nat) : Int := if neg then -(mag : Int) else (mag : Int)

/-- `fneg` flips bit 31 (42_pid R171). -/
def fneg (a : Word) : Word := a ^^^ 0x80000000#32

/-- `fadd(a,b)` (00_scope R18). An exact zero sum is -0.0 only when both operands are negative zeros. -/
def fadd (a b : Word) : Word :=
  match decodeF32 a, decodeF32 b with
  | .nan, _ => canonicalNaN
  | _, .nan => canonicalNaN
  | .inf p, .inf q => if p = q then infPattern p else canonicalNaN
  | .inf p, .fin _ _ => infPattern p
  | .fin _ _, .inf q => infPattern q
  | .fin p m, .fin q n =>
    let z := signedMag p m + signedMag q n
    if z = 0 then zeroPattern (p && q) else packF32 (decide (z < 0)) (roundMag z.natAbs 1)

/-- `fsub(a,b)` (00_scope R18): the sum of `a` and the negation of `b`. -/
def fsub (a b : Word) : Word := fadd a (fneg b)

/-- `fmul(a,b)` (00_scope R18). The exact product of magnitudes `m` and `n` is `m·n·2^-298`. -/
def fmul (a b : Word) : Word :=
  match decodeF32 a, decodeF32 b with
  | .nan, _ => canonicalNaN
  | _, .nan => canonicalNaN
  | .inf p, .inf q => infPattern (p ^^ q)
  | .inf p, .fin q n => if n = 0 then canonicalNaN else infPattern (p ^^ q)
  | .fin p m, .inf q => if m = 0 then canonicalNaN else infPattern (p ^^ q)
  | .fin p m, .fin q n => packF32 (p ^^ q) (roundMag (m * n) (2 ^ 149))

/-- `fdiv(a,b)` (00_scope R18). The exact quotient of magnitudes `m` and `n` is `m/n`, `2^149·m/n` in units of 2^-149.
A finite non-zero number divided by zero is an infinity; 0/0 and inf/inf are NaN. -/
def fdiv (a b : Word) : Word :=
  match decodeF32 a, decodeF32 b with
  | .nan, _ => canonicalNaN
  | _, .nan => canonicalNaN
  | .inf _, .inf _ => canonicalNaN
  | .inf p, .fin q _ => infPattern (p ^^ q)
  | .fin p _, .inf q => zeroPattern (p ^^ q)
  | .fin p m, .fin q n =>
    if n = 0 then (if m = 0 then canonicalNaN else infPattern (p ^^ q))
    else packF32 (p ^^ q) (roundMag (2 ^ 149 * m) n)

/-- `i2f(n)` (00_scope R18): the integer `n` rounded to binary32; zero gives +0.0. -/
def i2f (n : Int) : Word := packF32 (decide (n < 0)) (roundMag (2 ^ 149 * n.natAbs) 1)

/-- A value on the ordered line, in units of 2^-149: an infinity lies at ±2^128, beyond every finite value; NaN has no
place. The two zeros have the same place (00_scope R19). -/
def orderKey : F32 → Option Int
  | .nan => none
  | .inf neg => some (signedMag neg (2 ^ 128 * 2 ^ 149))
  | .fin neg mag => some (signedMag neg mag)

/-- An ordered comparison: false when either operand is NaN (00_scope R19). -/
def orderedCompare (rel : Int → Int → Bool) (a b : Word) : Bool :=
  match orderKey (decodeF32 a), orderKey (decodeF32 b) with
  | some x, some y => rel x y
  | _, _ => false

/-- `flt(a,b)`: a < b (00_scope R19). -/
def flt (a b : Word) : Bool := orderedCompare (fun x y => decide (x < y)) a b

/-- `fgt(a,b)`: a > b (00_scope R19). -/
def fgt (a b : Word) : Bool := orderedCompare (fun x y => decide (x > y)) a b

/-- `fle(a,b)`: a <= b (00_scope R19). -/
def fle (a b : Word) : Bool := orderedCompare (fun x y => decide (x ≤ y)) a b

/-- `fge(a,b)`: a >= b (00_scope R19). -/
def fge (a b : Word) : Bool := orderedCompare (fun x y => decide (x ≥ y)) a b

/-- `feq_bits(a,b)`: equality of the 32-bit patterns (00_scope R19). -/
def feqBits (a b : Word) : Bool := a == b

/-- The pattern is a NaN. -/
def isNaN (a : Word) : Bool := decodeF32 a == .nan

/-- `trunc(v)`: the integer part rounded toward zero (41_hysteresis R157), for `v` finite and not negative, the only
case AGG produces (log 12). -/
def ftrunc (v : Word) : Nat :=
  match decodeF32 v with
  | .nan => 0
  | .inf _ => 0
  | .fin neg mag => if neg then 0 else mag / 2 ^ 149

end Sys2Proof.Machine
end

