-- ==== Sys2Proof/Machine/State.lean ====
section
/-! DEFINITION. The state of HBCC (10_state, every register of R59), the host port of the model, the reasons a step
can stop, and reset (70_reset_and_hazards R240). A register is held at the width its rule defines; a read
zero-extends it and a write drops the rest, which is R60 (log 11). -/

namespace Sys2Proof.Machine

/-- The reasons the machine stops with a fault: NONE. HBCC takes no traps and has no crash path; every failure is a
status code returned by a transaction that completes (60_exceptions R210, R220). Log 6. -/
inductive Fault where
deriving DecidableEq, Repr

/-- The reasons the model gives a step no meaning. -/
inductive Refusal where
  /-- Raised by an arm of `exec` whose instruction has no meaning yet. Safe: the model stops. No arm raises it. -/
  | notModelled (mnemonic : String)
  /-- Raised by `step` when the parameter set breaks a clause of 00_scope R11: "A parameter set that breaks a clause is
  refused, not given a meaning." Safe: the model stops. -/
  | parametersNotAdmitted (reason : ParamError)
deriving DecidableEq, Repr

/-- The status codes of 60_exceptions R210, by name. Their 8-bit values are `Status.code` (Machine/Ops.lean). -/
inductive Status where
  | ok
  | cached
  | sensorFault
  | cachedFault
  | avgAll
  | avgDefault
  | noTarget
  | tempFault
  | eIllegal
  | eStrat
  | eCfg
  | eRegAddr
  | eRegRo
deriving DecidableEq, Repr

/-- The outputs of a transaction: STATUS and RESULT (20_memory R70, 00_scope R21). -/
structure Response where
  status : Status
  result : Word
deriving DecidableEq, Repr

/-- What the host can do to HBCC: a transaction with its three inputs (20_memory R70), or RESET, the only other
interaction (70_reset R240). -/
inductive Interaction where
  | transaction (cmd data tnow : Word)
  | reset
deriving DecidableEq, Repr

/-- The state of HBCC: the registers of 10_state R59, the deployment parameters, and the model's host port. -/
structure State where
  /-- The deployment parameters: ROM, RAW_MAX, TICK_HZ, STRATEGY (00_scope R9-R13). No step changes them (20_memory R76,
  10_state R57, R58). Held in State so that a machine takes any parameter set (log 1). -/
  params : Params
  /-- TEMP[ch], the cached temperature (10_state R33). -/
  temp : Vector Word 16
  /-- TS[ch], the TNOW of the last successful sample (10_state R34). -/
  ts : Vector Word 16
  /-- TS_VLD, bit ch: TS[ch] is meaningful (10_state R35). -/
  tsVld : Half
  /-- TFLT, bit ch: TEMP[ch] is not a valid temperature (10_state R36). -/
  tflt : Half
  /-- INTEG[ch], the integral of the error (10_state R38). -/
  integ : Vector Word 16
  /-- PERR[ch], the previous error (10_state R39). -/
  perr : Vector Word 16
  /-- PTIME[ch], the TNOW of the last PID update (10_state R40). -/
  ptime : Vector Word 16
  /-- PINIT, bit ch: the channel has had a PID update (10_state R41). -/
  pinit : Half
  /-- POUT[ch], the clamped PID output (10_state R42). -/
  pout : Vector Word 16
  /-- TARGET[s], the setpoint (10_state R43). -/
  target : Vector Word 4
  /-- HYST_ON, bit s: the held heating decision (10_state R44). -/
  hystOn : BitVec 4
  /-- AGG_OUT[s], the aggregate output (10_state R45). -/
  aggOut : Vector Word 4
  /-- AGG_PWM[s], its integer part (10_state R45). -/
  aggPwm : Vector Half 4
  /-- KP (10_state R46). -/
  kp : Word
  /-- KI (10_state R46). -/
  ki : Word
  /-- KD (10_state R46). -/
  kd : Word
  /-- PID_THR (10_state R47). -/
  pidThr : Word
  /-- HYST_BAND (10_state R48). -/
  hystBand : Word
  /-- MIN_SI (10_state R49). -/
  minSi : Word
  /-- CTRL, whose one defined bit is ICLAMP_EN (10_state R50). -/
  ctrl : BitVec 1
  /-- ICLAMP (10_state R51). -/
  iclamp : Word
  /-- ACTIVE (10_state R52). -/
  active : Half
  /-- AGG_TMIN (10_state R53). -/
  aggTmin : Word
  /-- AGG_TMAX (10_state R53). -/
  aggTmax : Word
  /-- AGG_PMIN (10_state R54). -/
  aggPmin : Half
  /-- AGG_PMAX (10_state R54). -/
  aggPmax : Half
  /-- DRIVE, bit ch: the drive request (10_state R55). -/
  drive : Half
  /-- The MODEL's own field: the interactions the host has issued and HBCC has not yet performed, the next one first
  (20_memory R71; log 3). -/
  queue : List Interaction
  /-- The MODEL's own field: the DATA input of the current transaction (20_memory R74; log 4). -/
  data : Word
  /-- The MODEL's own field: the TNOW input of the current transaction (20_memory R73; log 4). -/
  tnow : Word
  /-- The MODEL's own field: STATUS and RESULT of the last transaction, none after RESET, which "returns no STATUS or
  RESULT" (70_reset R240; log 5). -/
  response : Option Response
deriving DecidableEq, Repr

/-- Every register at the reset value of 10_state R59 and 70_reset R240, with parameter set `p` (which RESET does not
change, R241) and the host's interactions `q` still to come. -/
def State.resetWith (p : Params) (q : List Interaction) : State where
  params := p
  temp := Vector.replicate 16 Config.sent
  ts := Vector.replicate 16 0#32
  tsVld := 0x0000#16
  tflt := 0xFFFF#16
  integ := Vector.replicate 16 0#32
  perr := Vector.replicate 16 0#32
  ptime := Vector.replicate 16 0#32
  pinit := 0x0000#16
  pout := Vector.replicate 16 0#32
  target := Vector.replicate 4 Config.sent
  hystOn := 0#4
  aggOut := Vector.replicate 4 0#32
  aggPwm := Vector.replicate 4 0#16
  kp := 0#32
  ki := 0#32
  kd := 0#32
  pidThr := Config.pidThrDefault
  hystBand := Config.hystBandDefault
  minSi := 0#32
  ctrl := 0#1
  iclamp := 0#32
  active := 0x0000#16
  aggTmin := 0#32
  aggTmax := 0#32
  aggPmin := 0#16
  aggPmax := 0#16
  drive := 0x0000#16
  queue := q
  data := 0#32
  tnow := 0#32
  response := none

/-- The machine right after power-up RESET (70_reset R243), with the parameter set of Config.lean (log 2) and nothing
issued by the host yet (log 3). -/
def State.reset : State := State.resetWith Config.resetParams []

end Sys2Proof.Machine
end

