-- ==== Sys2Proof/Machine/Operands.lean ====
section
/-! DEFINITION. Operands: the section of a channel and the channels of a section (00_scope R7), segment numbers (R8),
bits and elements of registers (R20), widening (R17) and elapsed time (40_lookup R121, 42_pid R173). -/

namespace Sys2Proof.Machine

/-- `sec(ch) = ch div 4` (00_scope R7). -/
def secOf (ch : Channel) : Sec := ⟨ch.val / 4, by omega⟩

/-- Channel `4s + k` of section `s` (00_scope R7), `k` in 0..3. -/
def channelOf (s : Sec) (k : Fin 4) : Channel := ⟨4 * s.val + k.val, by omega⟩

/-- The channels `4s .. 4s+3` of section `s`, ascending (41_hysteresis R141). -/
def channelsOf (s : Sec) : List Channel := [channelOf s 0, channelOf s 1, channelOf s 2, channelOf s 3]

/-- Segment number `n` (1..16) names channel `n - 1` (00_scope R8). -/
def channelOfSegment (n : Nat) : Option Channel :=
  if h : 1 ≤ n ∧ n ≤ 16 then some ⟨n - 1, by omega⟩ else none

/-- `R[NAME][i]` of a bit-vector register: bit `i` (00_scope R16, R20). -/
def bitAt {w : Nat} (m : BitVec w) (i : Fin w) : Bool := m.getLsbD i.val

/-- `R[NAME][i] <- b` of a bit-vector register (00_scope R20). -/
def setBit {w : Nat} (m : BitVec w) (i : Fin w) (b : Bool) : BitVec w :=
  if b then m ||| BitVec.twoPow w i.val else m &&& ~~~(BitVec.twoPow w i.val)

/-- `zext_32(v)` (00_scope R17). -/
def zext32 {w : Nat} (v : BitVec w) : Word := v.setWidth 32

/-- The elapsed ticks `(now - before) mod 2^32` (40_lookup R121, 42_pid R170). -/
def elapsedTicks (now before : Word) : Nat := (now - before).toNat

end Sys2Proof.Machine
end

