-- ==== Sys2Proof/Machine/Flags.lean ====
section
/-! DEFINITION. HBCC has no condition codes; its persistent flag-like state is TFLT, TS_VLD, PINIT and HYST_ON
(10_state R62), beside the participation mask ACTIVE (R52) and the drive requests DRIVE (R55). Each is read and
written here, bit by bit. -/

namespace Sys2Proof.Machine

/-- `R[TFLT][ch] = 1`: no valid temperature (10_state R36). -/
def State.faulted (s : State) (ch : Channel) : Bool := bitAt s.tflt ch

/-- `R[TS_VLD][ch] = 1`: TS[ch] is the time of a successful sample (10_state R35). -/
def State.sampled (s : State) (ch : Channel) : Bool := bitAt s.tsVld ch

/-- `R[PINIT][ch] = 1`: the channel has had a PID update (10_state R41). -/
def State.pidStarted (s : State) (ch : Channel) : Bool := bitAt s.pinit ch

/-- `R[ACTIVE][ch] = 1`: the channel participates in control (10_state R52). -/
def State.isActive (s : State) (ch : Channel) : Bool := bitAt s.active ch

/-- `R[HYST_ON][x] = 1`: the held decision is on (10_state R44). -/
def State.heating (s : State) (x : Sec) : Bool := bitAt s.hystOn x

/-- `R[DRIVE][ch] = 1`: the channel's drive is requested (10_state R55). -/
def State.driven (s : State) (ch : Channel) : Bool := bitAt s.drive ch

/-- `R[TFLT][ch] <- b`. -/
def State.setFaulted (s : State) (ch : Channel) (b : Bool) : State := { s with tflt := setBit s.tflt ch b }

/-- `R[TS_VLD][ch] <- b`. -/
def State.setSampled (s : State) (ch : Channel) (b : Bool) : State := { s with tsVld := setBit s.tsVld ch b }

/-- `R[PINIT][ch] <- b`. -/
def State.setPidStarted (s : State) (ch : Channel) (b : Bool) : State := { s with pinit := setBit s.pinit ch b }

/-- `R[HYST_ON][x] <- b`. -/
def State.setHeating (s : State) (x : Sec) (b : Bool) : State := { s with hystOn := setBit s.hystOn x b }

/-- Every write of a DRIVE bit is gated: `DRIVE[ch] <- d AND R[ACTIVE][ch]` (10_state R56). -/
def State.requestDrive (s : State) (ch : Channel) (d : Bool) : State :=
  { s with drive := setBit s.drive ch (d && s.isActive ch) }

/-- The gated write of one decision for each channel of a list, in order (41_hysteresis R150). -/
def State.requestDriveAll (s : State) (chs : List Channel) (d : Bool) : State :=
  chs.foldl (fun t ch => t.requestDrive ch d) s

end Sys2Proof.Machine
end

