-- ==== Sys2Proof/Machine/Ops.lean ====
section
/-! DEFINITION. The shared operations: the end of a transaction (`done`, `fail`: 00_scope R21), status codes
(60_exceptions R210), the calibration ROM (20_memory R75), the register map and register access (10_state R59-R61),
and RESET (70_reset R240). `fail` is HBCC's only exceptional entry: it takes no traps (60_exceptions R220), saves
nothing, and there is no return from it (R221). -/

namespace Sys2Proof.Machine

/-- What a step answers. -/
abbrev Answer := Host.Outcome State Fault Refusal

/-! ## Status codes and the end of a transaction -/

/-- The 8-bit STATUS codes (60_exceptions R210). -/
def Status.code : Status → BitVec 8
  | .ok => 0x00#8
  | .cached => 0x01#8
  | .sensorFault => 0x02#8
  | .cachedFault => 0x03#8
  | .avgAll => 0x04#8
  | .avgDefault => 0x05#8
  | .noTarget => 0x06#8
  | .tempFault => 0x07#8
  | .eIllegal => 0x10#8
  | .eStrat => 0x11#8
  | .eCfg => 0x12#8
  | .eRegAddr => 0x13#8
  | .eRegRo => 0x14#8

/-- The codes 0x10..0x1F are failures, the codes 0x00..0x0F completions (60_exceptions R210). -/
def Status.isFailure (c : Status) : Bool := decide (0x10 ≤ c.code.toNat ∧ c.code.toNat ≤ 0x1F)

/-- The response of a transaction. -/
def State.respond (s : State) (c : Status) (r : Word) : State := { s with response := some ⟨c, r⟩ }

/-- `done(code, result)`: the operation ends with STATUS and RESULT, keeping every state write made before it
(00_scope R21). -/
def done (c : Status) (r : Word) (s : State) : Answer := .next (s.respond c r)

/-- `fail(code)`: the operation ends with STATUS `code` and RESULT 0; it is given the state before any write, so the
operation writes none (00_scope R21, 60_exceptions R220). -/
def fail (c : Status) (s : State) : Answer := .next (s.respond c 0#32)

/-! ## The calibration ROM -/

/-- `RomRaw(i) = CAL_RAW[i]` (20_memory R75). An index at or beyond N_CAL, which no operation reads of an admitted
parameter set, gives 0 (log 13). -/
def romRaw (p : Params) (i : Nat) : Half :=
  match p.rom[i]? with
  | some c => c.raw
  | none => 0#16

/-- `RomTemp(i) = CAL_TEMP[i]` (20_memory R75); see `romRaw` for an index beyond the ROM (log 13). -/
def romTemp (p : Params) (i : Nat) : Word :=
  match p.rom[i]? with
  | some c => c.temp
  | none => 0#32

/-! ## The register map -/

/-- The registers of 10_state R59, by name. -/
inductive Reg where
  | param
  | tickHz
  | kp
  | ki
  | kd
  | pidThr
  | iclamp
  | hystBand
  | minSi
  | ctrl
  | active
  | target (x : Sec)
  | aggTmin
  | aggTmax
  | aggPmin
  | aggPmax
  | temp (ch : Channel)
  | ts (ch : Channel)
  | tsVld
  | tflt
  | integ (ch : Channel)
  | perr (ch : Channel)
  | ptime (ch : Channel)
  | pinit
  | pout (ch : Channel)
  | hystOn
  | drive
  | aggOut (x : Sec)
  | aggPwm (x : Sec)
  | romRaw (i : Fin 256)
  | romTemp (i : Fin 256)
deriving DecidableEq, Repr

/-- The access right of a register (10_state R59). -/
inductive Access where
  | readOnly
  | readWrite
deriving DecidableEq, Repr

/-- The access column of 10_state R59. -/
def Reg.access : Reg → Access
  | .param => .readOnly
  | .tickHz => .readOnly
  | .kp => .readWrite
  | .ki => .readWrite
  | .kd => .readWrite
  | .pidThr => .readWrite
  | .iclamp => .readWrite
  | .hystBand => .readWrite
  | .minSi => .readWrite
  | .ctrl => .readWrite
  | .active => .readWrite
  | .target _ => .readWrite
  | .aggTmin => .readWrite
  | .aggTmax => .readWrite
  | .aggPmin => .readWrite
  | .aggPmax => .readWrite
  | .temp _ => .readOnly
  | .ts _ => .readOnly
  | .tsVld => .readOnly
  | .tflt => .readOnly
  | .integ _ => .readOnly
  | .perr _ => .readOnly
  | .ptime _ => .readOnly
  | .pinit => .readOnly
  | .pout _ => .readOnly
  | .hystOn => .readOnly
  | .drive => .readOnly
  | .aggOut _ => .readOnly
  | .aggPwm _ => .readOnly
  | .romRaw _ => .readOnly
  | .romTemp _ => .readOnly

/-- The address column of 10_state R59. -/
def Reg.addr : Reg → Nat
  | .param => 0x000
  | .tickHz => 0x001
  | .kp => 0x010
  | .ki => 0x011
  | .kd => 0x012
  | .pidThr => 0x013
  | .iclamp => 0x014
  | .hystBand => 0x015
  | .minSi => 0x016
  | .ctrl => 0x017
  | .active => 0x018
  | .target x => 0x020 + x.val
  | .aggTmin => 0x028
  | .aggTmax => 0x029
  | .aggPmin => 0x02A
  | .aggPmax => 0x02B
  | .temp ch => 0x040 + ch.val
  | .ts ch => 0x050 + ch.val
  | .tsVld => 0x060
  | .tflt => 0x061
  | .integ ch => 0x080 + ch.val
  | .perr ch => 0x090 + ch.val
  | .ptime ch => 0x0A0 + ch.val
  | .pinit => 0x0B0
  | .pout ch => 0x0C0 + ch.val
  | .hystOn => 0x0D0
  | .drive => 0x0D1
  | .aggOut x => 0x0E0 + x.val
  | .aggPwm x => 0x0E4 + x.val
  | .romRaw i => 0x100 + i.val
  | .romTemp i => 0x200 + i.val

/-- A window of `n` consecutive addresses from `base`: the index of address `a` in it. -/
def windowIndex (base n a : Nat) : Option (Fin n) :=
  if h : base ≤ a ∧ a - base < n then some ⟨a - base, h.2⟩ else none

/-- The registers outside the indexed windows, by address (10_state R59). -/
def singleRegAt (a : Nat) : Option Reg :=
  match a with
  | 0x000 => some .param
  | 0x001 => some .tickHz
  | 0x010 => some .kp
  | 0x011 => some .ki
  | 0x012 => some .kd
  | 0x013 => some .pidThr
  | 0x014 => some .iclamp
  | 0x015 => some .hystBand
  | 0x016 => some .minSi
  | 0x017 => some .ctrl
  | 0x018 => some .active
  | 0x028 => some .aggTmin
  | 0x029 => some .aggTmax
  | 0x02A => some .aggPmin
  | 0x02B => some .aggPmax
  | 0x060 => some .tsVld
  | 0x061 => some .tflt
  | 0x0B0 => some .pinit
  | 0x0D0 => some .hystOn
  | 0x0D1 => some .drive
  | _ => none

/-- A ROM window register is mapped only for `i < N_CAL` (10_state R59). -/
def romWindowAt (nCal base a : Nat) (f : Fin 256 → Reg) : Option Reg :=
  match windowIndex base 256 a with
  | some i => if i.val < nCal then some (f i) else none
  | none => none

/-- The registers of 10_state R59 below the ROM windows, by address. -/
def fixedRegAt (a : Nat) : Option Reg :=
  [singleRegAt a,
   (windowIndex 0x020 4 a).map .target,
   (windowIndex 0x040 16 a).map .temp,
   (windowIndex 0x050 16 a).map .ts,
   (windowIndex 0x080 16 a).map .integ,
   (windowIndex 0x090 16 a).map .perr,
   (windowIndex 0x0A0 16 a).map .ptime,
   (windowIndex 0x0C0 16 a).map .pout,
   (windowIndex 0x0E0 4 a).map .aggOut,
   (windowIndex 0x0E4 4 a).map .aggPwm].findSome? id

/-- The register at an address, none where 10_state R59 maps nothing. -/
def regAt (p : Params) (addr : Half) : Option Reg :=
  [fixedRegAt addr.toNat,
   romWindowAt p.nCal 0x100 addr.toNat .romRaw,
   romWindowAt p.nCal 0x200 addr.toNat .romTemp].findSome? id

/-! ## Register access -/

/-- PARAM: N_CAL in bits 8..0, STRAT in bit 9, zero in bits 15..10, RAW_MAX in bits 31..16 (10_state R57). -/
def paramWord (p : Params) : Word :=
  let strat : BitVec 1 := match p.strategy with
    | .hyst => 0#1
    | .pid => 1#1
  p.rawMax ++ 0#6 ++ strat ++ BitVec.ofNat 9 p.nCal

/-- The value of a register, its reserved bits 0 (10_state R60, R61). -/
def readReg (s : State) : Reg → Word
  | .param => paramWord s.params
  | .tickHz => s.params.tickHz
  | .kp => s.kp
  | .ki => s.ki
  | .kd => s.kd
  | .pidThr => s.pidThr
  | .iclamp => s.iclamp
  | .hystBand => s.hystBand
  | .minSi => s.minSi
  | .ctrl => zext32 s.ctrl
  | .active => zext32 s.active
  | .target x => s.target[x]
  | .aggTmin => s.aggTmin
  | .aggTmax => s.aggTmax
  | .aggPmin => zext32 s.aggPmin
  | .aggPmax => zext32 s.aggPmax
  | .temp ch => s.temp[ch]
  | .ts ch => s.ts[ch]
  | .tsVld => zext32 s.tsVld
  | .tflt => zext32 s.tflt
  | .integ ch => s.integ[ch]
  | .perr ch => s.perr[ch]
  | .ptime ch => s.ptime[ch]
  | .pinit => zext32 s.pinit
  | .pout ch => s.pout[ch]
  | .hystOn => zext32 s.hystOn
  | .drive => zext32 s.drive
  | .aggOut x => s.aggOut[x]
  | .aggPwm x => zext32 s.aggPwm[x]
  | .romRaw i => zext32 (Sys2Proof.Machine.romRaw s.params i.val)
  | .romTemp i => Sys2Proof.Machine.romTemp s.params i.val

/-- The write of a register with its reserved bits dropped (10_state R60), one arm per read-write register of R59.
A read-only register is not written; WRREG fails with E_REG_RO before it comes here (43_register_access R193). -/
def writeReg (s : State) (r : Reg) (v : Word) : State :=
  match r with
  | .kp => { s with kp := v }
  | .ki => { s with ki := v }
  | .kd => { s with kd := v }
  | .pidThr => { s with pidThr := v }
  | .iclamp => { s with iclamp := v }
  | .hystBand => { s with hystBand := v }
  | .minSi => { s with minSi := v }
  | .ctrl => { s with ctrl := v.setWidth 1 }
  | .active => { s with active := v.setWidth 16 }
  | .target x => { s with target := s.target.set x v }
  | .aggTmin => { s with aggTmin := v }
  | .aggTmax => { s with aggTmax := v }
  | .aggPmin => { s with aggPmin := v.setWidth 16 }
  | .aggPmax => { s with aggPmax := v.setWidth 16 }
  | .param | .tickHz | .temp _ | .ts _ | .tsVld | .tflt | .integ _ | .perr _ | .ptime _ | .pinit | .pout _
  | .hystOn | .drive | .aggOut _ | .aggPwm _ | .romRaw _ | .romTemp _ => s

/-- The word a RDREG of this address would return, none where the address is unmapped (10_state R61). -/
def peek (s : State) (addr : Half) : Option Word := (regAt s.params addr).map (readReg s)

/-! ## RESET -/

/-- RESET: every register at its reset value, the parameters kept (70_reset R240, R241). It returns no STATUS or
RESULT; the host's interactions still to come stay queued (log 3). -/
def resetOp (s : State) : State := State.resetWith s.params s.queue

end Sys2Proof.Machine
end

