-- ==== Sys2Proof/Machine/Lookup.lean ====
section
/-! DEFINITION. Temperature lookup: the conversion function, CONV and SAMPLE (40_lookup). -/

namespace Sys2Proof.Machine

/-- The upper bracket index: the first index, from 1 up, whose raw value is at least the sample; N_CAL - 1 when none
qualifies (40_lookup R113). -/
def bracketHi (p : Params) (raw : Nat) : Nat :=
  match (List.range' 1 (p.nCal - 1)).find? (fun i => decide (raw ≤ (romRaw p i).toNat)) with
  | some i => i
  | none => p.nCal - 1

/-- The interpolation between points `lo` and `hi`, evaluated in the order of 40_lookup R115. -/
def interpolate (p : Params) (lo hi raw : Nat) : Word :=
  let num := i2f ((raw : Int) - ((romRaw p lo).toNat : Int))
  let den := i2f (((romRaw p hi).toNat : Int) - ((romRaw p lo).toNat : Int))
  let dT := fsub (romTemp p hi) (romTemp p lo)
  fadd (romTemp p lo) (fdiv (fmul num dT) den)

/-- `Convert(raw)` (40_lookup R111): the sensor-fault test (R112), bracket selection (R113), the table-point bypass
(R114) and interpolation (R115). -/
def convert (p : Params) (raw : Half) : Status × Word :=
  let r := raw.toNat
  if r = 0 ∨ p.rawMax.toNat ≤ r then (.sensorFault, Config.sent)
  else
    let hi := bracketHi p r
    let lo := hi - 1
    if r = (romRaw p hi).toNat then (.ok, romTemp p hi)
    else if r = (romRaw p lo).toNat then (.ok, romTemp p lo)
    else (.ok, interpolate p lo hi r)

/-- The rate limiter of SAMPLE applies: the channel has a successful sample less than MIN_SI ticks old
(40_lookup R121). -/
def rateLimited (s : State) (ch : Channel) : Bool :=
  s.sampled ch && decide (elapsedTicks s.tnow s.ts[ch] < s.minSi.toNat)

/-- CONV raw (40_lookup R110). -/
def execConv (raw : Half) (s : State) : Answer :=
  let c := convert s.params raw
  done c.1 c.2 s

/-- SAMPLE ch, raw (40_lookup R120): rate limiter (R121), fault path (R122), success path (R123). -/
def execSample (ch : Channel) (raw : Half) (s : State) : Answer :=
  if rateLimited s ch then
    done (if s.faulted ch then .cachedFault else .cached) s.temp[ch] s
  else
    match convert s.params raw with
    | (.sensorFault, _) =>
      done .sensorFault Config.sent (({ s with temp := s.temp.set ch Config.sent }).setFaulted ch true)
    | (_, v) =>
      done .ok v
        ((({ s with temp := s.temp.set ch v, ts := s.ts.set ch s.tnow }).setFaulted ch false).setSampled ch true)

end Sys2Proof.Machine
end

