-- ==== Sys2Proof/Machine/Hysteresis.lean ====
section
/-! DEFINITION. Section average, hysteresis comparator and aggregate output: AVG, HYST and AGG (41_hysteresis). -/

namespace Sys2Proof.Machine

/-! ## The section average -/

/-- The sum of TEMP over the channels of a list after the first, added one by one to a running sum (41_hysteresis
R142). -/
def sumTemps (s : State) (sum : Word) (chs : List Channel) : Word :=
  chs.foldl (fun acc ch => fadd acc s.temp[ch]) sum

/-- `favg(L)` of a non-empty list given as its head and tail: the sum in list order over the count (41_hysteresis
R142). -/
def favg (s : State) (first : Channel) (rest : List Channel) : Word :=
  fdiv (sumTemps s s.temp[first] rest) (i2f ((rest.length + 1 : Nat) : Int))

/-- The channels of a section that are active and valid (41_hysteresis R141). -/
def activeValid (s : State) (x : Sec) : List Channel :=
  (channelsOf x).filter (fun ch => s.isActive ch && !s.faulted ch)

/-- The channels of a section that are valid (41_hysteresis R141). -/
def allValid (s : State) (x : Sec) : List Channel := (channelsOf x).filter (fun ch => !s.faulted ch)

/-- `SectionAverage(s)` (41_hysteresis R141): the active valid channels, else all valid channels, else 25.0. -/
def sectionAverage (s : State) (x : Sec) : Status × Word :=
  match activeValid s x with
  | first :: rest => (.ok, favg s first rest)
  | [] =>
    match allValid s x with
    | first :: rest => (.avgAll, favg s first rest)
    | [] => (.avgDefault, Config.tDefault)

/-- AVG s (41_hysteresis R140). -/
def execAvg (x : Sec) (s : State) : Answer :=
  let average := sectionAverage s x
  done average.1 average.2 s

/-! ## The hysteresis comparator -/

/-- The section has no setpoint: TARGET[s] holds the bit pattern of SENT (41_hysteresis R148, 42_pid R175). -/
def noSetpoint (s : State) (x : Sec) : Bool := feqBits s.target[x] Config.sent

/-- The comparator's new decision: on below `target - band`, off above `target + band`, the held decision otherwise
(41_hysteresis R149). -/
def hystDecision (target band avg : Word) (held : Bool) : Bool :=
  let lo := fsub target band
  let hi := fadd target band
  if flt avg lo then true else if fgt avg hi then false else held

/-- HYST s (41_hysteresis R147). -/
def execHyst (x : Sec) (s : State) : Answer :=
  match s.params.strategy with
  | .pid => fail .eStrat s
  | .hyst =>
    let average := sectionAverage s x
    if noSetpoint s x then
      done .noTarget average.2 ((s.setHeating x false).requestDriveAll (channelsOf x) false)
    else
      let h := hystDecision s.target[x] s.hystBand average.2 (s.heating x)
      done average.1 average.2 ((s.setHeating x h).requestDriveAll (channelsOf x) h)

/-! ## The aggregate output -/

/-- `aggclamp(v, pminf, pmaxf)`: NaN and values below the range give the low end (41_hysteresis R157). -/
def aggClamp (v pminf pmaxf : Word) : Word :=
  if flt v pminf || isNaN v then pminf else if fgt v pmaxf then pmaxf else v

/-- The range is valid: `tmax > tmin` as binary32 and `pmax > pmin` unsigned (41_hysteresis R156). -/
def aggRangeValid (s : State) : Bool :=
  fgt s.aggTmax s.aggTmin && decide (s.aggPmin.toNat < s.aggPmax.toNat)

/-- The inverted linear remap before clamping, in the order of 41_hysteresis R155. -/
def aggRemap (tmin tmax pminf pmaxf avg : Word) : Word :=
  fadd (fdiv (fmul (fsub avg tmin) (fsub pminf pmaxf)) (fsub tmax tmin)) pmaxf

/-- The clamped output of AGG for an average (41_hysteresis R155, R157). -/
def aggValue (s : State) (avg : Word) : Word :=
  let pminf := i2f (s.aggPmin.toNat : Int)
  let pmaxf := i2f (s.aggPmax.toNat : Int)
  aggClamp (aggRemap s.aggTmin s.aggTmax pminf pmaxf avg) pminf pmaxf

/-- AGG s (41_hysteresis R155). -/
def execAgg (x : Sec) (s : State) : Answer :=
  if !aggRangeValid s then fail .eCfg s
  else
    let average := sectionAverage s x
    let v := aggValue s average.2
    done average.1 v
      { s with aggOut := s.aggOut.set x v, aggPwm := s.aggPwm.set x (BitVec.ofNat 16 (ftrunc v)) }

end Sys2Proof.Machine
end

