-- ==== Sys2Proof/Machine/Pid.lean ====
section
/-! DEFINITION. The PID control loop with its per-channel accumulator (42_pid). -/

namespace Sys2Proof.Machine

/-- 1.0 as binary32. -/
def f32One : Word := 0x3F800000#32

/-- +0.0 as binary32. -/
def f32Zero : Word := 0x00000000#32

/-- `iclamp(I, C)` (42_pid R171); a NaN `I` passes through. -/
def integralClamp (i c : Word) : Word :=
  if fgt i c then c else if flt i (fneg c) then fneg c else i

/-- `pidclamp(u)` (42_pid R172): the output in [+0.0, 1.0]; NaN gives +0.0. -/
def pidClamp (u : Word) : Word :=
  if fgt u f32One then f32One else if fgt u f32Zero then u else f32Zero

/-- The error `TARGET[sec ch] - TEMP[ch]` (42_pid R170). -/
def pidError (s : State) (ch : Channel) : Word := fsub s.target[secOf ch] s.temp[ch]

/-- The elapsed ticks `el`: 0 on the first update, else modular (42_pid R173). -/
def pidElapsed (s : State) (ch : Channel) : Nat :=
  if s.pidStarted ch then elapsedTicks s.tnow s.ptime[ch] else 0

/-- `dt` in seconds (42_pid R170). -/
def pidSeconds (s : State) (ch : Channel) : Word :=
  fdiv (i2f (pidElapsed s ch : Int)) (i2f (s.params.tickHz.toNat : Int))

/-- The new integral, clamped when CTRL.ICLAMP_EN is 1 (42_pid R171). -/
def pidIntegral (s : State) (ch : Channel) : Word :=
  let i := fadd s.integ[ch] (fmul (pidError s ch) (pidSeconds s ch))
  if bitAt s.ctrl 0 then integralClamp i s.iclamp else i

/-- The derivative term, +0.0 when no time has passed (42_pid R172, R173). -/
def pidDerivative (s : State) (ch : Channel) : Word :=
  if pidElapsed s ch = 0 then f32Zero
  else fdiv (fmul s.kd (fsub (pidError s ch) s.perr[ch])) (pidSeconds s ch)

/-- The clamped output `((KP*e) + (KI*I)) + D` (42_pid R172). -/
def pidOutput (s : State) (ch : Channel) : Word :=
  pidClamp (fadd (fadd (fmul s.kp (pidError s ch)) (fmul s.ki (pidIntegral s ch))) (pidDerivative s ch))

/-- The channel forced off: POUT[ch] = +0.0 and DRIVE[ch] = 0, the accumulator kept (42_pid R175). -/
def pidForceOff (s : State) (ch : Channel) : State :=
  ({ s with pout := s.pout.set ch f32Zero }).requestDrive ch false

/-- The state writes of a completed update (42_pid R170, R174). Every value is computed from the state before it. -/
def pidUpdate (s : State) (ch : Channel) : State :=
  (({ s with
      integ := s.integ.set ch (pidIntegral s ch),
      perr := s.perr.set ch (pidError s ch),
      ptime := s.ptime.set ch s.tnow,
      pout := s.pout.set ch (pidOutput s ch) }).setPidStarted ch true).requestDrive ch
    (fgt (pidOutput s ch) s.pidThr)

/-- PID ch (42_pid R170): strategy, missing setpoint, missing temperature (R175), update. -/
def execPid (ch : Channel) (s : State) : Answer :=
  match s.params.strategy with
  | .hyst => fail .eStrat s
  | .pid =>
    if noSetpoint s (secOf ch) then done .noTarget f32Zero (pidForceOff s ch)
    else if s.faulted ch then done .tempFault f32Zero (pidForceOff s ch)
    else done .ok (pidOutput s ch) (pidUpdate s ch)

end Sys2Proof.Machine
end

