-- ==== Sys2Proof/Machine/RegisterAccess.lean ====
section
/-! DEFINITION. NOP, RDREG and WRREG (43_register_access). -/

namespace Sys2Proof.Machine

/-- NOP (43_register_access R190). -/
def execNop (s : State) : Answer := done .ok 0#32 s

/-- RDREG addr (43_register_access R192). -/
def execRdreg (addr : Half) (s : State) : Answer :=
  match regAt s.params addr with
  | none => fail .eRegAddr s
  | some r => done .ok (readReg s r) s

/-- WRREG addr, DATA (43_register_access R193): unmapped is tested before read-only (60_exceptions R213). -/
def execWrreg (addr : Half) (s : State) : Answer :=
  match regAt s.params addr with
  | none => fail .eRegAddr s
  | some r =>
    match r.access with
    | .readOnly => fail .eRegRo s
    | .readWrite => done .ok 0#32 (writeReg s r s.data)

end Sys2Proof.Machine
end

