-- ==== Sys2Proof/Machine/Dispatch.lean ====
section
/-! DEFINITION. One arm per constructor of `Instr`, each a direct call of its meaning. -/

namespace Sys2Proof.Machine

def exec (i : Instr) (s : State) : Host.Outcome State Fault Refusal :=
  match i with
  | .nop => Sys2Proof.Machine.execNop s
  | .conv raw => Sys2Proof.Machine.execConv raw s
  | .sample ch raw => Sys2Proof.Machine.execSample ch raw s
  | .avg x => Sys2Proof.Machine.execAvg x s
  | .hyst x => Sys2Proof.Machine.execHyst x s
  | .pid ch => Sys2Proof.Machine.execPid ch s
  | .agg x => Sys2Proof.Machine.execAgg x s
  | .rdreg addr => Sys2Proof.Machine.execRdreg addr s
  | .wrreg addr => Sys2Proof.Machine.execWrreg addr s

end Sys2Proof.Machine
end

