-- ==== Sys2Proof/Machine/Port.lean ====
section
/-! DEFINITION. The host port: accepting a transaction and placing one (20_memory R70, R71). -/

namespace Sys2Proof.Machine

/-- The state in which a transaction runs: its DATA and TNOW presented, the later interactions still queued
(20_memory R70, R73, R74). -/
def acceptTransaction (s : State) (data tnow : Word) (later : List Interaction) : State :=
  { s with queue := later, data := data, tnow := tnow }

/-- A transaction issued by the host, performed before every interaction already queued. -/
def issueNext (s : State) (i : Interaction) : State := { s with queue := i :: s.queue }

end Sys2Proof.Machine
end

