-- ==== Sys2Proof/Machine/Step.lean ====
section
/-! DEFINITION. One step of HBCC: the next interaction of the host, performed whole (20_memory R71, R72). -/

namespace Sys2Proof.Machine

/-- One transaction: decode CMD, then perform the operation; a word that does not decode fails with E_ILLEGAL and
changes no register (20_memory R70, 30_encoding R96, R97). -/
def runTransaction (cmd : Word) (s : State) : Answer :=
  match decode cmd with
  | .error _ => fail .eIllegal s
  | .ok i => exec i s

/-- One step. A parameter set that 00_scope R11 does not admit is refused. With nothing issued HBCC holds its state and
does nothing (60_exceptions R229; log 3). -/
def step (s : State) : Host.Outcome State Fault Refusal :=
  match s.params.check with
  | .error e => .refused (.parametersNotAdmitted e)
  | .ok _ =>
    match s.queue with
    | [] => .next s
    | .reset :: later => .next (resetOp { s with queue := later })
    | .transaction cmd data tnow :: later => runTransaction cmd (acceptTransaction s data tnow later)

/-- `s` with the command word `w` of `nbits` bits issued as the next transaction, DATA and TNOW 0 (log 10). -/
def State.withFetchWord (s : State) (nbits w : Nat) : State :=
  issueNext s (.transaction (BitVec.ofNat 32 (w % 2 ^ nbits)) 0#32 0#32)

end Sys2Proof.Machine
end

