-- ==== Sys2Proof/Machine/Assembler.lean ====
section
/-! DEFINITION. The assembler syntax of 30_encoding R99, the pseudo-instructions of R100 and the transactions a program
of such lines issues. Text is a list of characters. What R99 and R100 leave open of the text form (blanks, the form of
an index, the grammar of a decimal and more) is DESIGN CHOICE, log 14; no step of the machine uses this file. -/

namespace Sys2Proof.Machine

/-! ## Text -/

/-- The text without its leading and trailing blanks. -/
def trimBlanks (cs : List Char) : List Char :=
  ((cs.dropWhile (· == ' ')).reverse.dropWhile (· == ' ')).reverse

/-- The text cut at every `sep`. -/
def splitAtChar (sep : Char) : List Char → List (List Char)
  | [] => [[]]
  | c :: cs =>
    if c == sep then [] :: splitAtChar sep cs
    else match splitAtChar sep cs with
      | [] => [[c]]
      | first :: rest => (c :: first) :: rest

/-- The value of a digit character in base 10 or 16. -/
def digitValue (base : Nat) (c : Char) : Option Nat :=
  let n := c.toNat
  let v := if 0x30 ≤ n ∧ n ≤ 0x39 then some (n - 0x30)
    else if 0x41 ≤ n ∧ n ≤ 0x46 then some (n - 0x41 + 10)
    else if 0x61 ≤ n ∧ n ≤ 0x66 then some (n - 0x61 + 10)
    else none
  match v with
  | some d => if d < base then some d else none
  | none => none

/-- Digits of a base continued from the number read so far. -/
def digitsFrom (base acc : Nat) : List Char → Option Nat
  | [] => some acc
  | c :: cs =>
    match digitValue base c with
    | some d => digitsFrom base (acc * base + d) cs
    | none => none

/-- A number of at least one digit. -/
def parseDigits (base : Nat) : List Char → Option Nat
  | [] => none
  | c :: cs => digitsFrom base 0 (c :: cs)

/-- "numbers in decimal or 0x hex" (30_encoding R99). -/
def parseNumber : List Char → Option Nat
  | '0' :: 'x' :: hex => parseDigits 16 hex
  | dec => parseDigits 10 dec

/-- A number that fits `w` bits. -/
def parseBits (w : Nat) (cs : List Char) : Option (BitVec w) :=
  match parseNumber cs with
  | some n => if n < 2 ^ w then some (BitVec.ofNat w n) else none
  | none => none

/-- A letter and an index below `n`: `c<n>` for a channel, `s<n>` for a section (30_encoding R99). DESIGN CHOICE (log 14):
the index is decimal digits only, not `0x` hex. -/
def parseIndexed (letter : Char) (n : Nat) : List Char → Option (Fin n)
  | [] => none
  | c :: cs =>
    if c == letter then
      match parseDigits 10 cs with
      | some i => if h : i < n then some ⟨i, h⟩ else none
      | none => none
    else none

/-! ## Register names -/

/-- The registers of 10_state R59 that have a name without an index. -/
def plainRegNames : List (List Char × Reg) :=
  [("PARAM".toList, .param), ("TICKHZ".toList, .tickHz), ("KP".toList, .kp), ("KI".toList, .ki), ("KD".toList, .kd),
   ("PID_THR".toList, .pidThr), ("ICLAMP".toList, .iclamp), ("HYST_BAND".toList, .hystBand),
   ("MIN_SI".toList, .minSi), ("CTRL".toList, .ctrl), ("ACTIVE".toList, .active), ("AGG_TMIN".toList, .aggTmin),
   ("AGG_TMAX".toList, .aggTmax), ("AGG_PMIN".toList, .aggPmin), ("AGG_PMAX".toList, .aggPmax),
   ("TS_VLD".toList, .tsVld), ("TFLT".toList, .tflt), ("PINIT".toList, .pinit), ("HYST_ON".toList, .hystOn),
   ("DRIVE".toList, .drive)]

/-- The arrayed registers of 10_state R59: name, number of elements, first address. DESIGN CHOICE (log 14): the assembler
does not know N_CAL, so ROM_RAW[i] and ROM_TEMP[i] assemble for every i below 256, the legal maximum of N_CAL (00_scope
R10), though R59 maps them for i < N_CAL only; the command for an unmapped one fails with E_REG_ADDR when performed. -/
def arrayRegNames : List (List Char × Nat × Nat) :=
  [("TARGET".toList, 4, 0x020), ("TEMP".toList, 16, 0x040), ("TS".toList, 16, 0x050), ("INTEG".toList, 16, 0x080),
   ("PERR".toList, 16, 0x090), ("PTIME".toList, 16, 0x0A0), ("POUT".toList, 16, 0x0C0), ("AGG_OUT".toList, 4, 0x0E0),
   ("AGG_PWM".toList, 4, 0x0E4), ("ROM_RAW".toList, 256, 0x100), ("ROM_TEMP".toList, 256, 0x200)]

/-- The index between square brackets. DESIGN CHOICE (log 14): R99 writes numbers in decimal or `0x` hex and shows the index
of an arrayed name as `TARGET[2]`; the model takes decimal digits only, so `ROM_RAW[0x10]` is no register name. -/
def parseBracketed (cs : List Char) : Option Nat :=
  match cs.reverse with
  | ']' :: digits => parseDigits 10 digits.reverse
  | _ => none

/-- A register name of 10_state R59, "arrayed names with their index" (30_encoding R99). -/
def parseRegName (cs : List Char) : Option Half :=
  match splitAtChar '[' cs with
  | [name] => (plainRegNames.lookup name).map (fun r => BitVec.ofNat 16 r.addr)
  | [name, index] =>
    match arrayRegNames.lookup name, parseBracketed index with
    | some (count, base), some i => if i < count then some (BitVec.ofNat 16 (base + i)) else none
    | _, _ => none
  | _ => none

/-- "register addresses as a number or as a register name" (30_encoding R99). -/
def parseAddr (cs : List Char) : Option Half :=
  match parseBits 16 cs with
  | some a => some a
  | none => parseRegName cs

/-! ## Decimals of the pseudo-instructions -/

/-- Digits, a point, digits: the number without the point, and how many digits follow it. -/
def parsePointed (cs : List Char) : Option (Nat × Nat) :=
  match splitAtChar '.' cs with
  | [whole] => (parseDigits 10 whole).map (fun n => (n, 0))
  | [whole, part] =>
    match parseDigits 10 whole, parseDigits 10 part with
    | some _, some _ => (parseDigits 10 (whole ++ part)).map (fun n => (n, part.length))
    | _, _ => none
  | _ => none

/-- "binary32 bits of the decimal, rounded to nearest even" (30_encoding R100). -/
def parseDecimalF32 (cs : List Char) : Option Word :=
  match cs with
  | '-' :: rest => (parsePointed rest).map (fun (n, k) => packF32 true (roundMag (2 ^ 149 * n) (10 ^ k)))
  | rest => (parsePointed rest).map (fun (n, k) => packF32 false (roundMag (2 ^ 149 * n) (10 ^ k)))

/-! ## Lines -/

/-- A command with its DATA word. -/
structure Command where
  instr : Instr
  data : Word
deriving DecidableEq, Repr

/-- A command whose DATA word no operation reads. -/
def plainCommand (i : Instr) : Command := ⟨i, 0#32⟩

/-- A write of a word to an address. -/
def writeCommand (a : Half) (v : Word) : Command := ⟨.wrreg a, v⟩

/-- `0x020 + n`, the address of TARGET[n] (30_encoding R100). -/
def targetAddr (x : Sec) : Half := BitVec.ofNat 16 (Reg.target x).addr

/-- The mnemonics of 30_encoding R99 and the pseudo-instructions of R100, with their operands. -/
def parseCommand (name : List Char) (args : List (List Char)) : Option Command :=
  if name = "nop".toList then
    match args with
    | [] => some (plainCommand .nop)
    | _ => none
  else if name = "conv".toList then
    match args with
    | [r] => (parseBits 16 r).map (fun raw => plainCommand (.conv raw))
    | _ => none
  else if name = "sample".toList then
    match args with
    | [c, r] => do
      let ch ← parseIndexed 'c' 16 c
      let raw ← parseBits 16 r
      some (plainCommand (.sample ch raw))
    | _ => none
  else if name = "avg".toList then
    match args with
    | [x] => (parseIndexed 's' 4 x).map (fun x => plainCommand (.avg x))
    | _ => none
  else if name = "hyst".toList then
    match args with
    | [x] => (parseIndexed 's' 4 x).map (fun x => plainCommand (.hyst x))
    | _ => none
  else if name = "pid".toList then
    match args with
    | [c] => (parseIndexed 'c' 16 c).map (fun ch => plainCommand (.pid ch))
    | _ => none
  else if name = "agg".toList then
    match args with
    | [x] => (parseIndexed 's' 4 x).map (fun x => plainCommand (.agg x))
    | _ => none
  else if name = "rdreg".toList then
    match args with
    | [a] => (parseAddr a).map (fun addr => plainCommand (.rdreg addr))
    | _ => none
  else if name = "wrreg".toList then
    match args with
    | [a, v] => do
      let addr ← parseAddr a
      let word ← parseBits 32 v
      some (writeCommand addr word)
    | _ => none
  else if name = "wrf".toList then
    match args with
    | [a, d] => do
      let addr ← parseAddr a
      let word ← parseDecimalF32 d
      some (writeCommand addr word)
    | _ => none
  else if name = "settarget".toList then
    match args with
    | [x, d] => do
      let x ← parseIndexed 's' 4 x
      let word ← parseDecimalF32 d
      some (writeCommand (targetAddr x) word)
    | _ => none
  else if name = "notarget".toList then
    match args with
    | [x] => (parseIndexed 's' 4 x).map (fun x => writeCommand (targetAddr x) Config.sent)
    | _ => none
  else if name = "rdtemp".toList then
    match args with
    | [c] => (parseIndexed 'c' 16 c).map (fun ch => plainCommand (.rdreg (BitVec.ofNat 16 (Reg.temp ch).addr)))
    | _ => none
  else if name = "setactive".toList then
    match args with
    | [m] => (parseBits 16 m).map (fun mask => writeCommand (BitVec.ofNat 16 Reg.active.addr) (zext32 mask))
    | _ => none
  else none

/-- A command line without its TNOW prefix: the mnemonic, then the operands separated by commas. -/
def parseBody (cs : List Char) : Option Command :=
  let body := trimBlanks cs
  let name := body.takeWhile (· != ' ')
  let operands := trimBlanks (body.dropWhile (· != ' '))
  parseCommand name (if operands = [] then [] else (splitAtChar ',' operands).map trimBlanks)

/-- A line: TNOW where the line has an `@<ticks>` prefix, and the command (30_encoding R99). -/
def parseLine (cs : List Char) : Option (Option Word × Command) :=
  match trimBlanks cs with
  | '@' :: rest => do
    let now ← parseBits 32 (rest.takeWhile (· != ' '))
    let c ← parseBody (rest.dropWhile (· != ' '))
    some (some now, c)
  | body => (parseBody body).map (fun c => (none, c))

/-- The transactions of a program: a line without the prefix "is issued with the TNOW of the previous line (0 on the
first line)" (30_encoding R99). `before` is the TNOW of the previous line. -/
def assembleFrom (before : Word) : List (List Char) → Option (List Interaction)
  | [] => some []
  | line :: rest => do
    let (now, c) ← parseLine line
    let tnow := now.getD before
    let later ← assembleFrom tnow rest
    some (.transaction (encode c.instr) c.data tnow :: later)

/-- The transactions a program of command lines issues (30_encoding R99-R101). -/
def assemble (lines : List (List Char)) : Option (List Interaction) := assembleFrom 0#32 lines

end Sys2Proof.Machine
end

