-- ==== Sys2Proof/Safety.lean ====
section
/-! DEFINITION. What counts as a good state of HBCC: the invariants the rules give the registers, in the terms the
statements use. -/

namespace Sys2Proof.Machine

/-- "if `TFLT[ch] = 1` then `TEMP[ch] = SENT`" (10_state R37). -/
def State.FaultedHoldsSent (s : State) : Prop := ∀ ch : Channel, s.faulted ch = true → s.temp[ch] = Config.sent

/-- A NaN held in TEMP is the canonical one (00_scope R11, R18: the ROM is finite and arithmetic gives no other). -/
def State.TempCanonical (s : State) : Prop := ∀ ch : Channel, isNaN s.temp[ch] = true → s.temp[ch] = canonicalNaN

/-- A channel with no successful sample since reset is faulted and has TS = 0 (10_state R34-R36, 70_reset R242). -/
def State.UnsampledAsReset (s : State) : Prop :=
  ∀ ch : Channel, s.sampled ch = false → s.faulted ch = true ∧ s.ts[ch] = 0#32

/-- A channel with no PID update since reset has its accumulator at the reset values (10_state R38-R41). -/
def State.UnstartedAsReset (s : State) : Prop :=
  ∀ ch : Channel, s.pidStarted ch = false → s.integ[ch] = 0#32 ∧ s.perr[ch] = 0#32 ∧ s.ptime[ch] = 0#32

/-- "the output is always in [+0.0, 1.0] and never -0.0 or NaN" (42_pid R172): as a pattern, at most that of 1.0. -/
def State.OutputsInUnit (s : State) : Prop := ∀ ch : Channel, s.pout[ch].toNat ≤ 0x3F800000

/-- AGG_PWM is the integer part of AGG_OUT, which lies in 0..65535 (41_hysteresis R157). -/
def State.AggregateConsistent (s : State) : Prop :=
  ∀ x : Sec, fle 0#32 s.aggOut[x] = true ∧ fle s.aggOut[x] (i2f 65535) = true ∧ s.aggPwm[x].toNat = ftrunc s.aggOut[x]

/-- Under STRATEGY = HYST a drive request stands only in a section whose held decision is on, and no PID state is ever
written; under STRATEGY = PID no held decision is ever on (00_scope R13, 10_state R62). -/
def State.StrategySeparated (s : State) : Prop :=
  match s.params.strategy with
  | .hyst => (∀ ch : Channel, s.driven ch = true → s.heating (secOf ch) = true) ∧ s.pinit = 0#16
      ∧ ∀ ch : Channel, s.pout[ch] = 0#32
  | .pid => s.hystOn = 0#4

/-- A good state: an admitted parameter set and every invariant above. -/
structure State.Good (s : State) : Prop where
  admitted : s.params.admitted = true
  faultedHoldsSent : s.FaultedHoldsSent
  tempCanonical : s.TempCanonical
  unsampledAsReset : s.UnsampledAsReset
  unstartedAsReset : s.UnstartedAsReset
  outputsInUnit : s.OutputsInUnit
  aggregateConsistent : s.AggregateConsistent
  strategySeparated : s.StrategySeparated

/-! ## Binary32 values (00_scope R17, R18) -/

/-- The rational number a finite binary32 pattern stands for, from its sign, exponent and fraction fields (00_scope R17);
none for an infinity or a NaN. The IEEE 754 formula is PRESUMED (log 8). -/
def binary32Value (w : Word) : Option ℚ :=
  let sign : ℚ := if signBit w then -1 else 1
  if expField w = 255 then none
  else if expField w = 0 then some (sign * (fracField w / 2 ^ 23) / 2 ^ 126)
  else some (sign * (1 + fracField w / 2 ^ 23) * 2 ^ expField w / 2 ^ 127)

/-- The least magnitude that rounds to an infinity: halfway between the largest finite number and 2^128. -/
def overflowBound : ℚ := (2 ^ 25 - 1) * 2 ^ 103

/-- `w` is `x` rounded once to nearest, ties to even (00_scope R18): below the overflow bound no finite pattern is nearer
to `x`, and `w` is even where a pattern of another value is as near; from the bound on it is the infinity of `x`'s sign. -/
def IsRounded (x : ℚ) (w : Word) : Prop :=
  (|x| < overflowBound → ∃ v, binary32Value w = some v ∧ ∀ (c : Word) (u : ℚ), binary32Value c = some u →
    |v - x| ≤ |u - x| ∧ (|v - x| = |u - x| → u ≠ v → w.toNat % 2 = 0))
  ∧ (overflowBound ≤ |x| → w = infPattern (decide (x < 0)))

/-- The model's port is kept: the interactions still to come and the current inputs. -/
def SamePort (s t : State) : Prop := t.queue = s.queue ∧ t.data = s.data ∧ t.tnow = s.tnow

/-- The frame of an operation: every register outside a list of addresses reads as before (10_state R59, every one of the
2^16 addresses), the parameters are kept, and so is the port. Only the listed registers and the response may change. -/
def ChangesOnly (addrs : List Half) (s t : State) : Prop :=
  (∀ a : Half, a ∉ addrs → peek t a = peek s a) ∧ t.params = s.params ∧ SamePort s t

/-- The bits of a read-write register that R60 of 10_state defines: bit 0 of CTRL, bits 15..0 of ACTIVE, AGG_PMIN and
AGG_PMAX, all 32 bits of the others. -/
def definedBits (addr : Half) : Word :=
  if addr = 0x017#16 then 0x00000001#32
  else if addr = 0x018#16 ∨ addr = 0x02A#16 ∨ addr = 0x02B#16 then 0x0000FFFF#32
  else 0xFFFFFFFF#32

/-- The addresses 10_state R59 marks RW. -/
def writableAddr (addr : Half) : Prop :=
  (0x010 ≤ addr.toNat ∧ addr.toNat ≤ 0x018) ∨ (0x020 ≤ addr.toNat ∧ addr.toNat ≤ 0x023)
    ∨ (0x028 ≤ addr.toNat ∧ addr.toNat ≤ 0x02B)

/-- The addresses 10_state R59 maps, for a ROM of `n` points. -/
def mappedAddr (n : Nat) (addr : Half) : Prop :=
  addr.toNat ≤ 0x001 ∨ writableAddr addr
    ∨ (0x040 ≤ addr.toNat ∧ addr.toNat ≤ 0x061) ∨ (0x080 ≤ addr.toNat ∧ addr.toNat ≤ 0x0B0)
    ∨ (0x0C0 ≤ addr.toNat ∧ addr.toNat ≤ 0x0D1) ∨ (0x0E0 ≤ addr.toNat ∧ addr.toNat ≤ 0x0E7)
    ∨ (0x100 ≤ addr.toNat ∧ addr.toNat < 0x100 + n) ∨ (0x200 ≤ addr.toNat ∧ addr.toNat < 0x200 + n)

/-- A parameter set that breaks no clause of 00_scope R11 and lies in the legal values of R9, R10 and R12. -/
def LegalParams (p : Params) : Prop :=
  2 ≤ p.nCal ∧ p.nCal ≤ 256
    ∧ (∀ i, i + 1 < p.nCal → (romRaw p i).toNat < (romRaw p (i + 1)).toNat)
    ∧ (∀ i, i < p.nCal → ∃ neg mag, decodeF32 (romTemp p i) = .fin neg mag)
    ∧ 2 ≤ p.rawMax.toNat ∧ 1 ≤ p.tickHz.toNat ∧ p.tickHz.toNat ≤ 2 ^ 24

end Sys2Proof.Machine
end

