-- ==== Sys2Proof/Certificates/Slice0/Obligations.lean ====
section
/-! DEFINITION. The statements for the provers: what the numbered rules of spec/ say the commands and the machine do. -/

open Sys2Proof Sys2Proof.Machine

/-! ## Encoding and decoding -/

/-- 30_encoding R96, R101: decoding the word of a command gives the command, every operand at every value. -/
def Obligations.EncodedCommandDecodesToItself : Prop :=
  ∀ i : Instr, i.wellFormed = true → decode (encode i) = .ok i

/-- 30_encoding R96, R101: each legal word is the word of exactly the command it decodes to. -/
def Obligations.DecodedCommandEncodesToItsWord : Prop :=
  ∀ (cmd : Word) (i : Instr), decode cmd = .ok i → encode i = cmd

/-- 30_encoding R97: the illegal words are those with OPC 0x9..0xF and those with a 1 in a bit the row requires to be
zero; a transaction of such a word fails with E_ILLEGAL and changes no register. -/
def Obligations.IllegalWordsAreStrayBitsOrReservedOpcodes : Prop :=
  (∀ cmd : Word, (∃ e, decode cmd = .error e) ↔
    9 ≤ (opcField cmd).toNat ∨
      ∃ row k, opcodeRow (opcField cmd) = some row ∧ k < 28 ∧ row.mask.getLsbD k = true ∧ cmd.getLsbD k = true)
  ∧ ∀ (s : State) (cmd data tnow : Word) (later : List Interaction), s.params.admitted = true →
      s.queue = .transaction cmd data tnow :: later → (∃ e, decode cmd = .error e) →
      step s = .next { s with queue := later, data := data, tnow := tnow, response := some ⟨.eIllegal, 0#32⟩ }

/-- 30_encoding R94, R101: words written out bit by bit decode to the commands they stand for. -/
def Obligations.WrittenOutWordsDecode : Prop :=
  decode 0x00000000#32 = .ok .nop ∧ decode 0x100001D6#32 = .ok (.conv 470#16)
  ∧ decode 0x230001D6#32 = .ok (.sample 3 470#16) ∧ decode 0x30C00000#32 = .ok (.avg 3)
  ∧ decode 0x40400000#32 = .ok (.hyst 1) ∧ decode 0x5D000000#32 = .ok (.pid 13)
  ∧ decode 0x60400000#32 = .ok (.agg 1) ∧ decode 0x700000D1#32 = .ok (.rdreg 0x0D1#16)
  ∧ decode 0x80000020#32 = .ok (.wrreg 0x020#16)

/-! ## Assembler -/

/-- 30_encoding R99, R101: a line is one transaction of its encoded command, with its own TNOW where it has the prefix and
the TNOW of the previous line where it has none. -/
def Obligations.LinesCarryTimestampForward : Prop :=
  ∀ (before : Word) (line : List Char) (rest : List (List Char)) (now : Option Word) (c : Command)
    (later : List Interaction), parseLine line = some (now, c) →
    assembleFrom (now.getD before) rest = some later →
    assembleFrom before (line :: rest) = some (.transaction (encode c.instr) c.data (now.getD before) :: later)

/-- 30_encoding R100: each pseudo-instruction is the WRREG or RDREG it stands for. -/
def Obligations.PseudoInstructionsExpand : Prop :=
  (∀ (a d : List Char) (addr : Half) (v : Word), parseAddr a = some addr → parseDecimalF32 d = some v →
    parseCommand "wrf".toList [a, d] = some ⟨.wrreg addr, v⟩)
  ∧ (∀ (a d : List Char) (x : Sec) (v : Word), parseIndexed 's' 4 a = some x → parseDecimalF32 d = some v →
    parseCommand "settarget".toList [a, d] = some ⟨.wrreg (BitVec.ofNat 16 (0x020 + x.val)), v⟩)
  ∧ (∀ (a : List Char) (x : Sec), parseIndexed 's' 4 a = some x →
    parseCommand "notarget".toList [a] = some ⟨.wrreg (BitVec.ofNat 16 (0x020 + x.val)), 0xC479C000#32⟩)
  ∧ (∀ (a : List Char) (ch : Channel), parseIndexed 'c' 16 a = some ch →
    parseCommand "rdtemp".toList [a] = some ⟨.rdreg (BitVec.ofNat 16 (0x040 + ch.val)), 0#32⟩)
  ∧ ∀ (a : List Char) (mask : Half), parseBits 16 a = some mask →
    parseCommand "setactive".toList [a] = some ⟨.wrreg 0x018#16, mask.setWidth 32⟩

/-! ## The step -/

/-- 20_memory R70: a step whose next interaction is a transaction of a legal word performs that command with the
transaction's DATA and TNOW presented, the later interactions still to come. -/
def Obligations.StepRunsDecodedCommand : Prop :=
  ∀ (s : State) (cmd data tnow : Word) (later : List Interaction) (i : Instr), s.params.admitted = true →
    s.queue = .transaction cmd data tnow :: later → decode cmd = .ok i →
    step s = exec i { s with queue := later, data := data, tnow := tnow }

/-- The model's choice (log 10): a word placed by `withFetchWord` is the command the very next step performs, with DATA
and TNOW 0. -/
def Obligations.PlacedWordRunsNext : Prop :=
  ∀ (s : State) (i : Instr), s.params.admitted = true →
    step (s.withFetchWord 32 (encode i).toNat) = exec i { s with data := 0#32, tnow := 0#32 }

/-- 70_reset R240, R241: RESET sets every register to its reset value, keeps the parameters and returns no STATUS. -/
def Obligations.ResetSetsEveryRegister : Prop :=
  ∀ (s : State) (later : List Interaction), s.params.admitted = true → s.queue = .reset :: later →
    ∃ t, step s = .next t ∧ t.response = none ∧ t.params = s.params
      ∧ (∀ ch : Channel, t.temp[ch] = 0xC479C000#32 ∧ t.ts[ch] = 0#32 ∧ t.integ[ch] = 0#32 ∧ t.perr[ch] = 0#32
          ∧ t.ptime[ch] = 0#32 ∧ t.pout[ch] = 0#32)
      ∧ (∀ x : Sec, t.target[x] = 0xC479C000#32 ∧ t.aggOut[x] = 0#32 ∧ t.aggPwm[x] = 0#16)
      ∧ t.tsVld = 0x0000#16 ∧ t.tflt = 0xFFFF#16 ∧ t.pinit = 0x0000#16 ∧ t.hystOn = 0#4
      ∧ t.kp = 0#32 ∧ t.ki = 0#32 ∧ t.kd = 0#32 ∧ t.pidThr = 0x3F000000#32 ∧ t.iclamp = 0#32
      ∧ t.hystBand = 0x40000000#32 ∧ t.minSi = 0#32 ∧ t.ctrl = 0#1 ∧ t.active = 0x0000#16
      ∧ t.aggTmin = 0#32 ∧ t.aggTmax = 0#32 ∧ t.aggPmin = 0#16 ∧ t.aggPmax = 0#16 ∧ t.drive = 0x0000#16

/-- 60_exceptions R229 with the model's choice of log 3: with nothing issued a step changes nothing. -/
def Obligations.IdleStepHoldsState : Prop :=
  ∀ s : State, s.params.admitted = true → s.queue = [] → step s = .next s

/-- 00_scope R9-R12 with log 7: the step refuses exactly the parameter sets that are not legal. -/
def Obligations.StepRefusesExactlyIllegalParameters : Prop :=
  ∀ s : State, (∃ r, step s = .refused r) ↔ ¬ LegalParams s.params

/-- 60_exceptions R210, R220, 20_memory R71: with admitted parameters every step answers a next state; an interaction is
taken off the model's queue (log 3), a transaction returns one response and RESET none. -/
def Obligations.EveryStepAnswersNextState : Prop :=
  ∀ s : State, s.params.admitted = true →
    ∃ t, step s = .next t ∧
      (∀ cmd data tnow later, s.queue = .transaction cmd data tnow :: later →
          t.queue = later ∧ ∃ r, t.response = some r)
        ∧ ∀ later, s.queue = .reset :: later → t.queue = later ∧ t.response = none

/-- 60_exceptions R220: "the state after it equals the state before it", and RESULT is 0 (00_scope R21); for every
operation and for every command word, legal or not. -/
def Obligations.FailureWritesNothing : Prop :=
  (∀ (i : Instr) (s t : State) (r : Response), exec i s = .next t → t.response = some r →
    0x10 ≤ r.status.code.toNat → r.result = 0#32 ∧ t = { s with response := some r })
  ∧ ∀ (cmd : Word) (s t : State) (r : Response), runTransaction cmd s = .next t → t.response = some r →
    0x10 ≤ r.status.code.toNat → r.result = 0#32 ∧ t = { s with response := some r }

/-- 60_exceptions R210: the 8-bit codes, completions below 0x10 and failures from it. -/
def Obligations.StatusCodesFollowTable : Prop :=
  Status.ok.code = 0x00#8 ∧ Status.cached.code = 0x01#8 ∧ Status.sensorFault.code = 0x02#8
  ∧ Status.cachedFault.code = 0x03#8 ∧ Status.avgAll.code = 0x04#8 ∧ Status.avgDefault.code = 0x05#8
  ∧ Status.noTarget.code = 0x06#8 ∧ Status.tempFault.code = 0x07#8 ∧ Status.eIllegal.code = 0x10#8
  ∧ Status.eStrat.code = 0x11#8 ∧ Status.eCfg.code = 0x12#8 ∧ Status.eRegAddr.code = 0x13#8
  ∧ Status.eRegRo.code = 0x14#8 ∧ ∀ c : Status, c.code.toNat < 0x20

/-! ## Lookup: CONV and SAMPLE -/

/-- 40_lookup R110: CONV returns the conversion and writes no state. -/
def Obligations.ConvReturnsConversion : Prop :=
  ∀ (raw : Half) (s : State),
    exec (.conv raw) s
      = .next { s with response := some ⟨(convert s.params raw).1, (convert s.params raw).2⟩ }

/-- 40_lookup R112: a raw sample at or beyond the extremes is a sensor fault with value SENT whatever the ROM holds; the
samples 1..RAW_MAX-1 are valid. -/
def Obligations.ExtremeSamplesAreSensorFaults : Prop :=
  ∀ (p : Params) (raw : Half),
    (raw.toNat = 0 ∨ p.rawMax.toNat ≤ raw.toNat → convert p raw = (.sensorFault, 0xC479C000#32))
    ∧ (1 ≤ raw.toNat → raw.toNat + 1 ≤ p.rawMax.toNat → (convert p raw).1 = .ok)

/-- 40_lookup R113-R115: the bracket is the first point from index 1 at or above the sample (the last pair when none
is); at a point of the bracket the value is that point's temperature, elsewhere the interpolation in its stated order. -/
def Obligations.ConversionUsesFirstBracket : Prop :=
  ∀ (p : Params) (raw : Half) (hi : Nat), 1 ≤ raw.toNat → raw.toNat < p.rawMax.toNat → 1 ≤ hi → hi < p.nCal →
    (∀ j, 1 ≤ j → j < hi → (romRaw p j).toNat < raw.toNat) → (raw.toNat ≤ (romRaw p hi).toNat ∨ hi + 1 = p.nCal) →
    convert p raw = (.ok,
      if raw = romRaw p hi then romTemp p hi
      else if raw = romRaw p (hi - 1) then romTemp p (hi - 1)
      else fadd (romTemp p (hi - 1))
        (fdiv (fmul (i2f ((raw.toNat : Int) - (romRaw p (hi - 1)).toNat)) (fsub (romTemp p hi) (romTemp p (hi - 1))))
          (i2f (((romRaw p hi).toNat : Int) - (romRaw p (hi - 1)).toNat))))

/-- 40_lookup R116(a): the conversion is exact at every table point inside the valid range. -/
def Obligations.TablePointsConvertExactly : Prop :=
  ∀ (p : Params) (i : Nat), p.admitted = true → i < p.nCal → 1 ≤ (romRaw p i).toNat →
    (romRaw p i).toNat < p.rawMax.toNat → convert p (romRaw p i) = (.ok, romTemp p i)

/-- 40_lookup R116(b): strictly between two consecutive table points the conversion is ordered as their temperatures
are. -/
def Obligations.ConversionMonotoneBetweenPoints : Prop :=
  ∀ (p : Params) (lo : Nat) (r1 r2 : Half), p.admitted = true → lo + 1 < p.nCal → 1 ≤ r1.toNat →
    (romRaw p lo).toNat < r1.toNat → r1.toNat < r2.toNat → r2.toNat < (romRaw p (lo + 1)).toNat →
    r2.toNat < p.rawMax.toNat →
    (fle (romTemp p lo) (romTemp p (lo + 1)) = true → fle (convert p r1).2 (convert p r2).2 = true)
    ∧ (fge (romTemp p lo) (romTemp p (lo + 1)) = true → fge (convert p r1).2 (convert p r2).2 = true)

/-- 40_lookup R121: SAMPLE is served from the cache exactly when the channel has a successful sample less than MIN_SI
ticks old, whatever the raw operand; it then writes nothing. -/
def Obligations.SampleInsideIntervalIsCached : Prop :=
  ∀ (ch : Channel) (raw : Half) (s : State),
    (s.sampled ch = true → ((s.tnow.toNat : Int) - s.ts[ch].toNat) % 2 ^ 32 < s.minSi.toNat →
      exec (.sample ch raw) s = .next { s with
        response := some ⟨if s.faulted ch = true then .cachedFault else .cached, s.temp[ch]⟩ })
    ∧ (s.sampled ch = false ∨ (s.minSi.toNat : Int) ≤ ((s.tnow.toNat : Int) - s.ts[ch].toNat) % 2 ^ 32 →
      ∃ t, exec (.sample ch raw) s = .next t
        ∧ t.response = some ⟨(convert s.params raw).1, (convert s.params raw).2⟩)

/-- 40_lookup R122: a faulted sample writes SENT into TEMP[ch] and sets TFLT[ch]; TS and TS_VLD keep their values, and so
does everything else. -/
def Obligations.SampleFaultCachesSentinel : Prop :=
  ∀ (ch : Channel) (raw : Half) (s : State),
    s.sampled ch = false ∨ (s.minSi.toNat : Int) ≤ ((s.tnow.toNat : Int) - s.ts[ch].toNat) % 2 ^ 32 →
    raw.toNat = 0 ∨ s.params.rawMax.toNat ≤ raw.toNat →
    ∃ t, exec (.sample ch raw) s = .next t ∧ t.response = some ⟨.sensorFault, 0xC479C000#32⟩
      ∧ t.temp[ch] = 0xC479C000#32 ∧ (∀ c : Channel, t.faulted c = (decide (c = ch) || s.faulted c))
      ∧ ChangesOnly [BitVec.ofNat 16 (0x040 + ch.val), 0x061#16] s t

/-- 40_lookup R123: a converted sample is cached with its time, and the channel becomes valid. -/
def Obligations.SampleSuccessUpdatesCache : Prop :=
  ∀ (ch : Channel) (raw : Half) (s : State),
    s.sampled ch = false ∨ (s.minSi.toNat : Int) ≤ ((s.tnow.toNat : Int) - s.ts[ch].toNat) % 2 ^ 32 →
    1 ≤ raw.toNat → raw.toNat < s.params.rawMax.toNat →
    ∃ t, exec (.sample ch raw) s = .next t ∧ t.response = some ⟨.ok, (convert s.params raw).2⟩
      ∧ t.temp[ch] = (convert s.params raw).2 ∧ t.ts[ch] = s.tnow
      ∧ (∀ c : Channel, t.faulted c = (!decide (c = ch) && s.faulted c))
      ∧ (∀ c : Channel, t.sampled c = (decide (c = ch) || s.sampled c))
      ∧ ChangesOnly [BitVec.ofNat 16 (0x040 + ch.val), BitVec.ofNat 16 (0x050 + ch.val), 0x060#16, 0x061#16] s t

/-- 40_lookup R121, R123: after a successful sample, a second one inside the interval returns the same value whatever
its raw operand. -/
def Obligations.SecondSampleInsideIntervalAgrees : Prop :=
  ∀ (ch : Channel) (raw raw' : Half) (s t : State) (v now : Word), exec (.sample ch raw) s = .next t →
    t.response = some ⟨.ok, v⟩ → ((now.toNat : Int) - s.tnow.toNat) % 2 ^ 32 < s.minSi.toNat →
    exec (.sample ch raw') { t with tnow := now } = .next { t with tnow := now, response := some ⟨.cached, v⟩ }

/-! ## Section average, hysteresis, aggregate output -/

/-- 41_hysteresis R140: AVG returns the section average and writes no state. -/
def Obligations.AvgReturnsSectionAverage : Prop :=
  ∀ (x : Sec) (s : State),
    exec (.avg x) s = .next { s with response := some ⟨(sectionAverage s x).1, (sectionAverage s x).2⟩ }

/-- 41_hysteresis R141, R142: OK when a channel of the section is active and valid, AVG_ALL when none is but one is valid,
(AVG_DEFAULT, 25.0) when none is valid. The value is the TEMP of the channels taken, added in ascending channel order, one
rounding per addition, over their count. -/
def Obligations.AverageStatusNamesChannelsTaken : Prop :=
  ∀ (s : State) (x : Sec),
    ((∃ ch, secOf ch = x ∧ s.isActive ch = true ∧ s.faulted ch = false) → (sectionAverage s x).1 = .ok)
    ∧ ((∀ ch, secOf ch = x → s.faulted ch = false → s.isActive ch = false) →
        (∃ ch, secOf ch = x ∧ s.faulted ch = false) → (sectionAverage s x).1 = .avgAll)
    ∧ ((∀ ch, secOf ch = x → s.faulted ch = true) → sectionAverage s x = (.avgDefault, 0x41C80000#32))
    ∧ (∀ (first : Channel) (rest : List Channel),
        (List.finRange 16).filter (fun ch => decide (secOf ch = x) && s.isActive ch && !s.faulted ch) = first :: rest →
        sectionAverage s x = (.ok, fdiv (rest.foldl (fun sum ch => fadd sum s.temp[ch]) s.temp[first])
          (i2f ((rest.length : Int) + 1))))
    ∧ ∀ (first : Channel) (rest : List Channel),
        (∀ ch, secOf ch = x → s.faulted ch = false → s.isActive ch = false) →
        (List.finRange 16).filter (fun ch => decide (secOf ch = x) && !s.faulted ch) = first :: rest →
        sectionAverage s x = (.avgAll, fdiv (rest.foldl (fun sum ch => fadd sum s.temp[ch]) s.temp[first])
          (i2f ((rest.length : Int) + 1)))

/-- 41_hysteresis R141, R143: the average reads ACTIVE, TFLT and the TEMP of valid channels of its own section only; a
faulted channel's TEMP never enters. -/
def Obligations.AverageReadsOnlyValidOwnChannels : Prop :=
  ∀ (s s' : State) (x : Sec),
    (∀ ch, secOf ch = x → s'.isActive ch = s.isActive ch ∧ s'.faulted ch = s.faulted ch) →
    (∀ ch : Channel, secOf ch = x → s.faulted ch = false → s'.temp[ch] = s.temp[ch]) →
    sectionAverage s' x = sectionAverage s x

/-- 41_hysteresis R143: one active valid channel gives its TEMP exactly. TEMP holds no NaN but the canonical one, an
invariant of the model (`StepKeepsGoodStates`). -/
def Obligations.SingleActiveChannelAveragesExactly : Prop :=
  ∀ (s : State) (ch : Channel), s.TempCanonical → s.isActive ch = true → s.faulted ch = false →
    (∀ c, secOf c = secOf ch → c ≠ ch → s.isActive c = false ∨ s.faulted c = true) →
    sectionAverage s (secOf ch) = (.ok, s.temp[ch])

/-- 00_scope R13, 60_exceptions R211: the operation of the strategy not selected fails with E_STRAT. -/
def Obligations.OtherStrategyFails : Prop :=
  (∀ (x : Sec) (s : State), s.params.strategy = .pid →
    exec (.hyst x) s = .next { s with response := some ⟨.eStrat, 0#32⟩ })
  ∧ ∀ (ch : Channel) (s : State), s.params.strategy = .hyst →
    exec (.pid ch) s = .next { s with response := some ⟨.eStrat, 0#32⟩ }

/-- 41_hysteresis R148: with TARGET[s] = SENT, HYST forces the section off and reports NO_TARGET with the average. -/
def Obligations.HystWithoutSetpointForcesOff : Prop :=
  ∀ (x : Sec) (s : State), s.params.strategy = .hyst → s.target[x] = 0xC479C000#32 →
    ∃ t, exec (.hyst x) s = .next t ∧ t.response = some ⟨.noTarget, (sectionAverage s x).2⟩
      ∧ (∀ y : Sec, t.heating y = (!decide (y = x) && s.heating y))
      ∧ (∀ ch : Channel, t.driven ch = (!decide (secOf ch = x) && s.driven ch))
      ∧ ChangesOnly [0x0D0#16, 0x0D1#16] s t

/-- 41_hysteresis R149, R150: on below `target - band`, off above `target + band`, held otherwise, for every active
channel of the section; nothing else changes. -/
def Obligations.HystDecidesAndDrivesSection : Prop :=
  ∀ (x : Sec) (s : State), s.params.strategy = .hyst → s.target[x] ≠ 0xC479C000#32 →
    ∃ t, exec (.hyst x) s = .next t ∧ t.response = some ⟨(sectionAverage s x).1, (sectionAverage s x).2⟩
      ∧ t.heating x = (if flt (sectionAverage s x).2 (fsub s.target[x] s.hystBand) = true then true
          else if fgt (sectionAverage s x).2 (fadd s.target[x] s.hystBand) = true then false
          else s.heating x)
      ∧ (∀ y : Sec, y ≠ x → t.heating y = s.heating y)
      ∧ (∀ ch : Channel, secOf ch = x → t.driven ch = (t.heating x && s.isActive ch))
      ∧ (∀ ch : Channel, secOf ch ≠ x → t.driven ch = s.driven ch)
      ∧ ChangesOnly [0x0D0#16, 0x0D1#16] s t

/-- 41_hysteresis R151: a NaN average, target or band holds the previous decision. -/
def Obligations.NaNHoldsHysteresis : Prop :=
  ∀ (target band avg : Word) (held : Bool), isNaN avg = true ∨ isNaN target = true ∨ isNaN band = true →
    hystDecision target band avg held = held

/-- 70_reset R255: a section with no valid reading is compared as 25.0, so it turns on when 25.0 lies below
`target - band`, and STATUS says AVG_DEFAULT. -/
def Obligations.UnreadSectionIsComparedAsDefault : Prop :=
  ∀ (x : Sec) (s : State), s.params.strategy = .hyst → s.target[x] ≠ 0xC479C000#32 →
    (∀ ch, secOf ch = x → s.faulted ch = true) → flt 0x41C80000#32 (fsub s.target[x] s.hystBand) = true →
    ∃ t, exec (.hyst x) s = .next t ∧ t.response = some ⟨.avgDefault, 0x41C80000#32⟩ ∧ t.heating x = true
      ∧ ∀ ch : Channel, secOf ch = x → t.driven ch = s.isActive ch

/-- 41_hysteresis R156: without `tmax > tmin` and `pmax > pmin`, AGG fails with E_CFG and writes nothing; a NaN bound
fails, and so do the reset values. -/
def Obligations.AggFailsOnInvalidRange : Prop :=
  (∀ (x : Sec) (s : State), ¬ (fgt s.aggTmax s.aggTmin = true ∧ s.aggPmin.toNat < s.aggPmax.toNat) →
    exec (.agg x) s = .next { s with response := some ⟨.eCfg, 0#32⟩ })
  ∧ (∀ a b : Word, isNaN a = true ∨ isNaN b = true → fgt a b = false)
  ∧ ∀ (x : Sec) (p : Params) (q : List Interaction),
    exec (.agg x) (State.resetWith p q) = .next { State.resetWith p q with response := some ⟨.eCfg, 0#32⟩ }

/-- 41_hysteresis R155: with a valid range AGG writes the clamped inverted remap of the average and its integer part,
returns it, and changes nothing else. -/
def Obligations.AggWritesClampedRemap : Prop :=
  ∀ (x : Sec) (s : State) (v : Word), fgt s.aggTmax s.aggTmin = true → s.aggPmin.toNat < s.aggPmax.toNat →
    v = aggClamp
      (fadd (fdiv (fmul (fsub (sectionAverage s x).2 s.aggTmin)
          (fsub (i2f (s.aggPmin.toNat : Int)) (i2f (s.aggPmax.toNat : Int)))) (fsub s.aggTmax s.aggTmin))
        (i2f (s.aggPmax.toNat : Int)))
      (i2f (s.aggPmin.toNat : Int)) (i2f (s.aggPmax.toNat : Int)) →
    ∃ t, exec (.agg x) s = .next t ∧ t.response = some ⟨(sectionAverage s x).1, v⟩ ∧ t.aggOut[x] = v
      ∧ t.aggPwm[x].toNat = ftrunc v
      ∧ ChangesOnly [BitVec.ofNat 16 (0x0E0 + x.val), BitVec.ofNat 16 (0x0E4 + x.val)] s t

/-- 41_hysteresis R157: the clamp gives the low bound for a NaN or a value below it, the high bound for a value above it,
the value itself otherwise; whatever the remap gives, the clamped output lies in the output range and its integer part
between the two bounds; the integer part of a finite value that is not negative is rounded toward zero. -/
def Obligations.AggClampStaysInRange : Prop :=
  (∀ u lo hi : Word, (isNaN u = true → aggClamp u lo hi = lo) ∧ (flt u lo = true → aggClamp u lo hi = lo)
    ∧ (isNaN u = false → flt u lo = false → fgt u hi = true → aggClamp u lo hi = hi)
    ∧ (isNaN u = false → flt u lo = false → fgt u hi = false → aggClamp u lo hi = u))
  ∧ (∀ (u : Word) (pmin pmax : Half) (v : Word), pmin.toNat < pmax.toNat →
    v = aggClamp u (i2f (pmin.toNat : Int)) (i2f (pmax.toNat : Int)) →
    fle (i2f (pmin.toNat : Int)) v = true ∧ fle v (i2f (pmax.toNat : Int)) = true
      ∧ pmin.toNat ≤ ftrunc v ∧ ftrunc v ≤ pmax.toNat)
  ∧ ∀ (v : Word) (x : ℚ), binary32Value v = some x → 0 ≤ x → (ftrunc v : ℚ) ≤ x ∧ x < (ftrunc v : ℚ) + 1

/-- 41_hysteresis R158: an average of exactly tmin gives exactly pmax. -/
def Obligations.MinimumTemperatureMapsToPmax : Prop :=
  ∀ (s : State) (neg : Bool) (mag : Nat), fgt s.aggTmax s.aggTmin = true → s.aggPmin.toNat < s.aggPmax.toNat →
    decodeF32 s.aggTmin = .fin neg mag → aggValue s s.aggTmin = i2f (s.aggPmax.toNat : Int)

/-! ## PID -/

/-- 42_pid R175: without a setpoint (tested first) or a valid temperature, PID writes POUT[ch] = +0.0 and DRIVE[ch] = 0,
leaves the accumulator, and says which input was missing. -/
def Obligations.PidWithoutInputForcesOff : Prop :=
  ∀ (ch : Channel) (s : State), s.params.strategy = .pid →
    s.target[secOf ch] = 0xC479C000#32 ∨ s.faulted ch = true →
    ∃ t, exec (.pid ch) s = .next t
      ∧ t.response = some ⟨if s.target[secOf ch] = 0xC479C000#32 then .noTarget else .tempFault, 0#32⟩
      ∧ t.pout[ch] = 0#32 ∧ (∀ c : Channel, t.driven c = (!decide (c = ch) && s.driven c))
      ∧ ChangesOnly [BitVec.ofNat 16 (0x0C0 + ch.val), 0x0D1#16] s t

/-- 42_pid R170-R174: the completed update. `e` is the error, `el` the elapsed ticks, `dt` the seconds, `i` the new
integral, `d` the derivative term, `o` the clamped output. -/
def Obligations.PidUpdatesAccumulatorAndDrive : Prop :=
  ∀ (ch : Channel) (s : State) (e dt i0 i d o : Word) (el : Nat), s.params.strategy = .pid →
    s.target[secOf ch] ≠ 0xC479C000#32 → s.faulted ch = false →
    e = fsub s.target[secOf ch] s.temp[ch] →
    (el : Int) = (if s.pidStarted ch = true then ((s.tnow.toNat : Int) - s.ptime[ch].toNat) % 2 ^ 32 else 0) →
    dt = fdiv (i2f (el : Int)) (i2f (s.params.tickHz.toNat : Int)) →
    i0 = fadd s.integ[ch] (fmul e dt) →
    i = (if s.ctrl = 1#1 then (if fgt i0 s.iclamp = true then s.iclamp
          else if flt i0 (fneg s.iclamp) = true then fneg s.iclamp else i0) else i0) →
    d = (if el = 0 then 0#32 else fdiv (fmul s.kd (fsub e s.perr[ch])) dt) →
    o = pidClamp (fadd (fadd (fmul s.kp e) (fmul s.ki i)) d) →
    ∃ t, exec (.pid ch) s = .next t ∧ t.response = some ⟨.ok, o⟩ ∧ t.integ[ch] = i ∧ t.perr[ch] = e
      ∧ t.ptime[ch] = s.tnow ∧ t.pout[ch] = o
      ∧ (∀ c : Channel, t.pidStarted c = (decide (c = ch) || s.pidStarted c))
      ∧ t.driven ch = (fgt o s.pidThr && s.isActive ch)
      ∧ (∀ c : Channel, c ≠ ch → t.driven c = s.driven c)
      ∧ ChangesOnly [BitVec.ofNat 16 (0x080 + ch.val), BitVec.ofNat 16 (0x090 + ch.val),
          BitVec.ofNat 16 (0x0A0 + ch.val), 0x0B0#16, BitVec.ofNat 16 (0x0C0 + ch.val), 0x0D1#16] s t

/-- 42_pid R172: the clamped output is always in [+0.0, 1.0], never -0.0 or NaN; a NaN and every value not above +0.0 give
+0.0, a value above 1.0 gives 1.0, any other stays. -/
def Obligations.PidClampStaysInUnitInterval : Prop :=
  ∀ u : Word, fle 0x00000000#32 (pidClamp u) = true ∧ fle (pidClamp u) 0x3F800000#32 = true
    ∧ isNaN (pidClamp u) = false ∧ pidClamp u ≠ 0x80000000#32
    ∧ (isNaN u = true → pidClamp u = 0x00000000#32)
    ∧ (fgt u 0x00000000#32 = false → pidClamp u = 0x00000000#32)
    ∧ (fgt u 0x3F800000#32 = true → pidClamp u = 0x3F800000#32)
    ∧ (fgt u 0x00000000#32 = true → fle u 0x3F800000#32 = true → pidClamp u = u)

/-- 42_pid R173: the first update of a channel (its integral still +0.0, a finite error, the integral clamp off) leaves
the integral at +0.0 and has no derivative term. -/
def Obligations.FirstPidUpdateKeepsIntegral : Prop :=
  ∀ (ch : Channel) (s : State) (e : Word) (neg : Bool) (mag : Nat), s.params.strategy = .pid →
    s.params.admitted = true → s.target[secOf ch] ≠ 0xC479C000#32 → s.faulted ch = false →
    s.pidStarted ch = false → s.integ[ch] = 0#32 → s.ctrl = 0#1 →
    e = fsub s.target[secOf ch] s.temp[ch] → decodeF32 e = .fin neg mag →
    ∃ t, exec (.pid ch) s = .next t ∧ t.integ[ch] = 0#32 ∧ t.perr[ch] = e ∧ t.ptime[ch] = s.tnow
      ∧ t.pidStarted ch = true
      ∧ t.pout[ch] = pidClamp (fadd (fadd (fmul s.kp e) (fmul s.ki 0#32)) 0#32)

/-- 42_pid R170, R174 (90_conflicts C1, C8): what PID returns and writes depends on its own channel, its section's target,
the gains and the time, and its drive request on PID_THR and its own ACTIVE bit as well, not on any other channel. -/
def Obligations.PidReadsOnlyItsOwnChannel : Prop :=
  ∀ (ch : Channel) (s s' t t' : State), s'.params = s.params → s'.tnow = s.tnow → s'.kp = s.kp → s'.ki = s.ki →
    s'.kd = s.kd → s'.ctrl = s.ctrl → s'.iclamp = s.iclamp →
    s'.target[secOf ch] = s.target[secOf ch] → s'.temp[ch] = s.temp[ch] → s'.faulted ch = s.faulted ch →
    s'.integ[ch] = s.integ[ch] → s'.perr[ch] = s.perr[ch] → s'.ptime[ch] = s.ptime[ch] →
    s'.pidStarted ch = s.pidStarted ch →
    exec (.pid ch) s = .next t → exec (.pid ch) s' = .next t' →
    t'.response = t.response ∧ (s.params.strategy = .pid → t'.pout[ch] = t.pout[ch])
      ∧ t'.integ[ch] = t.integ[ch] ∧ t'.perr[ch] = t.perr[ch] ∧ t'.ptime[ch] = t.ptime[ch]
      ∧ t'.pidStarted ch = t.pidStarted ch
      ∧ (s'.pidThr = s.pidThr → s'.isActive ch = s.isActive ch → s.params.strategy = .pid →
          t'.driven ch = t.driven ch)

/-! ## Register access and NOP -/

/-- 43_register_access R190: NOP returns (OK, 0) and writes nothing. -/
def Obligations.NopReturnsOk : Prop :=
  ∀ s : State, exec .nop s = .next { s with response := some ⟨.ok, 0#32⟩ }

/-- 43_register_access R192: RDREG returns the register at a mapped address, fails at an unmapped one, and has no side
effect. -/
def Obligations.RdregReturnsRegister : Prop :=
  ∀ (addr : Half) (s : State),
    (∀ v, peek s addr = some v → exec (.rdreg addr) s = .next { s with response := some ⟨.ok, v⟩ })
    ∧ (peek s addr = none → exec (.rdreg addr) s = .next { s with response := some ⟨.eRegAddr, 0#32⟩ })

/-- 10_state R59, R60: the register map, row by row, and nothing mapped outside it. -/
def Obligations.RegisterMapFollowsTable : Prop :=
  ∀ s : State, s.params.nCal ≤ 256 →
    peek s 0x000#16 = some (BitVec.ofNat 32 (s.params.nCal + (if s.params.strategy = .pid then 2 ^ 9 else 0)
        + 2 ^ 16 * s.params.rawMax.toNat))
    ∧ peek s 0x001#16 = some s.params.tickHz
    ∧ peek s 0x010#16 = some s.kp ∧ peek s 0x011#16 = some s.ki ∧ peek s 0x012#16 = some s.kd
    ∧ peek s 0x013#16 = some s.pidThr ∧ peek s 0x014#16 = some s.iclamp ∧ peek s 0x015#16 = some s.hystBand
    ∧ peek s 0x016#16 = some s.minSi ∧ peek s 0x017#16 = some (s.ctrl.setWidth 32)
    ∧ peek s 0x018#16 = some (s.active.setWidth 32)
    ∧ (∀ x : Sec, peek s (BitVec.ofNat 16 (0x020 + x.val)) = some s.target[x])
    ∧ peek s 0x028#16 = some s.aggTmin ∧ peek s 0x029#16 = some s.aggTmax
    ∧ peek s 0x02A#16 = some (s.aggPmin.setWidth 32) ∧ peek s 0x02B#16 = some (s.aggPmax.setWidth 32)
    ∧ (∀ ch : Channel, peek s (BitVec.ofNat 16 (0x040 + ch.val)) = some s.temp[ch])
    ∧ (∀ ch : Channel, peek s (BitVec.ofNat 16 (0x050 + ch.val)) = some s.ts[ch])
    ∧ peek s 0x060#16 = some (s.tsVld.setWidth 32) ∧ peek s 0x061#16 = some (s.tflt.setWidth 32)
    ∧ (∀ ch : Channel, peek s (BitVec.ofNat 16 (0x080 + ch.val)) = some s.integ[ch])
    ∧ (∀ ch : Channel, peek s (BitVec.ofNat 16 (0x090 + ch.val)) = some s.perr[ch])
    ∧ (∀ ch : Channel, peek s (BitVec.ofNat 16 (0x0A0 + ch.val)) = some s.ptime[ch])
    ∧ peek s 0x0B0#16 = some (s.pinit.setWidth 32)
    ∧ (∀ ch : Channel, peek s (BitVec.ofNat 16 (0x0C0 + ch.val)) = some s.pout[ch])
    ∧ peek s 0x0D0#16 = some (s.hystOn.setWidth 32) ∧ peek s 0x0D1#16 = some (s.drive.setWidth 32)
    ∧ (∀ x : Sec, peek s (BitVec.ofNat 16 (0x0E0 + x.val)) = some s.aggOut[x])
    ∧ (∀ x : Sec, peek s (BitVec.ofNat 16 (0x0E4 + x.val)) = some (s.aggPwm[x].setWidth 32))
    ∧ (∀ i, i < s.params.nCal →
        peek s (BitVec.ofNat 16 (0x100 + i)) = some ((romRaw s.params i).setWidth 32)
        ∧ peek s (BitVec.ofNat 16 (0x200 + i)) = some (romTemp s.params i))
    ∧ ∀ a : Half, peek s a = none ↔ ¬ mappedAddr s.params.nCal a

/-- 43_register_access R193, R194, 10_state R60: WRREG of a writable address stores DATA with the reserved bits dropped
and changes no other register. -/
def Obligations.WrregWritesOnlyItsRegister : Prop :=
  ∀ (addr : Half) (s : State), writableAddr addr →
    ∃ t, exec (.wrreg addr) s = .next t ∧ t.response = some ⟨.ok, 0#32⟩
      ∧ peek t addr = some (s.data &&& definedBits addr) ∧ ChangesOnly [addr] s t

/-- 43_register_access R193, 60_exceptions R213: WRREG of an unmapped address fails with E_REG_ADDR, of a mapped one that
is not writable with E_REG_RO; neither writes anything. -/
def Obligations.WrregElsewhereFails : Prop :=
  ∀ (addr : Half) (s : State), s.params.nCal ≤ 256 →
    (¬ mappedAddr s.params.nCal addr →
      exec (.wrreg addr) s = .next { s with response := some ⟨.eRegAddr, 0#32⟩ })
    ∧ (mappedAddr s.params.nCal addr → ¬ writableAddr addr →
      exec (.wrreg addr) s = .next { s with response := some ⟨.eRegRo, 0#32⟩ })

/-- 20_memory R79: a WRREG is idempotent. -/
def Obligations.WrregIsIdempotent : Prop :=
  ∀ (addr : Half) (s t : State), exec (.wrreg addr) s = .next t → exec (.wrreg addr) t = .next t

/-! ## Whole-machine rules -/

/-- 10_state R37: "if `TFLT[ch] = 1` then `TEMP[ch] = SENT`", kept by every step; the converse does not hold, since a
sample can convert to -999.0. -/
def Obligations.StepKeepsFaultedChannelsAtSentinel : Prop :=
  (∀ s t : State, (∀ ch : Channel, s.faulted ch = true → s.temp[ch] = 0xC479C000#32) → step s = .next t →
    ∀ ch : Channel, t.faulted ch = true → t.temp[ch] = 0xC479C000#32)
  ∧ ∃ (p : Params) (raw : Half) (t : State), p.admitted = true
    ∧ exec (.sample 0 raw) (State.resetWith p []) = .next t
    ∧ t.temp[(0 : Channel)] = 0xC479C000#32 ∧ t.faulted 0 = false

/-- Every step keeps every invariant of `State.Good` (10_state R34-R41, R45, 42_pid R172, 41_hysteresis R157, 00_scope
R13). -/
def Obligations.StepKeepsGoodStates : Prop := ∀ s t : State, s.Good → step s = .next t → t.Good

/-- 70_reset R240, R242: the state right after RESET is good, for every admitted parameter set; the model's own reset
state is one of them (log 2). -/
def Obligations.ResetStateIsGood : Prop :=
  (∀ (p : Params) (q : List Interaction), p.admitted = true → (State.resetWith p q).Good) ∧ State.reset.Good

/-- 20_memory R76: no step, RESET included, changes the ROM or any other parameter. -/
def Obligations.StepKeepsParameters : Prop := ∀ s t : State, step s = .next t → t.params = s.params

/-- 10_state R62: only SAMPLE writes TFLT and TS_VLD, only PID writes PINIT, only HYST writes HYST_ON. -/
def Obligations.FlagsAreWrittenByTheirOwnersOnly : Prop :=
  ∀ (i : Instr) (s t : State), exec i s = .next t →
    ((∀ ch raw, i ≠ .sample ch raw) → t.tflt = s.tflt ∧ t.tsVld = s.tsVld)
    ∧ ((∀ ch, i ≠ .pid ch) → t.pinit = s.pinit)
    ∧ ((∀ x, i ≠ .hyst x) → t.hystOn = s.hystOn)

/-- 10_state R55: DRIVE is written by HYST for the channels of its section and by PID for its channel, by nothing else. -/
def Obligations.DriveIsWrittenByControlOnly : Prop :=
  ∀ (i : Instr) (s t : State) (c : Channel), exec i s = .next t → t.driven c ≠ s.driven c →
    (i = .hyst (secOf c) ∧ s.params.strategy = .hyst) ∨ (i = .pid c ∧ s.params.strategy = .pid)

/-- 10_state R56: an inactive channel's drive request is 0 after any control operation that writes it. -/
def Obligations.InactiveChannelIsOffAfterItsControl : Prop :=
  (∀ (x : Sec) (s t : State) (c : Channel), s.params.strategy = .hyst → exec (.hyst x) s = .next t →
    secOf c = x → s.isActive c = false → t.driven c = false)
  ∧ ∀ (c : Channel) (s t : State), s.params.strategy = .pid → exec (.pid c) s = .next t →
    s.isActive c = false → t.driven c = false

/-- 20_memory R74: every operation but WRREG ignores DATA, whatever its value. -/
def Obligations.DataIsReadByWrregOnly : Prop :=
  ∀ (i : Instr) (s t : State) (d : Word), (∀ addr, i ≠ .wrreg addr) → exec i s = .next t →
    exec i { s with data := d } = .next { t with data := d }

/-- 20_memory R73: every operation but SAMPLE and PID ignores TNOW. -/
def Obligations.TimestampIsReadBySampleAndPidOnly : Prop :=
  ∀ (i : Instr) (s t : State) (n : Word), (∀ ch raw, i ≠ .sample ch raw) → (∀ ch, i ≠ .pid ch) →
    exec i s = .next t → exec i { s with tnow := n } = .next { t with tnow := n }

/-- 70_reset R242: after RESET every channel is faulted and unsampled, no section has a setpoint and every drive request
is 0; a control operation of the deployed strategy reports NO_TARGET and drives nothing. -/
def Obligations.ControlAfterResetDrivesNothing : Prop :=
  ∀ (p : Params) (q : List Interaction),
    (∀ ch : Channel, (State.resetWith p q).faulted ch = true ∧ (State.resetWith p q).sampled ch = false
      ∧ (State.resetWith p q).driven ch = false)
    ∧ (∀ x : Sec, (State.resetWith p q).target[x] = 0xC479C000#32)
    ∧ (p.strategy = .hyst → ∀ x : Sec, ∃ t, exec (.hyst x) (State.resetWith p q) = .next t
      ∧ t.response = some ⟨.noTarget, 0x41C80000#32⟩ ∧ t.drive = 0x0000#16 ∧ t.hystOn = 0#4)
    ∧ (p.strategy = .pid → ∀ ch : Channel, ∃ t, exec (.pid ch) (State.resetWith p q) = .next t
      ∧ t.response = some ⟨.noTarget, 0#32⟩ ∧ t.drive = 0x0000#16 ∧ t.pinit = 0x0000#16)

/-! ## Arithmetic -/

/-- 00_scope R18 (with log 8 for the IEEE 754 definition): a fraction of units 2^-149 that does not overflow is rounded
to a binary32 magnitude nearest to it, and to the even pattern when another is as near. -/
def Obligations.RoundingPicksNearestTiesToEven : Prop :=
  ∀ (num den low m c : Nat), 0 < den → low = roundMag num den → low < 0x7F800000 →
    decodeF32 (packF32 false low) = .fin false m → ∀ cand, cand < 0x7F800000 →
    decodeF32 (packF32 false cand) = .fin false c →
    |(m * den : Int) - num| ≤ |(c * den : Int) - num|
    ∧ (|(m * den : Int) - num| = |(c * den : Int) - num| → cand ≠ low → low % 2 = 0)

/-- 00_scope R18: `i2f(n)` is `n` rounded to nearest even, and exact when `|n| < 2^24`. -/
def Obligations.SmallIntegersConvertExactly : Prop :=
  (∀ n : Int, IsRounded (n : ℚ) (i2f n))
  ∧ ∀ n : Int, n.natAbs < 2 ^ 24 → decodeF32 (i2f n) = .fin (decide (n < 0)) (2 ^ 149 * n.natAbs)

/-- 00_scope R18, R19 (the IEEE 754 definitions are log 8's). Finite operands: each operation is the exact sum, difference,
product or quotient rounded once, with the sign of a zero result; comparisons order the values. Infinities and NaN: the
IEEE 754 results, a NaN result always 0x7FC00000. -/
def Obligations.ArithmeticRoundsExactResultOnce : Prop :=
  (∀ (a b : Word) (x y : ℚ), binary32Value a = some x → binary32Value b = some y →
    IsRounded (x + y) (fadd a b) ∧ IsRounded (x - y) (fsub a b) ∧ IsRounded (x * y) (fmul a b)
      ∧ (y ≠ 0 → IsRounded (x / y) (fdiv a b))
      ∧ (x + y = 0 → fadd a b = if signBit a && signBit b then 0x80000000#32 else 0x00000000#32)
      ∧ signBit (fmul a b) = (signBit a ^^ signBit b) ∧ (y ≠ 0 → signBit (fdiv a b) = (signBit a ^^ signBit b))
      ∧ (y = 0 → fdiv a b = if x = 0 then 0x7FC00000#32 else infPattern (signBit a ^^ signBit b))
      ∧ (flt a b = true ↔ x < y) ∧ (fgt a b = true ↔ x > y) ∧ (fle a b = true ↔ x ≤ y) ∧ (fge a b = true ↔ x ≥ y))
  ∧ (∀ (p q : Bool) (a : Word) (x : ℚ), binary32Value a = some x →
    fadd (infPattern p) a = infPattern p ∧ fadd a (infPattern p) = infPattern p
      ∧ fadd (infPattern p) (infPattern q) = (if p = q then infPattern p else 0x7FC00000#32)
      ∧ fmul (infPattern p) a = (if x = 0 then 0x7FC00000#32 else infPattern (p ^^ signBit a))
      ∧ fmul a (infPattern p) = (if x = 0 then 0x7FC00000#32 else infPattern (signBit a ^^ p))
      ∧ fmul (infPattern p) (infPattern q) = infPattern (p ^^ q)
      ∧ fdiv (infPattern p) a = infPattern (p ^^ signBit a)
      ∧ fdiv a (infPattern p) = (if signBit a ^^ p then 0x80000000#32 else 0x00000000#32)
      ∧ fdiv (infPattern p) (infPattern q) = 0x7FC00000#32)
  ∧ (∀ a b : Word, isNaN a = true ∨ isNaN b = true →
    fadd a b = 0x7FC00000#32 ∧ fsub a b = 0x7FC00000#32 ∧ fmul a b = 0x7FC00000#32 ∧ fdiv a b = 0x7FC00000#32
      ∧ flt a b = false ∧ fgt a b = false ∧ fle a b = false ∧ fge a b = false)
  ∧ ∀ a b : Word, fsub a b = fadd a (fneg b)
    ∧ (isNaN (fadd a b) = true → fadd a b = 0x7FC00000#32) ∧ (isNaN (fsub a b) = true → fsub a b = 0x7FC00000#32)
    ∧ (isNaN (fmul a b) = true → fmul a b = 0x7FC00000#32) ∧ (isNaN (fdiv a b) = true → fdiv a b = 0x7FC00000#32)
end

