-- ==== Sys2Proof/Laws/Binary32.lean ====
section
/-! SUPPORT. Laws of the binary32 primitives: what a pattern denotes, and that `roundMag` is monotone, exact on
representable magnitudes and bounded. The statements about the machine's arithmetic cite these. -/

namespace Sys2Proof.Laws

open Sys2Proof.Machine

/-! ## Rounding a fraction to an integer -/

theorem roundHalfEven_lower (num den : Nat) : num / den ≤ roundHalfEven num den := by
  unfold roundHalfEven
  simp only
  split <;> omega

theorem roundHalfEven_upper (num den : Nat) : roundHalfEven num den ≤ num / den + 1 := by
  unfold roundHalfEven
  simp only
  split <;> omega

theorem roundHalfEven_exact (q den : Nat) (h : 0 < den) : roundHalfEven (q * den) den = q := by
  unfold roundHalfEven
  simp only [Nat.mul_mod_left, Nat.mul_div_cancel q h]
  split <;> omega

/-- Rounding to an integer keeps the order of two fractions over one denominator. -/
theorem roundHalfEven_mono {a b den : Nat} (hab : a ≤ b) : roundHalfEven a den ≤ roundHalfEven b den := by
  rcases Nat.lt_or_ge (a / den) (b / den) with hlt | hge
  · exact le_trans (roundHalfEven_upper a den) (le_trans hlt (roundHalfEven_lower b den))
  · have hq : a / den = b / den := le_antisymm (Nat.div_le_div_right hab) hge
    have ha := Nat.div_add_mod a den
    have hb := Nat.div_add_mod b den
    have hr : a % den ≤ b % den := by
      rw [hq] at ha
      omega
    unfold roundHalfEven
    simp only [hq]
    split <;> split <;> omega

/-! ## The significand and its excess bits -/

theorem excessBits_small {n : Nat} (h : n < 2 ^ 24) : excessBits n = 0 := if_pos h

/-- When there are excess bits the significand of the integer part has exactly 24 bits. -/
theorem excessBits_large {n : Nat} (h : 2 ^ 24 ≤ n) :
    1 ≤ excessBits n ∧ 2 ^ 23 * 2 ^ excessBits n ≤ n ∧ n < 2 ^ 24 * 2 ^ excessBits n := by
  have hn : n ≠ 0 := by omega
  have h24 : 24 ≤ Nat.log2 n := (Nat.le_log2 hn).2 h
  have hk : excessBits n = Nat.log2 n - 23 := if_neg (Nat.not_lt.2 h)
  refine ⟨by omega, ?_, ?_⟩
  · rw [hk, ← pow_add, show 23 + (Nat.log2 n - 23) = Nat.log2 n by omega]
    exact Nat.log2_self_le hn
  · rw [hk, ← pow_add, show 24 + (Nat.log2 n - 23) = Nat.log2 n + 1 by omega]
    exact Nat.lt_log2_self

theorem excessBits_mono {m n : Nat} (h : m ≤ n) : excessBits m ≤ excessBits n := by
  rcases Nat.lt_or_ge m (2 ^ 24) with hm | hm
  · simp [excessBits_small hm]
  · have h1 := (excessBits_large hm).2.1
    have h2 := (excessBits_large (le_trans hm h)).2.2
    have h3 : 2 ^ 23 * 2 ^ excessBits m < 2 ^ 24 * 2 ^ excessBits n := lt_of_le_of_lt (le_trans h1 h) h2
    by_contra hlt
    have h4 : 2 ^ (excessBits n + 1) ≤ 2 ^ excessBits m := Nat.pow_le_pow_right (by norm_num) (by omega)
    rw [pow_succ] at h4
    omega

/-- The rounded significand is at most 2^24. -/
theorem significand_le (num den : Nat) :
    roundHalfEven num (den * 2 ^ excessBits (num / den)) ≤ 2 ^ 24 := by
  refine le_trans (roundHalfEven_upper _ _) ?_
  rw [← Nat.div_div_eq_div_mul]
  rcases Nat.lt_or_ge (num / den) (2 ^ 24) with h | h
  · rw [excessBits_small h, pow_zero, Nat.div_one]
    omega
  · have := (excessBits_large h).2.2
    have := Nat.div_lt_of_lt_mul (by rw [mul_comm] at this; exact this)
    omega

/-- With excess bits the rounded significand is at least 2^23. -/
theorem significand_ge {num den : Nat} (h : 2 ^ 24 ≤ num / den) :
    2 ^ 23 ≤ roundHalfEven num (den * 2 ^ excessBits (num / den)) := by
  refine le_trans ?_ (roundHalfEven_lower _ _)
  rw [← Nat.div_div_eq_div_mul]
  exact (Nat.le_div_iff_mul_le (by positivity)).2 (excessBits_large h).2.1

/-! ## Rounding to a pattern -/

theorem roundMag_le_inf (num den : Nat) : roundMag num den ≤ 0x7F800000 := Nat.min_le_right _ _

theorem roundMag_zero (den : Nat) : roundMag 0 den = 0 := by
  simp [roundMag, excessBits, roundHalfEven]

/-- Rounding keeps the order of two fractions over one denominator. -/
theorem roundMag_mono {a b den : Nat} (hab : a ≤ b) : roundMag a den ≤ roundMag b den := by
  have hk : excessBits (a / den) ≤ excessBits (b / den) := excessBits_mono (Nat.div_le_div_right hab)
  unfold roundMag
  simp only
  refine min_le_min_right _ ?_
  rcases Nat.eq_or_lt_of_le hk with heq | hlt
  · rw [heq]
    exact Nat.add_le_add_left (roundHalfEven_mono hab) _
  · have hb : 2 ^ 24 ≤ b / den := by
      by_contra hsmall
      rw [excessBits_small (Nat.lt_of_not_le hsmall)] at hlt
      omega
    have h1 := significand_le a den
    have h2 := significand_ge hb
    omega

/-! ## What a pattern denotes -/

theorem packF32_toNat (neg : Bool) {low : Nat} (h : low < 2 ^ 31) :
    (packF32 neg low).toNat = (if neg then 2 ^ 31 else 0) + low := by
  unfold packF32
  rw [BitVec.toNat_ofNat]
  cases neg <;> (simp; try omega)

theorem signBit_pack (neg : Bool) {low : Nat} (h : low < 2 ^ 31) : signBit (packF32 neg low) = neg := by
  unfold signBit
  rw [packF32_toNat neg h]
  cases neg <;> (simp; try omega)

theorem expField_pack (neg : Bool) {low : Nat} (h : low < 2 ^ 31) : expField (packF32 neg low) = low / 2 ^ 23 := by
  unfold expField
  rw [packF32_toNat neg h]
  cases neg <;> (simp; try omega)

theorem fracField_pack (neg : Bool) {low : Nat} (h : low < 2 ^ 31) : fracField (packF32 neg low) = low % 2 ^ 23 := by
  unfold fracField
  rw [packF32_toNat neg h]
  cases neg <;> (simp; try omega)

/-- The magnitude, in units of 2^-149, of bits 30..0 of a finite pattern. -/
def magOf (low : Nat) : Nat :=
  if low / 2 ^ 23 = 0 then low else (2 ^ 23 + low % 2 ^ 23) * 2 ^ (low / 2 ^ 23 - 1)

theorem decodeF32_pack_fin (neg : Bool) {low : Nat} (h : low < 0x7F800000) :
    decodeF32 (packF32 neg low) = .fin neg (magOf low) := by
  have hb : low < 2 ^ 31 := by omega
  unfold decodeF32 magOf
  rw [expField_pack neg hb, fracField_pack neg hb, signBit_pack neg hb]
  rw [if_neg (by omega)]
  split
  · rw [Nat.mod_eq_of_lt (by omega)]
  · rfl

theorem decodeF32_pack_inf (neg : Bool) : decodeF32 (packF32 neg 0x7F800000) = .inf neg := by
  cases neg <;> decide

@[simp] theorem signedMag_false (mag : Nat) : signedMag false mag = (mag : Int) := rfl

@[simp] theorem signedMag_true (mag : Nat) : signedMag true mag = -(mag : Int) := rfl

@[simp] theorem orderKey_nan : orderKey .nan = none := rfl

@[simp] theorem orderKey_inf (neg : Bool) : orderKey (.inf neg) = some (signedMag neg (2 ^ 128 * 2 ^ 149)) := rfl

@[simp] theorem orderKey_fin (neg : Bool) (mag : Nat) : orderKey (.fin neg mag) = some (signedMag neg mag) := rfl

/-- The infinity of a sign is the sign with exponent field 255 and fraction 0. -/
theorem infPattern_eq_pack (neg : Bool) : infPattern neg = packF32 neg 0x7F800000 := by cases neg <;> decide

/-- The zero of a sign is the sign with bits 30..0 zero. -/
theorem zeroPattern_eq_pack (neg : Bool) : zeroPattern neg = packF32 neg 0 := by cases neg <;> decide

@[simp] theorem decodeF32_infPattern (neg : Bool) : decodeF32 (infPattern neg) = .inf neg := by cases neg <;> decide

@[simp] theorem decodeF32_zeroPattern (neg : Bool) : decodeF32 (zeroPattern neg) = .fin neg 0 := by
  cases neg <;> decide

/-- A pattern is its sign and its bits 30..0. -/
theorem eq_pack (w : Word) : w = packF32 (signBit w) (w.toNat % 2 ^ 31) := by
  have hw := w.isLt
  apply BitVec.eq_of_toNat_eq
  rw [packF32_toNat _ (Nat.mod_lt _ (by norm_num))]
  unfold signBit
  by_cases h : 2 ^ 31 ≤ w.toNat
  · rw [decide_eq_true h, if_pos rfl]
    omega
  · rw [decide_eq_false h, if_neg Bool.false_ne_true]
    omega

/-- What a finite pattern denotes, and what pattern it is. -/
theorem decodeF32_fin_iff {w : Word} {neg : Bool} {mag : Nat} :
    decodeF32 w = .fin neg mag ↔ ∃ low, low < 0x7F800000 ∧ w = packF32 neg low ∧ mag = magOf low := by
  constructor
  · intro h
    have hw := eq_pack w
    have hlow : w.toNat % 2 ^ 31 < 2 ^ 31 := Nat.mod_lt _ (by norm_num)
    rw [hw] at h
    by_cases hfin : w.toNat % 2 ^ 31 < 0x7F800000
    · rw [decodeF32_pack_fin _ hfin] at h
      injection h with h1 h2
      exact ⟨_, hfin, h1 ▸ hw, h2.symm⟩
    · exfalso
      have he : expField (packF32 (signBit w) (w.toNat % 2 ^ 31)) = 255 := by
        rw [expField_pack _ hlow]
        omega
      unfold decodeF32 at h
      rw [if_pos he] at h
      split at h <;> cases h
  · rintro ⟨low, hlow, rfl, rfl⟩
    exact decodeF32_pack_fin neg hlow

/-- Rounding is exact on a representable magnitude. -/
theorem roundMag_exact {low den : Nat} (hlow : low < 0x7F800000) (hden : 0 < den) :
    roundMag (magOf low * den) den = low := by
  unfold roundMag
  simp only
  rw [Nat.mul_div_cancel _ hden]
  by_cases h0 : low / 2 ^ 23 ≤ 1
  · have hm : magOf low = low := by
      unfold magOf
      split
      · rfl
      · rw [show low / 2 ^ 23 - 1 = 0 by omega]
        omega
    rw [hm, excessBits_small (by omega), pow_zero, mul_one, roundHalfEven_exact _ _ hden]
    omega
  · obtain ⟨k, hk⟩ : ∃ k, low / 2 ^ 23 = k + 1 := ⟨low / 2 ^ 23 - 1, by omega⟩
    have hm : magOf low = (2 ^ 23 + low % 2 ^ 23) * 2 ^ k := by
      unfold magOf
      rw [if_neg (by omega), hk]
      rfl
    have hf : low % 2 ^ 23 < 2 ^ 23 := Nat.mod_lt _ (by norm_num)
    have hk1 : 1 ≤ k := by omega
    have hpow : 2 ^ 1 ≤ 2 ^ k := Nat.pow_le_pow_right (by norm_num) hk1
    have hbig : 2 ^ 24 ≤ magOf low := by
      rw [hm]
      calc 2 ^ 24 = 2 ^ 23 * 2 ^ 1 := by norm_num
        _ ≤ (2 ^ 23 + low % 2 ^ 23) * 2 ^ k := Nat.mul_le_mul (by omega) hpow
    have he : excessBits (magOf low) = k := by
      have hn : magOf low ≠ 0 := by omega
      have hlog : Nat.log2 (magOf low) = 23 + k := by
        refine (Nat.log2_eq_iff hn).2 ⟨?_, ?_⟩
        · rw [hm, pow_add]
          exact Nat.mul_le_mul_right _ (by omega)
        · rw [hm, show 23 + k + 1 = 24 + k by omega, pow_add]
          exact Nat.mul_lt_mul_of_pos_right (by omega) (by positivity)
      rw [show excessBits (magOf low) = Nat.log2 (magOf low) - 23 from if_neg (Nat.not_lt.2 hbig), hlog]
      omega
    rw [he, hm, show (2 ^ 23 + low % 2 ^ 23) * 2 ^ k * den = (2 ^ 23 + low % 2 ^ 23) * (den * 2 ^ k) by ring,
      roundHalfEven_exact _ _ (by positivity)]
    omega

/-! ## Magnitudes -/

/-- Every 24-bit significand with its high bit set has a pattern at every exponent of a normal number. -/
theorem magOf_normal {m k : Nat} (h1 : 2 ^ 23 ≤ m) (h2 : m < 2 ^ 24) (hk : k < 254) :
    2 ^ 23 * k + m < 0x7F800000 ∧ magOf (2 ^ 23 * k + m) = m * 2 ^ k := by
  refine ⟨by omega, ?_⟩
  have hdiv : (2 ^ 23 * k + m) / 2 ^ 23 = k + 1 := by omega
  unfold magOf
  rw [hdiv, if_neg (by omega), show k + 1 - 1 = k by omega]
  congr 1
  omega

/-- Magnitudes below 2^24 units are their own patterns. -/
theorem magOf_small {m : Nat} (h : m < 2 ^ 24) : magOf m = m := by
  unfold magOf
  split
  · rfl
  · rw [show m / 2 ^ 23 - 1 = 0 by omega]
    omega

/-- Every positive integer below 2^24 has a finite pattern. -/
theorem magOf_integer {n : Nat} (h0 : 0 < n) (h : n < 2 ^ 24) : ∃ low, low < 0x7F800000 ∧ magOf low = 2 ^ 149 * n := by
  have hn : n ≠ 0 := by omega
  have hl : Nat.log2 n < 24 := (Nat.log2_lt hn).2 h
  have h1 := Nat.log2_self_le hn
  have h2 : n < 2 ^ (Nat.log2 n + 1) := Nat.lt_log2_self
  have hlo : 2 ^ 23 ≤ n * 2 ^ (23 - Nat.log2 n) := by
    calc 2 ^ 23 = 2 ^ Nat.log2 n * 2 ^ (23 - Nat.log2 n) := by rw [← pow_add]; congr 1; omega
      _ ≤ _ := Nat.mul_le_mul_right _ h1
  have hhi : n * 2 ^ (23 - Nat.log2 n) < 2 ^ 24 := by
    calc n * 2 ^ (23 - Nat.log2 n) < 2 ^ (Nat.log2 n + 1) * 2 ^ (23 - Nat.log2 n) :=
        Nat.mul_lt_mul_of_pos_right h2 (by positivity)
      _ = 2 ^ 24 := by rw [← pow_add]; congr 1; omega
  obtain ⟨hlow, hm⟩ := magOf_normal hlo hhi (show 126 + Nat.log2 n < 254 by omega)
  refine ⟨_, hlow, ?_⟩
  rw [hm, mul_assoc, ← pow_add, mul_comm]
  congr 2
  omega

/-- The place of bits 30..0 on the ordered line: a finite magnitude, or infinity. -/
def magKey (low : Nat) : Nat := if low = 0x7F800000 then 2 ^ 128 * 2 ^ 149 else magOf low

/-- A non-NaN pattern has the place of its sign and bits 30..0. -/
theorem orderKey_pack (neg : Bool) {low : Nat} (h : low ≤ 0x7F800000) :
    orderKey (decodeF32 (packF32 neg low)) = some (signedMag neg (magKey low)) := by
  unfold magKey
  rcases Nat.eq_or_lt_of_le h with rfl | hlt
  · rw [decodeF32_pack_inf]
    rfl
  · rw [decodeF32_pack_fin neg hlt, if_neg (by omega)]
    rfl

/-- Patterns are ordered as their magnitudes. -/
theorem magOf_mono {a b : Nat} (h : a ≤ b) : magOf a ≤ magOf b := by
  unfold magOf
  split
  · split
    · exact h
    · calc a ≤ (2 ^ 23 + b % 2 ^ 23) * 1 := by omega
        _ ≤ (2 ^ 23 + b % 2 ^ 23) * 2 ^ (b / 2 ^ 23 - 1) := Nat.mul_le_mul_left _ Nat.one_le_two_pow
  · rw [if_neg (by omega)]
    rcases Nat.eq_or_lt_of_le (Nat.div_le_div_right (c := 2 ^ 23) h) with he | hlt
    · rw [he]
      exact Nat.mul_le_mul_right _ (by omega)
    · have hp : 2 ^ (a / 2 ^ 23 - 1 + 1) ≤ 2 ^ (b / 2 ^ 23 - 1) := Nat.pow_le_pow_right (by norm_num) (by omega)
      calc (2 ^ 23 + a % 2 ^ 23) * 2 ^ (a / 2 ^ 23 - 1) ≤ 2 ^ 24 * 2 ^ (a / 2 ^ 23 - 1) :=
            Nat.mul_le_mul_right _ (by omega)
        _ = 2 ^ 23 * 2 ^ (a / 2 ^ 23 - 1 + 1) := by ring
        _ ≤ 2 ^ 23 * 2 ^ (b / 2 ^ 23 - 1) := Nat.mul_le_mul_left _ hp
        _ ≤ (2 ^ 23 + b % 2 ^ 23) * 2 ^ (b / 2 ^ 23 - 1) := Nat.mul_le_mul_right _ (by omega)

/-- Every finite magnitude lies below infinity. -/
theorem magOf_lt_inf {low : Nat} (h : low < 0x7F800000) : magOf low < 2 ^ 128 * 2 ^ 149 := by
  have h1 : magOf low ≤ magOf (2 ^ 23 * 253 + (2 ^ 24 - 1)) := magOf_mono (by omega)
  rw [(magOf_normal (by norm_num) (by norm_num) (by norm_num)).2] at h1
  refine lt_of_le_of_lt h1 ?_
  calc (2 ^ 24 - 1) * 2 ^ 253 < 2 ^ 24 * 2 ^ 253 := Nat.mul_lt_mul_of_pos_right (by norm_num) (by positivity)
    _ = 2 ^ 128 * 2 ^ 149 := by rw [← pow_add, ← pow_add]

theorem magKey_mono {a b : Nat} (h : a ≤ b) (hb : b ≤ 0x7F800000) : magKey a ≤ magKey b := by
  unfold magKey
  rcases Nat.eq_or_lt_of_le hb with rfl | hlt
  · rw [if_pos rfl]
    split
    · exact le_refl _
    · exact le_of_lt (magOf_lt_inf (by omega))
  · rw [if_neg (by omega), if_neg (by omega)]
    exact magOf_mono h

/-! ## Comparisons -/

theorem isNaN_iff {w : Word} : isNaN w = true ↔ decodeF32 w = .nan := by simp [isNaN]

theorem orderKey_eq_none {v : F32} : orderKey v = none ↔ v = .nan := by
  cases v <;> simp [orderKey]

/-- A comparison of two values with places on the ordered line. -/
theorem orderedCompare_some {rel : Int → Int → Bool} {a b : Word} {x y : Int} (ha : orderKey (decodeF32 a) = some x)
    (hb : orderKey (decodeF32 b) = some y) : orderedCompare rel a b = rel x y := by
  simp [orderedCompare, ha, hb]

/-- A comparison that holds is of two places. -/
theorem orderedCompare_true {rel : Int → Int → Bool} {a b : Word} (h : orderedCompare rel a b = true) :
    ∃ x y, orderKey (decodeF32 a) = some x ∧ orderKey (decodeF32 b) = some y ∧ rel x y = true := by
  unfold orderedCompare at h
  split at h
  · exact ⟨_, _, ‹_›, ‹_›, h⟩
  · cases h

/-- Every comparison with a NaN is false (00_scope R19). -/
theorem orderedCompare_nan {rel : Int → Int → Bool} {a b : Word} (h : isNaN a = true ∨ isNaN b = true) :
    orderedCompare rel a b = false := by
  by_contra hc
  obtain ⟨x, y, ha, hb, -⟩ := orderedCompare_true (Bool.of_not_eq_false hc)
  rcases h with h | h
  · rw [orderKey_eq_none.2 (isNaN_iff.1 h)] at ha
    cases ha
  · rw [orderKey_eq_none.2 (isNaN_iff.1 h)] at hb
    cases hb

/-! ## Results of arithmetic -/

/-- A pattern that is not a NaN: a sign and bits 30..0 up to those of infinity. -/
theorem pack_not_nan (neg : Bool) {low : Nat} (h : low ≤ 0x7F800000) : isNaN (packF32 neg low) = false := by
  rcases Nat.eq_or_lt_of_le h with rfl | hlt
  · simp [isNaN, decodeF32_pack_inf]
  · simp [isNaN, decodeF32_pack_fin neg hlt]

/-- The one NaN that arithmetic gives is the canonical one (00_scope R18). -/
theorem fadd_canonical (a b : Word) (h : isNaN (fadd a b) = true) : fadd a b = canonicalNaN := by
  have hinf (neg : Bool) : isNaN (infPattern neg) = false := by cases neg <;> decide
  have hzero (neg : Bool) : isNaN (zeroPattern neg) = false := by cases neg <;> decide
  unfold fadd at h ⊢
  cases ha : decodeF32 a with
  | nan => rfl
  | inf p =>
    cases hb : decodeF32 b with
    | nan => rfl
    | inf q =>
      simp only [ha, hb] at h ⊢
      split at h
      · simp [hinf] at h
      · rw [if_neg ‹_›]
    | fin q n => simp [ha, hb, hinf] at h
  | fin p m =>
    cases hb : decodeF32 b with
    | nan => rfl
    | inf q => simp [ha, hb, hinf] at h
    | fin q n =>
      simp only [ha, hb] at h
      split at h
      · simp [hzero] at h
      · simp [pack_not_nan _ (roundMag_le_inf _ _)] at h

end Sys2Proof.Laws
end

