-- ==== Sys2Proof/Laws/Bits.lean ====
section
/-! SUPPORT. Laws of operands: bits of a register, channels of a section, elapsed time. -/

namespace Sys2Proof.Laws

open Sys2Proof.Machine

/-- Read after write of one bit, and every other bit left alone. -/
@[simp] theorem bitAt_setBit {w : Nat} (m : BitVec w) (i j : Fin w) (b : Bool) :
    bitAt (setBit m i b) j = if j = i then b else bitAt m j := by
  unfold bitAt setBit
  have hj := j.isLt
  by_cases h : j = i
  · subst h
    cases b <;> simp [hj]
  · have hne : ¬ (j.val = i.val) := fun e => h (Fin.ext e)
    cases b
    · simpa [h, hj] using fun _ => hne
    · simpa [h, hj] using fun e => absurd e hne

/-- A register is determined by its bits. -/
theorem bitAt_ext {w : Nat} {m n : BitVec w} (h : ∀ i, bitAt m i = bitAt n i) : m = n :=
  BitVec.eq_of_getLsbD_eq fun i hi => h ⟨i, hi⟩

@[simp] theorem bitAt_zero {w : Nat} (i : Fin w) : bitAt 0#w i = false := by simp [bitAt]

@[simp] theorem bitAt_allOnes16 (i : Fin 16) : bitAt 0xFFFF#16 i = true := by
  revert i
  decide

/-- The channels of a section, by index. -/
theorem mem_channelsOf {x : Sec} {ch : Channel} : ch ∈ channelsOf x ↔ secOf ch = x := by
  revert x ch
  decide

/-- The channels of a section that meet a test, in ascending order among all sixteen. -/
theorem filter_section (x : Sec) (f : Channel → Bool) :
    (List.finRange 16).filter (fun ch => decide (secOf ch = x) && f ch) = (channelsOf x).filter f := by
  have h : (List.finRange 16).filter (fun ch => decide (secOf ch = x)) = channelsOf x := by
    revert x
    decide
  rw [← h]
  simp [List.filter_filter, Bool.and_comm]

theorem channelsOf_nodup (x : Sec) : (channelsOf x).Nodup := by
  revert x
  decide

/-- The elapsed ticks as 40_lookup R121 writes them. -/
theorem elapsedTicks_eq (now before : Word) :
    (elapsedTicks now before : Int) = ((now.toNat : Int) - before.toNat) % 2 ^ 32 := by
  unfold elapsedTicks
  rw [BitVec.toNat_sub]
  have h1 := now.isLt
  have h2 := before.isLt
  omega

end Sys2Proof.Laws
end

