-- ==== Sys2Proof/Laws/State.lean ====
section
/-! SUPPORT. One lemma per field per named update of the state, each true by `rfl`, so that no later proof unfolds a
record update. -/

namespace Sys2Proof.Laws

open Sys2Proof.Machine

/-! ## `State.respond` -/

@[simp] theorem respond_params (s : State) (c : Status) (r : Word) : (s.respond c r).params = s.params := rfl
@[simp] theorem respond_temp (s : State) (c : Status) (r : Word) : (s.respond c r).temp = s.temp := rfl
@[simp] theorem respond_ts (s : State) (c : Status) (r : Word) : (s.respond c r).ts = s.ts := rfl
@[simp] theorem respond_tsVld (s : State) (c : Status) (r : Word) : (s.respond c r).tsVld = s.tsVld := rfl
@[simp] theorem respond_tflt (s : State) (c : Status) (r : Word) : (s.respond c r).tflt = s.tflt := rfl
@[simp] theorem respond_integ (s : State) (c : Status) (r : Word) : (s.respond c r).integ = s.integ := rfl
@[simp] theorem respond_perr (s : State) (c : Status) (r : Word) : (s.respond c r).perr = s.perr := rfl
@[simp] theorem respond_ptime (s : State) (c : Status) (r : Word) : (s.respond c r).ptime = s.ptime := rfl
@[simp] theorem respond_pinit (s : State) (c : Status) (r : Word) : (s.respond c r).pinit = s.pinit := rfl
@[simp] theorem respond_pout (s : State) (c : Status) (r : Word) : (s.respond c r).pout = s.pout := rfl
@[simp] theorem respond_target (s : State) (c : Status) (r : Word) : (s.respond c r).target = s.target := rfl
@[simp] theorem respond_hystOn (s : State) (c : Status) (r : Word) : (s.respond c r).hystOn = s.hystOn := rfl
@[simp] theorem respond_aggOut (s : State) (c : Status) (r : Word) : (s.respond c r).aggOut = s.aggOut := rfl
@[simp] theorem respond_aggPwm (s : State) (c : Status) (r : Word) : (s.respond c r).aggPwm = s.aggPwm := rfl
@[simp] theorem respond_kp (s : State) (c : Status) (r : Word) : (s.respond c r).kp = s.kp := rfl
@[simp] theorem respond_ki (s : State) (c : Status) (r : Word) : (s.respond c r).ki = s.ki := rfl
@[simp] theorem respond_kd (s : State) (c : Status) (r : Word) : (s.respond c r).kd = s.kd := rfl
@[simp] theorem respond_pidThr (s : State) (c : Status) (r : Word) : (s.respond c r).pidThr = s.pidThr := rfl
@[simp] theorem respond_hystBand (s : State) (c : Status) (r : Word) : (s.respond c r).hystBand = s.hystBand := rfl
@[simp] theorem respond_minSi (s : State) (c : Status) (r : Word) : (s.respond c r).minSi = s.minSi := rfl
@[simp] theorem respond_ctrl (s : State) (c : Status) (r : Word) : (s.respond c r).ctrl = s.ctrl := rfl
@[simp] theorem respond_iclamp (s : State) (c : Status) (r : Word) : (s.respond c r).iclamp = s.iclamp := rfl
@[simp] theorem respond_active (s : State) (c : Status) (r : Word) : (s.respond c r).active = s.active := rfl
@[simp] theorem respond_aggTmin (s : State) (c : Status) (r : Word) : (s.respond c r).aggTmin = s.aggTmin := rfl
@[simp] theorem respond_aggTmax (s : State) (c : Status) (r : Word) : (s.respond c r).aggTmax = s.aggTmax := rfl
@[simp] theorem respond_aggPmin (s : State) (c : Status) (r : Word) : (s.respond c r).aggPmin = s.aggPmin := rfl
@[simp] theorem respond_aggPmax (s : State) (c : Status) (r : Word) : (s.respond c r).aggPmax = s.aggPmax := rfl
@[simp] theorem respond_drive (s : State) (c : Status) (r : Word) : (s.respond c r).drive = s.drive := rfl
@[simp] theorem respond_queue (s : State) (c : Status) (r : Word) : (s.respond c r).queue = s.queue := rfl
@[simp] theorem respond_data (s : State) (c : Status) (r : Word) : (s.respond c r).data = s.data := rfl
@[simp] theorem respond_tnow (s : State) (c : Status) (r : Word) : (s.respond c r).tnow = s.tnow := rfl
@[simp] theorem respond_response (s : State) (c : Status) (r : Word) : (s.respond c r).response = some ⟨c, r⟩ := rfl

/-! ## `State.setFaulted` -/

@[simp] theorem setFaulted_params (s : State) (ch : Channel) (b : Bool) : (s.setFaulted ch b).params = s.params := rfl
@[simp] theorem setFaulted_temp (s : State) (ch : Channel) (b : Bool) : (s.setFaulted ch b).temp = s.temp := rfl
@[simp] theorem setFaulted_ts (s : State) (ch : Channel) (b : Bool) : (s.setFaulted ch b).ts = s.ts := rfl
@[simp] theorem setFaulted_tsVld (s : State) (ch : Channel) (b : Bool) : (s.setFaulted ch b).tsVld = s.tsVld := rfl
@[simp] theorem setFaulted_tflt (s : State) (ch : Channel) (b : Bool) : (s.setFaulted ch b).tflt = setBit s.tflt ch b := rfl
@[simp] theorem setFaulted_integ (s : State) (ch : Channel) (b : Bool) : (s.setFaulted ch b).integ = s.integ := rfl
@[simp] theorem setFaulted_perr (s : State) (ch : Channel) (b : Bool) : (s.setFaulted ch b).perr = s.perr := rfl
@[simp] theorem setFaulted_ptime (s : State) (ch : Channel) (b : Bool) : (s.setFaulted ch b).ptime = s.ptime := rfl
@[simp] theorem setFaulted_pinit (s : State) (ch : Channel) (b : Bool) : (s.setFaulted ch b).pinit = s.pinit := rfl
@[simp] theorem setFaulted_pout (s : State) (ch : Channel) (b : Bool) : (s.setFaulted ch b).pout = s.pout := rfl
@[simp] theorem setFaulted_target (s : State) (ch : Channel) (b : Bool) : (s.setFaulted ch b).target = s.target := rfl
@[simp] theorem setFaulted_hystOn (s : State) (ch : Channel) (b : Bool) : (s.setFaulted ch b).hystOn = s.hystOn := rfl
@[simp] theorem setFaulted_aggOut (s : State) (ch : Channel) (b : Bool) : (s.setFaulted ch b).aggOut = s.aggOut := rfl
@[simp] theorem setFaulted_aggPwm (s : State) (ch : Channel) (b : Bool) : (s.setFaulted ch b).aggPwm = s.aggPwm := rfl
@[simp] theorem setFaulted_kp (s : State) (ch : Channel) (b : Bool) : (s.setFaulted ch b).kp = s.kp := rfl
@[simp] theorem setFaulted_ki (s : State) (ch : Channel) (b : Bool) : (s.setFaulted ch b).ki = s.ki := rfl
@[simp] theorem setFaulted_kd (s : State) (ch : Channel) (b : Bool) : (s.setFaulted ch b).kd = s.kd := rfl
@[simp] theorem setFaulted_pidThr (s : State) (ch : Channel) (b : Bool) : (s.setFaulted ch b).pidThr = s.pidThr := rfl
@[simp] theorem setFaulted_hystBand (s : State) (ch : Channel) (b : Bool) : (s.setFaulted ch b).hystBand = s.hystBand := rfl
@[simp] theorem setFaulted_minSi (s : State) (ch : Channel) (b : Bool) : (s.setFaulted ch b).minSi = s.minSi := rfl
@[simp] theorem setFaulted_ctrl (s : State) (ch : Channel) (b : Bool) : (s.setFaulted ch b).ctrl = s.ctrl := rfl
@[simp] theorem setFaulted_iclamp (s : State) (ch : Channel) (b : Bool) : (s.setFaulted ch b).iclamp = s.iclamp := rfl
@[simp] theorem setFaulted_active (s : State) (ch : Channel) (b : Bool) : (s.setFaulted ch b).active = s.active := rfl
@[simp] theorem setFaulted_aggTmin (s : State) (ch : Channel) (b : Bool) : (s.setFaulted ch b).aggTmin = s.aggTmin := rfl
@[simp] theorem setFaulted_aggTmax (s : State) (ch : Channel) (b : Bool) : (s.setFaulted ch b).aggTmax = s.aggTmax := rfl
@[simp] theorem setFaulted_aggPmin (s : State) (ch : Channel) (b : Bool) : (s.setFaulted ch b).aggPmin = s.aggPmin := rfl
@[simp] theorem setFaulted_aggPmax (s : State) (ch : Channel) (b : Bool) : (s.setFaulted ch b).aggPmax = s.aggPmax := rfl
@[simp] theorem setFaulted_drive (s : State) (ch : Channel) (b : Bool) : (s.setFaulted ch b).drive = s.drive := rfl
@[simp] theorem setFaulted_queue (s : State) (ch : Channel) (b : Bool) : (s.setFaulted ch b).queue = s.queue := rfl
@[simp] theorem setFaulted_data (s : State) (ch : Channel) (b : Bool) : (s.setFaulted ch b).data = s.data := rfl
@[simp] theorem setFaulted_tnow (s : State) (ch : Channel) (b : Bool) : (s.setFaulted ch b).tnow = s.tnow := rfl
@[simp] theorem setFaulted_response (s : State) (ch : Channel) (b : Bool) : (s.setFaulted ch b).response = s.response := rfl

/-! ## `State.setSampled` -/

@[simp] theorem setSampled_params (s : State) (ch : Channel) (b : Bool) : (s.setSampled ch b).params = s.params := rfl
@[simp] theorem setSampled_temp (s : State) (ch : Channel) (b : Bool) : (s.setSampled ch b).temp = s.temp := rfl
@[simp] theorem setSampled_ts (s : State) (ch : Channel) (b : Bool) : (s.setSampled ch b).ts = s.ts := rfl
@[simp] theorem setSampled_tsVld (s : State) (ch : Channel) (b : Bool) : (s.setSampled ch b).tsVld = setBit s.tsVld ch b := rfl
@[simp] theorem setSampled_tflt (s : State) (ch : Channel) (b : Bool) : (s.setSampled ch b).tflt = s.tflt := rfl
@[simp] theorem setSampled_integ (s : State) (ch : Channel) (b : Bool) : (s.setSampled ch b).integ = s.integ := rfl
@[simp] theorem setSampled_perr (s : State) (ch : Channel) (b : Bool) : (s.setSampled ch b).perr = s.perr := rfl
@[simp] theorem setSampled_ptime (s : State) (ch : Channel) (b : Bool) : (s.setSampled ch b).ptime = s.ptime := rfl
@[simp] theorem setSampled_pinit (s : State) (ch : Channel) (b : Bool) : (s.setSampled ch b).pinit = s.pinit := rfl
@[simp] theorem setSampled_pout (s : State) (ch : Channel) (b : Bool) : (s.setSampled ch b).pout = s.pout := rfl
@[simp] theorem setSampled_target (s : State) (ch : Channel) (b : Bool) : (s.setSampled ch b).target = s.target := rfl
@[simp] theorem setSampled_hystOn (s : State) (ch : Channel) (b : Bool) : (s.setSampled ch b).hystOn = s.hystOn := rfl
@[simp] theorem setSampled_aggOut (s : State) (ch : Channel) (b : Bool) : (s.setSampled ch b).aggOut = s.aggOut := rfl
@[simp] theorem setSampled_aggPwm (s : State) (ch : Channel) (b : Bool) : (s.setSampled ch b).aggPwm = s.aggPwm := rfl
@[simp] theorem setSampled_kp (s : State) (ch : Channel) (b : Bool) : (s.setSampled ch b).kp = s.kp := rfl
@[simp] theorem setSampled_ki (s : State) (ch : Channel) (b : Bool) : (s.setSampled ch b).ki = s.ki := rfl
@[simp] theorem setSampled_kd (s : State) (ch : Channel) (b : Bool) : (s.setSampled ch b).kd = s.kd := rfl
@[simp] theorem setSampled_pidThr (s : State) (ch : Channel) (b : Bool) : (s.setSampled ch b).pidThr = s.pidThr := rfl
@[simp] theorem setSampled_hystBand (s : State) (ch : Channel) (b : Bool) : (s.setSampled ch b).hystBand = s.hystBand := rfl
@[simp] theorem setSampled_minSi (s : State) (ch : Channel) (b : Bool) : (s.setSampled ch b).minSi = s.minSi := rfl
@[simp] theorem setSampled_ctrl (s : State) (ch : Channel) (b : Bool) : (s.setSampled ch b).ctrl = s.ctrl := rfl
@[simp] theorem setSampled_iclamp (s : State) (ch : Channel) (b : Bool) : (s.setSampled ch b).iclamp = s.iclamp := rfl
@[simp] theorem setSampled_active (s : State) (ch : Channel) (b : Bool) : (s.setSampled ch b).active = s.active := rfl
@[simp] theorem setSampled_aggTmin (s : State) (ch : Channel) (b : Bool) : (s.setSampled ch b).aggTmin = s.aggTmin := rfl
@[simp] theorem setSampled_aggTmax (s : State) (ch : Channel) (b : Bool) : (s.setSampled ch b).aggTmax = s.aggTmax := rfl
@[simp] theorem setSampled_aggPmin (s : State) (ch : Channel) (b : Bool) : (s.setSampled ch b).aggPmin = s.aggPmin := rfl
@[simp] theorem setSampled_aggPmax (s : State) (ch : Channel) (b : Bool) : (s.setSampled ch b).aggPmax = s.aggPmax := rfl
@[simp] theorem setSampled_drive (s : State) (ch : Channel) (b : Bool) : (s.setSampled ch b).drive = s.drive := rfl
@[simp] theorem setSampled_queue (s : State) (ch : Channel) (b : Bool) : (s.setSampled ch b).queue = s.queue := rfl
@[simp] theorem setSampled_data (s : State) (ch : Channel) (b : Bool) : (s.setSampled ch b).data = s.data := rfl
@[simp] theorem setSampled_tnow (s : State) (ch : Channel) (b : Bool) : (s.setSampled ch b).tnow = s.tnow := rfl
@[simp] theorem setSampled_response (s : State) (ch : Channel) (b : Bool) : (s.setSampled ch b).response = s.response := rfl

/-! ## `State.setPidStarted` -/

@[simp] theorem setPidStarted_params (s : State) (ch : Channel) (b : Bool) : (s.setPidStarted ch b).params = s.params := rfl
@[simp] theorem setPidStarted_temp (s : State) (ch : Channel) (b : Bool) : (s.setPidStarted ch b).temp = s.temp := rfl
@[simp] theorem setPidStarted_ts (s : State) (ch : Channel) (b : Bool) : (s.setPidStarted ch b).ts = s.ts := rfl
@[simp] theorem setPidStarted_tsVld (s : State) (ch : Channel) (b : Bool) : (s.setPidStarted ch b).tsVld = s.tsVld := rfl
@[simp] theorem setPidStarted_tflt (s : State) (ch : Channel) (b : Bool) : (s.setPidStarted ch b).tflt = s.tflt := rfl
@[simp] theorem setPidStarted_integ (s : State) (ch : Channel) (b : Bool) : (s.setPidStarted ch b).integ = s.integ := rfl
@[simp] theorem setPidStarted_perr (s : State) (ch : Channel) (b : Bool) : (s.setPidStarted ch b).perr = s.perr := rfl
@[simp] theorem setPidStarted_ptime (s : State) (ch : Channel) (b : Bool) : (s.setPidStarted ch b).ptime = s.ptime := rfl
@[simp] theorem setPidStarted_pinit (s : State) (ch : Channel) (b : Bool) : (s.setPidStarted ch b).pinit = setBit s.pinit ch b := rfl
@[simp] theorem setPidStarted_pout (s : State) (ch : Channel) (b : Bool) : (s.setPidStarted ch b).pout = s.pout := rfl
@[simp] theorem setPidStarted_target (s : State) (ch : Channel) (b : Bool) : (s.setPidStarted ch b).target = s.target := rfl
@[simp] theorem setPidStarted_hystOn (s : State) (ch : Channel) (b : Bool) : (s.setPidStarted ch b).hystOn = s.hystOn := rfl
@[simp] theorem setPidStarted_aggOut (s : State) (ch : Channel) (b : Bool) : (s.setPidStarted ch b).aggOut = s.aggOut := rfl
@[simp] theorem setPidStarted_aggPwm (s : State) (ch : Channel) (b : Bool) : (s.setPidStarted ch b).aggPwm = s.aggPwm := rfl
@[simp] theorem setPidStarted_kp (s : State) (ch : Channel) (b : Bool) : (s.setPidStarted ch b).kp = s.kp := rfl
@[simp] theorem setPidStarted_ki (s : State) (ch : Channel) (b : Bool) : (s.setPidStarted ch b).ki = s.ki := rfl
@[simp] theorem setPidStarted_kd (s : State) (ch : Channel) (b : Bool) : (s.setPidStarted ch b).kd = s.kd := rfl
@[simp] theorem setPidStarted_pidThr (s : State) (ch : Channel) (b : Bool) : (s.setPidStarted ch b).pidThr = s.pidThr := rfl
@[simp] theorem setPidStarted_hystBand (s : State) (ch : Channel) (b : Bool) : (s.setPidStarted ch b).hystBand = s.hystBand := rfl
@[simp] theorem setPidStarted_minSi (s : State) (ch : Channel) (b : Bool) : (s.setPidStarted ch b).minSi = s.minSi := rfl
@[simp] theorem setPidStarted_ctrl (s : State) (ch : Channel) (b : Bool) : (s.setPidStarted ch b).ctrl = s.ctrl := rfl
@[simp] theorem setPidStarted_iclamp (s : State) (ch : Channel) (b : Bool) : (s.setPidStarted ch b).iclamp = s.iclamp := rfl
@[simp] theorem setPidStarted_active (s : State) (ch : Channel) (b : Bool) : (s.setPidStarted ch b).active = s.active := rfl
@[simp] theorem setPidStarted_aggTmin (s : State) (ch : Channel) (b : Bool) : (s.setPidStarted ch b).aggTmin = s.aggTmin := rfl
@[simp] theorem setPidStarted_aggTmax (s : State) (ch : Channel) (b : Bool) : (s.setPidStarted ch b).aggTmax = s.aggTmax := rfl
@[simp] theorem setPidStarted_aggPmin (s : State) (ch : Channel) (b : Bool) : (s.setPidStarted ch b).aggPmin = s.aggPmin := rfl
@[simp] theorem setPidStarted_aggPmax (s : State) (ch : Channel) (b : Bool) : (s.setPidStarted ch b).aggPmax = s.aggPmax := rfl
@[simp] theorem setPidStarted_drive (s : State) (ch : Channel) (b : Bool) : (s.setPidStarted ch b).drive = s.drive := rfl
@[simp] theorem setPidStarted_queue (s : State) (ch : Channel) (b : Bool) : (s.setPidStarted ch b).queue = s.queue := rfl
@[simp] theorem setPidStarted_data (s : State) (ch : Channel) (b : Bool) : (s.setPidStarted ch b).data = s.data := rfl
@[simp] theorem setPidStarted_tnow (s : State) (ch : Channel) (b : Bool) : (s.setPidStarted ch b).tnow = s.tnow := rfl
@[simp] theorem setPidStarted_response (s : State) (ch : Channel) (b : Bool) : (s.setPidStarted ch b).response = s.response := rfl

/-! ## `State.setHeating` -/

@[simp] theorem setHeating_params (s : State) (x : Sec) (b : Bool) : (s.setHeating x b).params = s.params := rfl
@[simp] theorem setHeating_temp (s : State) (x : Sec) (b : Bool) : (s.setHeating x b).temp = s.temp := rfl
@[simp] theorem setHeating_ts (s : State) (x : Sec) (b : Bool) : (s.setHeating x b).ts = s.ts := rfl
@[simp] theorem setHeating_tsVld (s : State) (x : Sec) (b : Bool) : (s.setHeating x b).tsVld = s.tsVld := rfl
@[simp] theorem setHeating_tflt (s : State) (x : Sec) (b : Bool) : (s.setHeating x b).tflt = s.tflt := rfl
@[simp] theorem setHeating_integ (s : State) (x : Sec) (b : Bool) : (s.setHeating x b).integ = s.integ := rfl
@[simp] theorem setHeating_perr (s : State) (x : Sec) (b : Bool) : (s.setHeating x b).perr = s.perr := rfl
@[simp] theorem setHeating_ptime (s : State) (x : Sec) (b : Bool) : (s.setHeating x b).ptime = s.ptime := rfl
@[simp] theorem setHeating_pinit (s : State) (x : Sec) (b : Bool) : (s.setHeating x b).pinit = s.pinit := rfl
@[simp] theorem setHeating_pout (s : State) (x : Sec) (b : Bool) : (s.setHeating x b).pout = s.pout := rfl
@[simp] theorem setHeating_target (s : State) (x : Sec) (b : Bool) : (s.setHeating x b).target = s.target := rfl
@[simp] theorem setHeating_hystOn (s : State) (x : Sec) (b : Bool) : (s.setHeating x b).hystOn = setBit s.hystOn x b := rfl
@[simp] theorem setHeating_aggOut (s : State) (x : Sec) (b : Bool) : (s.setHeating x b).aggOut = s.aggOut := rfl
@[simp] theorem setHeating_aggPwm (s : State) (x : Sec) (b : Bool) : (s.setHeating x b).aggPwm = s.aggPwm := rfl
@[simp] theorem setHeating_kp (s : State) (x : Sec) (b : Bool) : (s.setHeating x b).kp = s.kp := rfl
@[simp] theorem setHeating_ki (s : State) (x : Sec) (b : Bool) : (s.setHeating x b).ki = s.ki := rfl
@[simp] theorem setHeating_kd (s : State) (x : Sec) (b : Bool) : (s.setHeating x b).kd = s.kd := rfl
@[simp] theorem setHeating_pidThr (s : State) (x : Sec) (b : Bool) : (s.setHeating x b).pidThr = s.pidThr := rfl
@[simp] theorem setHeating_hystBand (s : State) (x : Sec) (b : Bool) : (s.setHeating x b).hystBand = s.hystBand := rfl
@[simp] theorem setHeating_minSi (s : State) (x : Sec) (b : Bool) : (s.setHeating x b).minSi = s.minSi := rfl
@[simp] theorem setHeating_ctrl (s : State) (x : Sec) (b : Bool) : (s.setHeating x b).ctrl = s.ctrl := rfl
@[simp] theorem setHeating_iclamp (s : State) (x : Sec) (b : Bool) : (s.setHeating x b).iclamp = s.iclamp := rfl
@[simp] theorem setHeating_active (s : State) (x : Sec) (b : Bool) : (s.setHeating x b).active = s.active := rfl
@[simp] theorem setHeating_aggTmin (s : State) (x : Sec) (b : Bool) : (s.setHeating x b).aggTmin = s.aggTmin := rfl
@[simp] theorem setHeating_aggTmax (s : State) (x : Sec) (b : Bool) : (s.setHeating x b).aggTmax = s.aggTmax := rfl
@[simp] theorem setHeating_aggPmin (s : State) (x : Sec) (b : Bool) : (s.setHeating x b).aggPmin = s.aggPmin := rfl
@[simp] theorem setHeating_aggPmax (s : State) (x : Sec) (b : Bool) : (s.setHeating x b).aggPmax = s.aggPmax := rfl
@[simp] theorem setHeating_drive (s : State) (x : Sec) (b : Bool) : (s.setHeating x b).drive = s.drive := rfl
@[simp] theorem setHeating_queue (s : State) (x : Sec) (b : Bool) : (s.setHeating x b).queue = s.queue := rfl
@[simp] theorem setHeating_data (s : State) (x : Sec) (b : Bool) : (s.setHeating x b).data = s.data := rfl
@[simp] theorem setHeating_tnow (s : State) (x : Sec) (b : Bool) : (s.setHeating x b).tnow = s.tnow := rfl
@[simp] theorem setHeating_response (s : State) (x : Sec) (b : Bool) : (s.setHeating x b).response = s.response := rfl

/-! ## `State.requestDrive` -/

@[simp] theorem requestDrive_params (s : State) (ch : Channel) (d : Bool) : (s.requestDrive ch d).params = s.params := rfl
@[simp] theorem requestDrive_temp (s : State) (ch : Channel) (d : Bool) : (s.requestDrive ch d).temp = s.temp := rfl
@[simp] theorem requestDrive_ts (s : State) (ch : Channel) (d : Bool) : (s.requestDrive ch d).ts = s.ts := rfl
@[simp] theorem requestDrive_tsVld (s : State) (ch : Channel) (d : Bool) : (s.requestDrive ch d).tsVld = s.tsVld := rfl
@[simp] theorem requestDrive_tflt (s : State) (ch : Channel) (d : Bool) : (s.requestDrive ch d).tflt = s.tflt := rfl
@[simp] theorem requestDrive_integ (s : State) (ch : Channel) (d : Bool) : (s.requestDrive ch d).integ = s.integ := rfl
@[simp] theorem requestDrive_perr (s : State) (ch : Channel) (d : Bool) : (s.requestDrive ch d).perr = s.perr := rfl
@[simp] theorem requestDrive_ptime (s : State) (ch : Channel) (d : Bool) : (s.requestDrive ch d).ptime = s.ptime := rfl
@[simp] theorem requestDrive_pinit (s : State) (ch : Channel) (d : Bool) : (s.requestDrive ch d).pinit = s.pinit := rfl
@[simp] theorem requestDrive_pout (s : State) (ch : Channel) (d : Bool) : (s.requestDrive ch d).pout = s.pout := rfl
@[simp] theorem requestDrive_target (s : State) (ch : Channel) (d : Bool) : (s.requestDrive ch d).target = s.target := rfl
@[simp] theorem requestDrive_hystOn (s : State) (ch : Channel) (d : Bool) : (s.requestDrive ch d).hystOn = s.hystOn := rfl
@[simp] theorem requestDrive_aggOut (s : State) (ch : Channel) (d : Bool) : (s.requestDrive ch d).aggOut = s.aggOut := rfl
@[simp] theorem requestDrive_aggPwm (s : State) (ch : Channel) (d : Bool) : (s.requestDrive ch d).aggPwm = s.aggPwm := rfl
@[simp] theorem requestDrive_kp (s : State) (ch : Channel) (d : Bool) : (s.requestDrive ch d).kp = s.kp := rfl
@[simp] theorem requestDrive_ki (s : State) (ch : Channel) (d : Bool) : (s.requestDrive ch d).ki = s.ki := rfl
@[simp] theorem requestDrive_kd (s : State) (ch : Channel) (d : Bool) : (s.requestDrive ch d).kd = s.kd := rfl
@[simp] theorem requestDrive_pidThr (s : State) (ch : Channel) (d : Bool) : (s.requestDrive ch d).pidThr = s.pidThr := rfl
@[simp] theorem requestDrive_hystBand (s : State) (ch : Channel) (d : Bool) : (s.requestDrive ch d).hystBand = s.hystBand := rfl
@[simp] theorem requestDrive_minSi (s : State) (ch : Channel) (d : Bool) : (s.requestDrive ch d).minSi = s.minSi := rfl
@[simp] theorem requestDrive_ctrl (s : State) (ch : Channel) (d : Bool) : (s.requestDrive ch d).ctrl = s.ctrl := rfl
@[simp] theorem requestDrive_iclamp (s : State) (ch : Channel) (d : Bool) : (s.requestDrive ch d).iclamp = s.iclamp := rfl
@[simp] theorem requestDrive_active (s : State) (ch : Channel) (d : Bool) : (s.requestDrive ch d).active = s.active := rfl
@[simp] theorem requestDrive_aggTmin (s : State) (ch : Channel) (d : Bool) : (s.requestDrive ch d).aggTmin = s.aggTmin := rfl
@[simp] theorem requestDrive_aggTmax (s : State) (ch : Channel) (d : Bool) : (s.requestDrive ch d).aggTmax = s.aggTmax := rfl
@[simp] theorem requestDrive_aggPmin (s : State) (ch : Channel) (d : Bool) : (s.requestDrive ch d).aggPmin = s.aggPmin := rfl
@[simp] theorem requestDrive_aggPmax (s : State) (ch : Channel) (d : Bool) : (s.requestDrive ch d).aggPmax = s.aggPmax := rfl
@[simp] theorem requestDrive_drive (s : State) (ch : Channel) (d : Bool) : (s.requestDrive ch d).drive = setBit s.drive ch (d && s.isActive ch) := rfl
@[simp] theorem requestDrive_queue (s : State) (ch : Channel) (d : Bool) : (s.requestDrive ch d).queue = s.queue := rfl
@[simp] theorem requestDrive_data (s : State) (ch : Channel) (d : Bool) : (s.requestDrive ch d).data = s.data := rfl
@[simp] theorem requestDrive_tnow (s : State) (ch : Channel) (d : Bool) : (s.requestDrive ch d).tnow = s.tnow := rfl
@[simp] theorem requestDrive_response (s : State) (ch : Channel) (d : Bool) : (s.requestDrive ch d).response = s.response := rfl

/-! ## `acceptTransaction` -/

@[simp] theorem acceptTransaction_params (s : State) (data tnow : Word) (later : List Interaction) :
    (acceptTransaction s data tnow later).params = s.params := rfl
@[simp] theorem acceptTransaction_temp (s : State) (data tnow : Word) (later : List Interaction) :
    (acceptTransaction s data tnow later).temp = s.temp := rfl
@[simp] theorem acceptTransaction_ts (s : State) (data tnow : Word) (later : List Interaction) :
    (acceptTransaction s data tnow later).ts = s.ts := rfl
@[simp] theorem acceptTransaction_tsVld (s : State) (data tnow : Word) (later : List Interaction) :
    (acceptTransaction s data tnow later).tsVld = s.tsVld := rfl
@[simp] theorem acceptTransaction_tflt (s : State) (data tnow : Word) (later : List Interaction) :
    (acceptTransaction s data tnow later).tflt = s.tflt := rfl
@[simp] theorem acceptTransaction_integ (s : State) (data tnow : Word) (later : List Interaction) :
    (acceptTransaction s data tnow later).integ = s.integ := rfl
@[simp] theorem acceptTransaction_perr (s : State) (data tnow : Word) (later : List Interaction) :
    (acceptTransaction s data tnow later).perr = s.perr := rfl
@[simp] theorem acceptTransaction_ptime (s : State) (data tnow : Word) (later : List Interaction) :
    (acceptTransaction s data tnow later).ptime = s.ptime := rfl
@[simp] theorem acceptTransaction_pinit (s : State) (data tnow : Word) (later : List Interaction) :
    (acceptTransaction s data tnow later).pinit = s.pinit := rfl
@[simp] theorem acceptTransaction_pout (s : State) (data tnow : Word) (later : List Interaction) :
    (acceptTransaction s data tnow later).pout = s.pout := rfl
@[simp] theorem acceptTransaction_target (s : State) (data tnow : Word) (later : List Interaction) :
    (acceptTransaction s data tnow later).target = s.target := rfl
@[simp] theorem acceptTransaction_hystOn (s : State) (data tnow : Word) (later : List Interaction) :
    (acceptTransaction s data tnow later).hystOn = s.hystOn := rfl
@[simp] theorem acceptTransaction_aggOut (s : State) (data tnow : Word) (later : List Interaction) :
    (acceptTransaction s data tnow later).aggOut = s.aggOut := rfl
@[simp] theorem acceptTransaction_aggPwm (s : State) (data tnow : Word) (later : List Interaction) :
    (acceptTransaction s data tnow later).aggPwm = s.aggPwm := rfl
@[simp] theorem acceptTransaction_kp (s : State) (data tnow : Word) (later : List Interaction) :
    (acceptTransaction s data tnow later).kp = s.kp := rfl
@[simp] theorem acceptTransaction_ki (s : State) (data tnow : Word) (later : List Interaction) :
    (acceptTransaction s data tnow later).ki = s.ki := rfl
@[simp] theorem acceptTransaction_kd (s : State) (data tnow : Word) (later : List Interaction) :
    (acceptTransaction s data tnow later).kd = s.kd := rfl
@[simp] theorem acceptTransaction_pidThr (s : State) (data tnow : Word) (later : List Interaction) :
    (acceptTransaction s data tnow later).pidThr = s.pidThr := rfl
@[simp] theorem acceptTransaction_hystBand (s : State) (data tnow : Word) (later : List Interaction) :
    (acceptTransaction s data tnow later).hystBand = s.hystBand := rfl
@[simp] theorem acceptTransaction_minSi (s : State) (data tnow : Word) (later : List Interaction) :
    (acceptTransaction s data tnow later).minSi = s.minSi := rfl
@[simp] theorem acceptTransaction_ctrl (s : State) (data tnow : Word) (later : List Interaction) :
    (acceptTransaction s data tnow later).ctrl = s.ctrl := rfl
@[simp] theorem acceptTransaction_iclamp (s : State) (data tnow : Word) (later : List Interaction) :
    (acceptTransaction s data tnow later).iclamp = s.iclamp := rfl
@[simp] theorem acceptTransaction_active (s : State) (data tnow : Word) (later : List Interaction) :
    (acceptTransaction s data tnow later).active = s.active := rfl
@[simp] theorem acceptTransaction_aggTmin (s : State) (data tnow : Word) (later : List Interaction) :
    (acceptTransaction s data tnow later).aggTmin = s.aggTmin := rfl
@[simp] theorem acceptTransaction_aggTmax (s : State) (data tnow : Word) (later : List Interaction) :
    (acceptTransaction s data tnow later).aggTmax = s.aggTmax := rfl
@[simp] theorem acceptTransaction_aggPmin (s : State) (data tnow : Word) (later : List Interaction) :
    (acceptTransaction s data tnow later).aggPmin = s.aggPmin := rfl
@[simp] theorem acceptTransaction_aggPmax (s : State) (data tnow : Word) (later : List Interaction) :
    (acceptTransaction s data tnow later).aggPmax = s.aggPmax := rfl
@[simp] theorem acceptTransaction_drive (s : State) (data tnow : Word) (later : List Interaction) :
    (acceptTransaction s data tnow later).drive = s.drive := rfl
@[simp] theorem acceptTransaction_queue (s : State) (data tnow : Word) (later : List Interaction) :
    (acceptTransaction s data tnow later).queue = later := rfl
@[simp] theorem acceptTransaction_data (s : State) (data tnow : Word) (later : List Interaction) :
    (acceptTransaction s data tnow later).data = data := rfl
@[simp] theorem acceptTransaction_tnow (s : State) (data tnow : Word) (later : List Interaction) :
    (acceptTransaction s data tnow later).tnow = tnow := rfl
@[simp] theorem acceptTransaction_response (s : State) (data tnow : Word) (later : List Interaction) :
    (acceptTransaction s data tnow later).response = s.response := rfl

/-! ## Flags after an update -/

@[simp] theorem respond_faulted (s : State) (c : Status) (r : Word) (ch : Channel) :
    (s.respond c r).faulted ch = s.faulted ch := rfl
@[simp] theorem respond_sampled (s : State) (c : Status) (r : Word) (ch : Channel) :
    (s.respond c r).sampled ch = s.sampled ch := rfl
@[simp] theorem respond_pidStarted (s : State) (c : Status) (r : Word) (ch : Channel) :
    (s.respond c r).pidStarted ch = s.pidStarted ch := rfl
@[simp] theorem respond_isActive (s : State) (c : Status) (r : Word) (ch : Channel) :
    (s.respond c r).isActive ch = s.isActive ch := rfl
@[simp] theorem respond_heating (s : State) (c : Status) (r : Word) (x : Sec) :
    (s.respond c r).heating x = s.heating x := rfl
@[simp] theorem respond_driven (s : State) (c : Status) (r : Word) (ch : Channel) :
    (s.respond c r).driven ch = s.driven ch := rfl

end Sys2Proof.Laws
end

