-- ==== Sys2Proof/Laws/Registers.lean ====
section
/-! SUPPORT. Laws of the register map: addresses and registers determine each other, what a write changes, and how a
frame over registers becomes a frame over addresses. -/

namespace Sys2Proof.Laws

open Sys2Proof.Machine

theorem windowIndex_some {base n a : Nat} {i : Fin n} (h : windowIndex base n a = some i) : a = base + i.val := by
  unfold windowIndex at h
  split at h
  · cases h
    simp
    omega
  · cases h

theorem windowIndex_add {base n i : Nat} (hi : i < n) : windowIndex base n (base + i) = some ⟨i, hi⟩ := by
  unfold windowIndex
  rw [dif_pos (by omega)]
  simp

theorem windowIndex_none {base n a : Nat} (h : a < base ∨ base + n ≤ a) : windowIndex base n a = none := by
  unfold windowIndex
  rw [dif_neg (by omega)]

theorem romWindowAt_some {nCal base a : Nat} {f : Fin 256 → Reg} {r : Reg} (h : romWindowAt nCal base a f = some r) :
    ∃ i : Fin 256, r = f i ∧ i.val < nCal ∧ a = base + i.val := by
  unfold romWindowAt at h
  split at h
  · rename_i i hi
    split at h
    · exact ⟨i, (Option.some.inj h).symm, ‹_›, windowIndex_some hi⟩
    · cases h
  · cases h

theorem singleRegAt_some {a : Nat} {r : Reg} (h : singleRegAt a = some r) : a = r.addr := by
  unfold singleRegAt at h
  split at h <;> cases h <;> rfl

/-- What the fixed part of the map can answer. -/
theorem fixedRegAt_some {a : Nat} {r : Reg} (h : fixedRegAt a = some r) : a = r.addr ∧ a < 0x0E8 := by
  unfold fixedRegAt at h
  obtain ⟨o, ho, hr⟩ := List.exists_of_findSome?_eq_some h
  cases hr
  simp only [List.mem_cons, List.not_mem_nil, or_false, Eq.comm (a := some r), Option.map_eq_some_iff] at ho
  rcases ho with ho | ho
  · have := singleRegAt_some ho
    refine ⟨this, ?_⟩
    unfold singleRegAt at ho
    split at ho <;> first | omega | cases ho
  · rcases ho with ⟨i, hi, rfl⟩ | ⟨i, hi, rfl⟩ | ⟨i, hi, rfl⟩ | ⟨i, hi, rfl⟩ | ⟨i, hi, rfl⟩ | ⟨i, hi, rfl⟩ |
      ⟨i, hi, rfl⟩ | ⟨i, hi, rfl⟩ | ⟨i, hi, rfl⟩ <;>
    · have ha := windowIndex_some hi
      have hlt := i.isLt
      exact ⟨ha, by omega⟩

/-- Nothing but the ROM windows is mapped from 0x0E8 up. -/
theorem fixedRegAt_none {a : Nat} (h : 0x0E8 ≤ a) : fixedRegAt a = none := by
  cases hr : fixedRegAt a with
  | none => rfl
  | some r => exact absurd (fixedRegAt_some hr).2 (by omega)

/-- What the register map can answer: a fixed register, or a ROM register below N_CAL. -/
theorem regAt_cases {p : Params} {addr : Half} {r : Reg} (h : regAt p addr = some r) :
    fixedRegAt addr.toNat = some r
    ∨ (∃ i : Fin 256, r = .romRaw i ∧ i.val < p.nCal ∧ addr.toNat = 0x100 + i.val)
    ∨ (∃ i : Fin 256, r = .romTemp i ∧ i.val < p.nCal ∧ addr.toNat = 0x200 + i.val) := by
  unfold regAt at h
  obtain ⟨o, ho, hr⟩ := List.exists_of_findSome?_eq_some h
  cases hr
  simp only [List.mem_cons, List.not_mem_nil, or_false, Eq.comm (a := some r)] at ho
  rcases ho with ho | ho | ho
  · exact .inl ho
  · exact .inr (.inl (romWindowAt_some ho))
  · exact .inr (.inr (romWindowAt_some ho))

/-- The register at an address has that address. -/
theorem regAt_addr {p : Params} {addr : Half} {r : Reg} (h : regAt p addr = some r) : addr.toNat = r.addr := by
  rcases regAt_cases h with h | ⟨i, rfl, -, h⟩ | ⟨i, rfl, -, h⟩
  · exact (fixedRegAt_some h).1
  · exact h
  · exact h

theorem regAt_of_fixed {p : Params} {addr : Half} {r : Reg} (h : fixedRegAt addr.toNat = some r) :
    regAt p addr = some r := by
  simp [regAt, h]

theorem regAt_romRaw {p : Params} {addr : Half} {i : Nat} (hi : i < 256) (hn : i < p.nCal)
    (ha : addr.toNat = 0x100 + i) : regAt p addr = some (.romRaw ⟨i, hi⟩) := by
  have h0 : fixedRegAt (0x100 + i) = none := fixedRegAt_none (by omega)
  simp [regAt, ha, h0, romWindowAt, windowIndex_add hi, hn]

theorem regAt_romTemp {p : Params} {addr : Half} {i : Nat} (hi : i < 256) (hn : i < p.nCal)
    (ha : addr.toNat = 0x200 + i) : regAt p addr = some (.romTemp ⟨i, hi⟩) := by
  have h1 : windowIndex 0x100 256 (0x200 + i) = none := windowIndex_none (by omega)
  have h0 : fixedRegAt (0x200 + i) = none := fixedRegAt_none (by omega)
  simp [regAt, ha, h0, romWindowAt, h1, windowIndex_add hi, hn]

/-- `peek` of an address where a fixed register stands. -/
theorem peek_fixed {s : State} {addr : Half} {r : Reg} (h : fixedRegAt addr.toNat = some r) :
    peek s addr = some (readReg s r) := by
  simp [peek, regAt_of_fixed h]

/-- A frame over registers is a frame over addresses. -/
theorem peek_frame {s t : State} {addrs : List Half} (hp : t.params = s.params)
    (h : ∀ r : Reg, BitVec.ofNat 16 r.addr ∉ addrs → readReg t r = readReg s r) :
    ∀ a : Half, a ∉ addrs → peek t a = peek s a := by
  intro a ha
  unfold peek
  rw [hp]
  cases hr : regAt s.params a with
  | none => rfl
  | some r =>
    have hra : a = BitVec.ofNat 16 r.addr := by
      rw [← regAt_addr hr]
      simp
    simp [h r (hra ▸ ha)]

end Sys2Proof.Laws
end

