-- ==== Sys2Proof/Laws/Meanings.lean ====
section
/-! SUPPORT. One lemma per shared operation and per meaning that says once everything it can do; later proofs cite it
instead of unfolding it. -/

namespace Sys2Proof.Laws

open Sys2Proof.Machine

/-! ## Drive requests -/

/-- A batch of gated writes changes DRIVE only. -/
theorem requestDriveAll_eq (s : State) (chs : List Channel) (d : Bool) :
    s.requestDriveAll chs d = { s with drive := (s.requestDriveAll chs d).drive } := by
  unfold State.requestDriveAll
  induction chs generalizing s with
  | nil => rfl
  | cons ch rest ih =>
    rw [List.foldl_cons, ih]
    rfl

/-- The DRIVE bits after a batch of gated writes. -/
theorem requestDriveAll_driven (s : State) (chs : List Channel) (d : Bool) (c : Channel) :
    (s.requestDriveAll chs d).driven c = if c ∈ chs then d && s.isActive c else s.driven c := by
  unfold State.requestDriveAll
  induction chs generalizing s with
  | nil => simp
  | cons ch rest ih =>
    have ha : (s.requestDrive ch d).isActive c = s.isActive c := rfl
    have hd : (s.requestDrive ch d).driven c = if c = ch then d && s.isActive ch else s.driven c := by
      simp [State.requestDrive, State.driven, State.isActive]
    rw [List.foldl_cons, ih, ha, hd]
    by_cases hc : c = ch
    · subst hc
      simp
    · simp [hc]

/-! ## Conversion -/

/-- `Convert` faults exactly at the extremes and is OK elsewhere. -/
theorem convert_cases (p : Params) (raw : Half) :
    ((raw.toNat = 0 ∨ p.rawMax.toNat ≤ raw.toNat) ∧ convert p raw = (.sensorFault, Config.sent))
    ∨ (¬ (raw.toNat = 0 ∨ p.rawMax.toNat ≤ raw.toNat) ∧ (convert p raw).1 = .ok) := by
  by_cases h : raw.toNat = 0 ∨ p.rawMax.toNat ≤ raw.toNat
  · exact .inl ⟨h, by simp [convert, h]⟩
  · refine .inr ⟨h, ?_⟩
    unfold convert
    simp only [if_neg h]
    split
    · rfl
    · split <;> rfl

/-- Everything SAMPLE can do. -/
theorem execSample_cases (ch : Channel) (raw : Half) (s : State) :
    (rateLimited s ch = true ∧
      execSample ch raw s = done (if s.faulted ch then .cachedFault else .cached) s.temp[ch] s)
    ∨ (rateLimited s ch = false ∧ (raw.toNat = 0 ∨ s.params.rawMax.toNat ≤ raw.toNat) ∧
      execSample ch raw s =
        done .sensorFault Config.sent (({ s with temp := s.temp.set ch Config.sent }).setFaulted ch true))
    ∨ (rateLimited s ch = false ∧ ¬ (raw.toNat = 0 ∨ s.params.rawMax.toNat ≤ raw.toNat) ∧
      (convert s.params raw).1 = .ok ∧
      execSample ch raw s = done .ok (convert s.params raw).2
        ((({ s with temp := s.temp.set ch (convert s.params raw).2, ts := s.ts.set ch s.tnow }).setFaulted ch
          false).setSampled ch true)) := by
  unfold execSample
  by_cases hr : rateLimited s ch = true
  · exact .inl ⟨hr, by rw [if_pos hr]⟩
  · rw [if_neg hr]
    have hr' : rateLimited s ch = false := by simpa using hr
    rcases convert_cases s.params raw with ⟨h, hc⟩ | ⟨h, hc⟩
    · exact .inr (.inl ⟨hr', h, by rw [hc]⟩)
    · refine .inr (.inr ⟨hr', h, hc, ?_⟩)
      cases hcv : convert s.params raw with
      | mk st v =>
        rw [hcv] at hc
        cases hc
        rfl

/-! ## The step -/

/-- A command always answers a next state with a response, and leaves the parameters and the port. -/
theorem exec_next (i : Instr) (s : State) :
    ∃ t r, exec i s = .next t ∧ t.response = some r ∧ t.params = s.params ∧ SamePort s t := by
  cases i with
  | nop => exact ⟨_, _, rfl, rfl, rfl, rfl, rfl, rfl⟩
  | conv raw => exact ⟨_, _, rfl, rfl, rfl, rfl, rfl, rfl⟩
  | sample ch raw =>
    show ∃ t r, execSample ch raw s = .next t ∧ _
    rcases execSample_cases ch raw s with ⟨-, h⟩ | ⟨-, -, h⟩ | ⟨-, -, -, h⟩ <;> rw [h] <;>
      exact ⟨_, _, rfl, rfl, rfl, rfl, rfl, rfl⟩
  | avg x => exact ⟨_, _, rfl, rfl, rfl, rfl, rfl, rfl⟩
  | hyst x =>
    show ∃ t r, execHyst x s = .next t ∧ _
    unfold execHyst
    cases s.params.strategy with
    | pid => exact ⟨_, _, rfl, rfl, rfl, rfl, rfl, rfl⟩
    | hyst =>
      simp only
      split <;> rw [requestDriveAll_eq] <;> exact ⟨_, _, rfl, rfl, rfl, rfl, rfl, rfl⟩
  | pid ch =>
    show ∃ t r, execPid ch s = .next t ∧ _
    unfold execPid
    cases s.params.strategy with
    | hyst => exact ⟨_, _, rfl, rfl, rfl, rfl, rfl, rfl⟩
    | pid =>
      simp only
      split
      · exact ⟨_, _, rfl, rfl, rfl, rfl, rfl, rfl⟩
      · split <;> exact ⟨_, _, rfl, rfl, rfl, rfl, rfl, rfl⟩
  | agg x =>
    show ∃ t r, execAgg x s = .next t ∧ _
    unfold execAgg
    split <;> exact ⟨_, _, rfl, rfl, rfl, rfl, rfl, rfl⟩
  | rdreg addr =>
    show ∃ t r, execRdreg addr s = .next t ∧ _
    unfold execRdreg
    split <;> exact ⟨_, _, rfl, rfl, rfl, rfl, rfl, rfl⟩
  | wrreg addr =>
    show ∃ t r, execWrreg addr s = .next t ∧ _
    unfold execWrreg
    split
    · exact ⟨_, _, rfl, rfl, rfl, rfl, rfl, rfl⟩
    · rename_i r _
      cases r <;> exact ⟨_, _, rfl, rfl, rfl, rfl, rfl, rfl⟩

/-- Everything a step that answers a next state can have done. -/
theorem step_cases {s t : State} (h : step s = .next t) :
    s.params.check = .ok () ∧
    ((s.queue = [] ∧ t = s)
    ∨ (∃ later, s.queue = .reset :: later ∧ t = State.resetWith s.params later)
    ∨ (∃ cmd data tnow later e, s.queue = .transaction cmd data tnow :: later ∧ decode cmd = .error e ∧
        t = (acceptTransaction s data tnow later).respond .eIllegal 0#32)
    ∨ (∃ cmd data tnow later i, s.queue = .transaction cmd data tnow :: later ∧ decode cmd = .ok i ∧
        exec i (acceptTransaction s data tnow later) = .next t)) := by
  unfold step at h
  split at h
  · cases h
  · rename_i u hc
    refine ⟨hc, ?_⟩
    split at h
    · injection h with h
      exact .inl ⟨‹_›, h.symm⟩
    · injection h with h
      exact .inr (.inl ⟨_, ‹_›, h.symm⟩)
    · rename_i cmd data tnow later hq
      unfold runTransaction at h
      cases hd : decode cmd with
      | error e =>
        rw [hd] at h
        injection h with h
        exact .inr (.inr (.inl ⟨_, _, _, _, e, hq, hd, h.symm⟩))
      | ok i =>
        rw [hd] at h
        exact .inr (.inr (.inr ⟨_, _, _, _, i, hq, hd, h⟩))

end Sys2Proof.Laws
end

