-- ==== Sys2Proof/Laws/PerInstr.lean ====
section
/-! SUPPORT. Laws of the command word, and facts made per instruction, one lemma per constructor of `Instr`. -/

namespace Sys2Proof.Laws

/-- Every bit of a packed command word (30_encoding R101). -/
theorem packCommand_bit (opc : BitVec 4) (ch : Channel) (s : Sec) (imm : Half) (k : Nat) :
    (packCommand opc ch s imm).getLsbD k =
      if k < 16 then imm.getLsbD k else if k < 22 then false else if k < 24 then (BitVec.ofFin (w := 2) s).getLsbD (k - 22)
      else if k < 28 then (BitVec.ofFin (w := 4) ch).getLsbD (k - 24) else opc.getLsbD (k - 28) := by
  unfold packCommand
  simp only [BitVec.getLsbD_append, BitVec.getLsbD_zero]
  by_cases h1 : k < 16
  · simp [h1]
  by_cases h2 : k < 22
  · have : k - 16 < 6 := by omega
    simp [h1, h2, this]
  have h2' : ¬ k - 16 < 6 := by omega
  by_cases h3 : k < 24
  · have h : k - 16 - 6 < 2 := by omega
    have e : k - 16 - 6 = k - 22 := by omega
    rw [if_neg h1, if_neg h2', if_pos h, if_neg h1, if_neg h2, if_pos h3, e]
  have h3' : ¬ k - 16 - 6 < 2 := by omega
  have e : k - 16 - 6 - 2 = k - 24 := by omega
  rw [if_neg h1, if_neg h2', if_neg h3', if_neg h1, if_neg h2, if_neg h3, e]
  by_cases h4 : k < 28
  · rw [if_pos h4, if_pos (by omega)]
  · have e' : k - 24 - 4 = k - 28 := by omega
    rw [if_neg h4, if_neg (by omega), e']

/-- The OPC field of a packed command word. -/
@[simp] theorem packCommand_opc (opc : BitVec 4) (ch : Channel) (s : Sec) (imm : Half) :
    opcField (packCommand opc ch s imm) = opc := by
  refine BitVec.eq_of_getLsbD_eq fun i hi => ?_
  unfold opcField
  rw [BitVec.getLsbD_extractLsb', packCommand_bit]
  interval_cases i <;> rfl

/-- The CH field of a packed command word. -/
@[simp] theorem packCommand_ch (opc : BitVec 4) (ch : Channel) (s : Sec) (imm : Half) :
    chField (packCommand opc ch s imm) = ch := by
  suffices h : (packCommand opc ch s imm).extractLsb' 24 4 = BitVec.ofFin (w := 4) ch by
    unfold chField
    rw [h]
  refine BitVec.eq_of_getLsbD_eq fun i hi => ?_
  rw [BitVec.getLsbD_extractLsb', packCommand_bit]
  interval_cases i <;> rfl

/-- The SEC field of a packed command word. -/
@[simp] theorem packCommand_sec (opc : BitVec 4) (ch : Channel) (s : Sec) (imm : Half) :
    secField (packCommand opc ch s imm) = s := by
  suffices h : (packCommand opc ch s imm).extractLsb' 22 2 = BitVec.ofFin (w := 2) s by
    unfold secField
    rw [h]
  refine BitVec.eq_of_getLsbD_eq fun i hi => ?_
  rw [BitVec.getLsbD_extractLsb', packCommand_bit]
  interval_cases i <;> rfl

/-- The IMM16 field of a packed command word. -/
@[simp] theorem packCommand_imm (opc : BitVec 4) (ch : Channel) (s : Sec) (imm : Half) :
    imm16Field (packCommand opc ch s imm) = imm := by
  refine BitVec.eq_of_getLsbD_eq fun i hi => ?_
  unfold imm16Field
  rw [BitVec.getLsbD_extractLsb', packCommand_bit]
  interval_cases i <;> rfl

namespace EncodeFitsRow

/-- The word of an operation fits the operation's row of the opcode map: every bit the row compares is as the row's match
says (30_encoding R94, R101). -/
def Statement (i : Instr) : Prop :=
  ∃ row, opcodeRow i.opc = some row ∧ encode i &&& row.mask = row.pattern

theorem nop : Statement .nop := ⟨_, rfl, rfl⟩

theorem conv (raw : Half) : Statement (.conv raw) := by
  refine ⟨_, rfl, BitVec.eq_of_getLsbD_eq fun i hi => ?_⟩
  rw [encode, BitVec.getLsbD_and, packCommand_bit]
  interval_cases i <;> simp [Instr.opc]

theorem sample (ch : Channel) (raw : Half) : Statement (.sample ch raw) := by
  refine ⟨_, rfl, BitVec.eq_of_getLsbD_eq fun i hi => ?_⟩
  rw [encode, BitVec.getLsbD_and, packCommand_bit]
  interval_cases i <;> simp [Instr.opc]

theorem avg (x : Sec) : Statement (.avg x) := by
  refine ⟨_, rfl, ?_⟩
  revert x
  decide

theorem hyst (x : Sec) : Statement (.hyst x) := by
  refine ⟨_, rfl, ?_⟩
  revert x
  decide

theorem pid (ch : Channel) : Statement (.pid ch) := by
  refine ⟨_, rfl, ?_⟩
  revert ch
  decide

theorem agg (x : Sec) : Statement (.agg x) := by
  refine ⟨_, rfl, ?_⟩
  revert x
  decide

theorem rdreg (addr : Half) : Statement (.rdreg addr) := by
  refine ⟨_, rfl, BitVec.eq_of_getLsbD_eq fun i hi => ?_⟩
  rw [encode, BitVec.getLsbD_and, packCommand_bit]
  interval_cases i <;> simp [Instr.opc]

theorem wrreg (addr : Half) : Statement (.wrreg addr) := by
  refine ⟨_, rfl, BitVec.eq_of_getLsbD_eq fun i hi => ?_⟩
  rw [encode, BitVec.getLsbD_and, packCommand_bit]
  interval_cases i <;> simp [Instr.opc]

end EncodeFitsRow

end Sys2Proof.Laws
end

