-- ==== Sys2Proof/Laws/Values.lean ====
section
/-! SUPPORT. The rational value of a binary32 pattern against the model's own decoding of it, negation, arithmetic on
finite operands, and rounding to the nearest integer. -/

namespace Sys2Proof.Laws

open Sys2Proof.Machine

/-- The value of a finite pattern is its signed magnitude in units of 2^-149. -/
theorem binary32Value_of_fin {w : Word} {neg : Bool} {mag : Nat} (h : decodeF32 w = .fin neg mag) :
    binary32Value w = some ((signedMag neg mag : ℚ) / 2 ^ 149) := by
  unfold decodeF32 at h
  unfold binary32Value
  simp only
  split at h
  · split at h <;> cases h
  · rename_i h255
    split at h
    · rename_i h0
      cases h
      rw [if_neg h255, if_pos h0]
      congr 1
      cases signBit w <;> simp <;> ring
    · rename_i h0
      cases h
      rw [if_neg h255, if_neg h0]
      obtain ⟨e, he⟩ : ∃ e, expField w = e + 1 := ⟨expField w - 1, by omega⟩
      rw [he]
      congr 1
      cases signBit w <;> simp [pow_succ] <;> ring

/-- A pattern with a value decodes to a signed magnitude. -/
theorem decodeF32_of_value {w : Word} {x : ℚ} (h : binary32Value w = some x) :
    ∃ mag, decodeF32 w = .fin (signBit w) mag ∧ x = (signedMag (signBit w) mag : ℚ) / 2 ^ 149 := by
  have hfin : ∃ mag, decodeF32 w = .fin (signBit w) mag := by
    unfold binary32Value at h
    unfold decodeF32
    simp only at h
    split at h
    · cases h
    · rename_i h255
      rw [if_neg h255]
      split
      · exact ⟨_, rfl⟩
      · exact ⟨_, rfl⟩
  obtain ⟨mag, hmag⟩ := hfin
  rw [binary32Value_of_fin hmag] at h
  exact ⟨mag, hmag, (Option.some.inj h).symm⟩

/-! ## Negation -/

/-- Flipping bit 31 of a number below 2^31 sets it. -/
theorem xor_two_pow_31 {n : ℕ} (h : n < 2 ^ 31) : n ^^^ 2 ^ 31 = 2 ^ 31 + n := by
  refine Nat.eq_of_testBit_eq fun i => ?_
  rw [Nat.testBit_xor, Nat.testBit_two_pow]
  rcases Nat.lt_trichotomy i 31 with hi | rfl | hi
  · rw [Nat.testBit_two_pow_add_gt hi, decide_eq_false (by omega), Bool.xor_false]
  · rw [Nat.testBit_two_pow_add_eq, decide_eq_true rfl, Bool.xor_true]
  · have hp : (2 : ℕ) ^ 32 ≤ 2 ^ i := Nat.pow_le_pow_right (by norm_num) hi
    rw [decide_eq_false (by omega), Bool.xor_false, Nat.testBit_lt_two_pow (by omega),
      Nat.testBit_lt_two_pow (by omega)]

/-- Negation flips the sign of a pattern and keeps bits 30..0. -/
theorem fneg_pack (neg : Bool) {low : ℕ} (h : low < 2 ^ 31) : fneg (packF32 neg low) = packF32 (!neg) low := by
  apply BitVec.eq_of_toNat_eq
  unfold fneg
  rw [BitVec.toNat_xor, packF32_toNat _ h, packF32_toNat _ h]
  cases neg
  · simpa using xor_two_pow_31 h
  · have h31 := xor_two_pow_31 h
    simp only [if_true, Bool.not_true, Bool.false_eq_true, if_false, Nat.zero_add]
    rw [← h31]
    exact Nat.xor_xor_cancel_right low (2 ^ 31)

@[simp] theorem signBit_fneg (w : Word) : signBit (fneg w) = !signBit w := by
  have hlow : w.toNat % 2 ^ 31 < 2 ^ 31 := Nat.mod_lt _ (by norm_num)
  conv_lhs => rw [eq_pack w, fneg_pack _ hlow]
  exact signBit_pack _ hlow

@[simp] theorem fneg_fneg (w : Word) : fneg (fneg w) = w := by
  unfold fneg
  rw [BitVec.xor_assoc]
  simp

/-- The negation of a finite pattern has the other sign and the same magnitude. -/
theorem decodeF32_fneg_fin {w : Word} {neg : Bool} {mag : ℕ} (h : decodeF32 w = .fin neg mag) :
    decodeF32 (fneg w) = .fin (!neg) mag := by
  obtain ⟨low, hlow, rfl, rfl⟩ := decodeF32_fin_iff.1 h
  rw [fneg_pack _ (by omega)]
  exact decodeF32_pack_fin _ hlow

/-- The one pattern of each infinity. -/
theorem eq_infPattern {w : Word} {neg : Bool} (h : decodeF32 w = .inf neg) : w = infPattern neg := by
  unfold decodeF32 at h
  split at h
  · rename_i he
    split at h
    · rename_i hf
      cases h
      unfold expField at he
      unfold fracField at hf
      rw [infPattern_eq_pack]
      conv_lhs => rw [eq_pack w]
      rw [show w.toNat % 2 ^ 31 = 0x7F800000 by omega]
    · cases h
  · split at h <;> cases h

/-- The negation of a NaN is a NaN. -/
theorem decodeF32_fneg_nan {w : Word} (h : decodeF32 w = .nan) : decodeF32 (fneg w) = .nan := by
  cases hn : decodeF32 (fneg w) with
  | nan => rfl
  | inf p =>
    have hw : w = infPattern (!p) := by
      rw [← fneg_fneg w, eq_infPattern hn]
      cases p <;> decide
    rw [hw, decodeF32_infPattern] at h
    cases h
  | fin p m =>
    have hw := decodeF32_fneg_fin hn
    rw [fneg_fneg, h] at hw
    cases hw

/-! ## Arithmetic on finite operands: one rounding of the exact result -/

theorem fadd_fin {a b : Word} {p q : Bool} {m n : ℕ} (ha : decodeF32 a = .fin p m) (hb : decodeF32 b = .fin q n) :
    fadd a b = if signedMag p m + signedMag q n = 0 then zeroPattern (p && q)
      else packF32 (decide (signedMag p m + signedMag q n < 0)) (roundMag (signedMag p m + signedMag q n).natAbs 1) := by
  unfold fadd
  rw [ha, hb]

theorem fmul_fin {a b : Word} {p q : Bool} {m n : ℕ} (ha : decodeF32 a = .fin p m) (hb : decodeF32 b = .fin q n) :
    fmul a b = packF32 (p ^^ q) (roundMag (m * n) (2 ^ 149)) := by
  unfold fmul
  rw [ha, hb]

theorem fdiv_fin {a b : Word} {p q : Bool} {m n : ℕ} (ha : decodeF32 a = .fin p m) (hb : decodeF32 b = .fin q n)
    (hn : n ≠ 0) : fdiv a b = packF32 (p ^^ q) (roundMag (2 ^ 149 * m) n) := by
  unfold fdiv
  rw [ha, hb]
  exact if_neg hn

/-! ## Rounding -/

/-- An integer multiple of `den` lies at least as far from `q * den + r` as the multiple on its own side. -/
theorem multiple_distance {q r den : ℕ} (hr : r < den) (t : ℤ) :
    (t = q ∨ t < q ∧ (r : ℤ) + den ≤ |t * den - (q * den + r)|) ∨
    (t = q + 1 ∨ q + 1 < t ∧ (2 * den : ℤ) - r ≤ |t * den - (q * den + r)|) := by
  have hd : (0 : ℤ) ≤ den := Int.natCast_nonneg den
  have hrd : (r : ℤ) < den := by exact_mod_cast hr
  rcases lt_trichotomy t q with h | h | h
  · refine .inl (.inr ⟨h, ?_⟩)
    have h1 : 0 ≤ ((q : ℤ) - 1 - t) * den := mul_nonneg (by omega) hd
    rw [abs_of_nonpos (by nlinarith)]
    nlinarith
  · exact .inl (.inl h)
  · rcases Int.lt_or_eq_of_le h with h' | h'
    · refine .inr (.inr ⟨h', ?_⟩)
      have h1 : 0 ≤ (t - (q + 2)) * den := mul_nonneg (by omega) hd
      rw [abs_of_nonneg (by nlinarith)]
      nlinarith
    · exact .inr (.inl h'.symm)

/-- Rounding half to even is at least as near as every integer, and even where another is as near. -/
theorem roundHalfEven_nearest {num den : Nat} (hden : 0 < den) (t : ℤ) :
    |(roundHalfEven num den : ℤ) * den - num| ≤ |t * den - num|
    ∧ (|(roundHalfEven num den : ℤ) * den - num| = |t * den - num| →
        t ≠ (roundHalfEven num den : ℕ) → roundHalfEven num den % 2 = 0) := by
  have hr : num % den < den := Nat.mod_lt _ hden
  have hnum : (num : ℤ) = (num / den : ℕ) * den + (num % den : ℕ) := by
    have h := Nat.div_add_mod' num den
    exact_mod_cast h.symm
  have hlow : |((num / den : ℕ) : ℤ) * den - num| = (num % den : ℕ) := by
    rw [hnum, show ((num / den : ℕ) : ℤ) * den - ((num / den : ℕ) * den + (num % den : ℕ)) = -((num % den : ℕ) : ℤ) by
      ring, abs_neg, abs_of_nonneg (Int.natCast_nonneg _)]
  have hhigh : |(((num / den : ℕ) : ℤ) + 1) * den - num| = den - (num % den : ℕ) := by
    rw [hnum, show (((num / den : ℕ) : ℤ) + 1) * den - ((num / den : ℕ) * den + (num % den : ℕ))
      = den - ((num % den : ℕ) : ℤ) by ring, abs_of_nonneg (by omega)]
  have hfar := multiple_distance (q := num / den) hr t
  rw [← hnum] at hfar
  unfold roundHalfEven
  simp only
  split
  · rename_i hup
    rw [Nat.cast_add, Nat.cast_one]
    rw [hhigh]
    rcases hfar with (rfl | ⟨_, h⟩) | (rfl | ⟨_, h⟩)
    · rw [hlow]
      constructor <;> omega
    · constructor <;> omega
    · rw [hhigh]
      exact ⟨le_rfl, fun _ hne => absurd rfl hne⟩
    · constructor <;> omega
  · rename_i hdown
    rw [hlow]
    rcases hfar with (rfl | ⟨_, h⟩) | (rfl | ⟨_, h⟩)
    · rw [hlow]
      exact ⟨le_rfl, fun _ hne => absurd rfl hne⟩
    · constructor <;> omega
    · rw [hhigh]
      constructor <;> omega
    · constructor <;> omega

end Sys2Proof.Laws
end

