-- ==== Sys2Proof/Tests/Slice0.lean ====
section
/-! SUPPORT. Tests: ill-formed parameter sets refused clause by clause, words written out from 30_encoding, one-step
tests from the vectors of 95_test_vectors (each named by its vector), and for every obligation with hypotheses a state
and operands that meet them. Expected values come from the spec's vectors, never from the model. -/

namespace Sys2Proof.Tests

open Sys2Proof Sys2Proof.Machine

/-! ## Helpers -/

/-- The fixture of 95_test_vectors section 1, with a strategy. -/
def fixture (st : Strategy) : Params := { Config.resetParams with strategy := st }

/-- The state right after RESET with the fixture. -/
def fresh (st : Strategy) : State := State.resetWith (fixture st) []

/-- The state an answer goes on in. -/
def nextOf : Answer → Option State
  | .next t => some t
  | .fault _ => none
  | .refused _ => none

/-- The response of an operation. -/
def reply (i : Instr) (s : State) : Option Response := (nextOf (exec i s)).bind (·.response)

/-- One observation of the state after an operation. -/
def seen {α : Type} (i : Instr) (s : State) (f : State → α) : Option α := (nextOf (exec i s)).map f

/-- A section 0 with channel 0 at `t0`, sampled at tick 1000, target 60.0 and channels 0..3 active. -/
def warm (st : Strategy) (t0 : Word) : State :=
  { fresh st with
    temp := (fresh st).temp.set 0 t0, ts := (fresh st).ts.set 0 1000#32, tsVld := 0x0001#16, tflt := 0xFFFE#16
    active := 0x000F#16, target := (fresh st).target.set 0 0x42700000#32, minSi := 1000#32 }

/-- `warm` with the aggregate range [0.0, 100.0] to [0, 255]. -/
def ranged (t0 : Word) : State := { warm .hyst t0 with aggTmax := 0x42C80000#32, aggPmax := 255#16 }

/-- Section 0 of vectors AV1 to AV3: 58.5, 59.5, 60.5, 61.5, all valid. -/
def fourWarm (active : Half) : State :=
  { fresh .hyst with
    temp := (((fresh .hyst).temp.set 0 0x426A0000#32).set 1 0x426E0000#32 |>.set 2 0x42720000#32).set 3 0x42760000#32
    tflt := 0xFFF0#16, tsVld := 0x000F#16, active := active }

/-- The PID gains of vector PI8, channel 0 valid at `t0`, a first update done at tick 1000 with error 2.0. -/
def looping (t0 now : Word) : State :=
  { warm .pid t0 with
    kp := 0x3F000000#32, ki := 0x3E800000#32, kd := 0x3E000000#32, pinit := 0x0001#16
    perr := (fresh .pid).perr.set 0 0x40000000#32, ptime := (fresh .pid).ptime.set 0 1000#32, tnow := now }

/-! ## Well-formedness: each clause of 00_scope R11 refuses an ill-formed set -/

/-- A parameter set with RAW_MAX 1023 and TICK_HZ 1000. -/
def withRom (rom : List CalPoint) : Params := ⟨rom, 1023#16, 1000#32, .hyst⟩

theorem test_admits_fixture : (fixture .hyst).check = .ok () := by decide
theorem test_refuses_one_point : (withRom [⟨100#16, 0#32⟩]).check = .error .tooFewPoints := by decide
theorem test_refuses_257_points :
    (withRom (List.replicate 257 ⟨100#16, 0#32⟩)).check = .error .tooManyPoints := by
  have h : (withRom (List.replicate 257 ⟨100#16, 0#32⟩)).nCal = 257 := List.length_replicate
  unfold Params.check
  rw [if_neg (by omega), if_pos (by omega)]
theorem test_refuses_equal_raws :
    (withRom [⟨100#16, 0#32⟩, ⟨100#16, 0x42480000#32⟩]).check = .error .rawNotIncreasing := by decide
theorem test_refuses_infinite_temperature :
    (withRom [⟨100#16, 0#32⟩, ⟨300#16, 0x7F800000#32⟩]).check = .error .tempNotFinite := by decide
theorem test_refuses_nan_temperature :
    (withRom [⟨100#16, 0xFFC00000#32⟩, ⟨300#16, 0#32⟩]).check = .error .tempNotFinite := by decide
theorem test_refuses_raw_max_1 :
    ({ fixture .pid with rawMax := 1#16 } : Params).check = .error .rawMaxIllegal := by decide
theorem test_refuses_tick_hz_0 :
    ({ fixture .pid with tickHz := 0#32 } : Params).check = .error .tickHzIllegal := by decide
theorem test_refuses_tick_hz_above_2_24 :
    ({ fixture .pid with tickHz := 0x01000001#32 } : Params).check = .error .tickHzIllegal := by decide
theorem test_admits_extreme_parameters :
    (⟨[⟨0#16, 0xFF7FFFFF#32⟩, ⟨65535#16, 0x7F7FFFFF#32⟩], 2#16, 0x01000000#32, .pid⟩ : Params).admitted = true := by
  decide

/-! ## Decoding: words written out field by field (30_encoding R90, R94; vectors DE) -/

theorem test_decodes_nop : decode 0b0000_0000_00_000000_0000000000000000#32 = .ok .nop := by decide
theorem test_decodes_conv : decode 0b0001_0000_00_000000_0000000111010110#32 = .ok (.conv 470#16) := by decide
theorem test_decodes_sample : decode 0b0010_0011_00_000000_0000000111010110#32 = .ok (.sample 3 470#16) := by decide
theorem test_decodes_avg : decode 0b0011_0000_11_000000_0000000000000000#32 = .ok (.avg 3) := by decide
theorem test_decodes_hyst : decode 0b0100_0000_10_000000_0000000000000000#32 = .ok (.hyst 2) := by decide
theorem test_decodes_pid : decode 0b0101_1101_00_000000_0000000000000000#32 = .ok (.pid 13) := by decide
theorem test_decodes_agg : decode 0b0110_0000_01_000000_0000000000000000#32 = .ok (.agg 1) := by decide
theorem test_decodes_rdreg : decode 0b0111_0000_00_000000_0000000011010001#32 = .ok (.rdreg 0x0D1#16) := by decide
theorem test_decodes_wrreg : decode 0b1000_0000_00_000000_0000000000100000#32 = .ok (.wrreg 0x020#16) := by decide

/-- Vectors DE2 to DE29: the illegal words. -/
theorem test_illegal_words :
    [0x00000001#32, 0x08000000#32, 0x90000000#32, 0xF0000000#32, 0xFFFFFFFF#32, 0x10400000#32, 0x11000000#32,
      0x20010000#32, 0x20400000#32, 0x30000001#32, 0x31000000#32, 0x41000000#32, 0x50400000#32, 0x50000001#32,
      0x60000100#32, 0x7F000000#32, 0x70400000#32, 0x80C00010#32].all (fun w => (decode w).toOption.isNone) = true := by
  decide

/-- The examples of 30_encoding R101. -/
theorem test_encodes_examples :
    encode (.sample 3 470#16) = 0x230001D6#32 ∧ encode (.hyst 1) = 0x40400000#32
      ∧ encode (.wrreg 0x020#16) = 0x80000020#32 := by decide

theorem test_table_word_sample : decodeTableWord 32 0x2F00FFFF = some (.sample 15 65535#16) := by decide

/-! ## One step of each operation (95_test_vectors section 3) -/

/-- DE1 and RG20. -/
theorem test_nop : reply .nop { fresh .hyst with data := 0xFFFFFFFF#32 } = some ⟨.ok, 0#32⟩ := by decide

/-- CV10 and CV3a. -/
theorem test_conv_inside_and_below :
    reply (.conv 470#16) (fresh .hyst) = some ⟨.ok, 0x426A0000#32⟩
      ∧ reply (.conv 1#16) (fresh .hyst) = some ⟨.ok, 0xC1C60000#32⟩ := by decide

/-- CV23, which rounds, and CV2. -/
theorem test_conv_above_and_fault :
    reply (.conv 1022#16) (fresh .hyst) = some ⟨.ok, 0x4340B333#32⟩
      ∧ reply (.conv 1023#16) (fresh .hyst) = some ⟨.sensorFault, 0xC479C000#32⟩ := by decide

/-- SA2 and SA3: elapsed 999 is cached, elapsed 1000 converts. -/
theorem test_sample_interval :
    reply (.sample 0 900#16) { warm .hyst 0x426A0000#32 with tnow := 1999#32 } = some ⟨.cached, 0x426A0000#32⟩
      ∧ reply (.sample 0 900#16) { warm .hyst 0x426A0000#32 with tnow := 2000#32 } = some ⟨.ok, 0x43160000#32⟩ := by
  decide

/-- SA9, second transaction: a fault keeps TS and TS_VLD. -/
theorem test_sample_fault_keeps_time :
    seen (.sample 0 0#16) { warm .hyst 0x426A0000#32 with tnow := 2200#32 }
        (fun t => (t.temp[0], t.ts[0], t.tsVld, t.tflt))
      = some (0xC479C000#32, 1000#32, 0x0001#16, 0xFFFF#16) := by decide

/-- AV1 and AV2. -/
theorem test_avg_active_and_all :
    reply (.avg 0) (fourWarm 0x5#16) = some ⟨.ok, 0x426E0000#32⟩
      ∧ reply (.avg 0) (fourWarm 0x0#16) = some ⟨.avgAll, 0x42700000#32⟩ := by decide

/-- AV7, which rounds: (50.0 + 51.0 + 58.5) / 3. -/
theorem test_avg_rounds :
    reply (.avg 0) { fourWarm 0x7#16 with
      temp := (((fresh .hyst).temp.set 0 0x42480000#32).set 1 0x424C0000#32).set 2 0x426A0000#32
      tflt := 0xFFF8#16 } = some ⟨.ok, 0x4254AAAB#32⟩ := by decide

/-- HY27: on below `lo`, gated by ACTIVE. -/
theorem test_hyst_turns_on :
    seen (.hyst 0) { warm .hyst 0x42660000#32 with active := 0x0005#16 } (fun t => (t.hystOn, t.drive))
      = some (0x1#4, 0x0005#16) := by decide

/-- HY18 and HY20: equal to `lo` holds, above `hi` turns off. -/
theorem test_hyst_holds_and_turns_off :
    seen (.hyst 0) { warm .hyst 0x42680000#32 with hystOn := 0x1#4 } (fun t => (t.hystOn, t.drive))
        = some (0x1#4, 0x000F#16)
      ∧ seen (.hyst 0) { warm .hyst 0x427A0000#32 with hystOn := 0x1#4, drive := 0x000F#16 }
        (fun t => (t.hystOn, t.drive)) = some (0x0#4, 0x0000#16) := by decide

/-- PI8, second update: e = 0.5, I = 0.5, D = -0.1875, output 0.1875. -/
theorem test_pid_update :
    seen (.pid 0) (looping 0x426E0000#32 2000#32) (fun t => (t.pout[0], t.integ[0], t.perr[0], t.ptime[0], t.drive))
      = some (0x3E400000#32, 0x3F000000#32, 0x3F000000#32, 2000#32, 0x0000#16) := by decide

/-- PI1: output clamped to 1.0 on the first update. -/
theorem test_pid_clamps :
    seen (.pid 0) { warm .pid 0x41200000#32 with kp := 0x42C80000#32, active := 0x0001#16 }
        (fun t => (t.pout[0], t.pinit, t.drive))
      = some (0x3F800000#32, 0x0001#16, 0x0001#16) := by decide

/-- AG8, which rounds. -/
theorem test_agg_rounds :
    reply (.agg 0) (ranged 0x426A0000#32) = some ⟨.ok, 0x42D3A666#32⟩
      ∧ seen (.agg 0) (ranged 0x426A0000#32) (fun t => (t.aggOut[0], t.aggPwm[0]))
        = some (0x42D3A666#32, 105#16) := by decide

/-- AG2 and AG6: the 25.0 default, and an average above the range. -/
theorem test_agg_default_and_clamp :
    reply (.agg 1) (ranged 0x426A0000#32) = some ⟨.avgDefault, 0x433F4000#32⟩
      ∧ reply (.agg 0) (ranged 0x43160000#32) = some ⟨.ok, 0x00000000#32⟩ := by decide

/-- RG2, RG9 and RG11. -/
theorem test_rdreg :
    reply (.rdreg 0x000#16) (State.resetWith { fixture .pid with rawMax := 4095#16 } []) = some ⟨.ok, 0x0FFF0205#32⟩
      ∧ reply (.rdreg 0x104#16) (fresh .hyst) = some ⟨.ok, 0x00000384#32⟩
      ∧ reply (.rdreg 0x105#16) (fresh .hyst) = some ⟨.eRegAddr, 0#32⟩ := by decide

/-- RG18 and RG19. -/
theorem test_wrreg_failures :
    [0x000#16, 0x001#16, 0x040#16, 0x061#16, 0x0D1#16, 0x100#16, 0x200#16].all
        (fun a => reply (.wrreg a) { fresh .hyst with data := 1#32 } == some ⟨.eRegRo, 0#32⟩) = true
      ∧ [0x019#16, 0x105#16].all
        (fun a => reply (.wrreg a) { fresh .hyst with data := 1#32 } == some ⟨.eRegAddr, 0#32⟩) = true := by decide

/-- RG15 and RG16: reserved bits dropped. -/
theorem test_wrreg_drops_reserved_bits :
    seen (.wrreg 0x017#16) { fresh .hyst with data := 0xFFFFFFFF#32 } (peek · 0x017#16) = some (some 1#32)
      ∧ seen (.wrreg 0x02A#16) { fresh .hyst with data := 0x12345678#32 } (peek · 0x02A#16)
        = some (some 0x5678#32) := by decide

/-- DE6 through the step: an illegal word fails and changes no register. -/
theorem test_step_illegal_word :
    nextOf (step ((fresh .hyst).withFetchWord 32 0xFFFFFFFF))
      = some { fresh .hyst with response := some ⟨.eIllegal, 0#32⟩ } := by decide

/-- The value RESET gives the registers of RG4 to RG8. -/
theorem test_reset_registers :
    [0x013#16, 0x015#16, 0x020#16, 0x040#16, 0x061#16].map (peek State.reset)
      = [some 0x3F000000#32, some 0x40000000#32, some 0xC479C000#32, some 0xC479C000#32, some 0x0000FFFF#32] := by
  decide

/-! ## Arithmetic and assembler -/

/-- 1/3 rounds to 0x3EAAAAAB; the largest finite number doubled is an infinity; half the least subnormal is even zero. -/
theorem test_arithmetic_rounds :
    fdiv (i2f 1) (i2f 3) = 0x3EAAAAAB#32 ∧ fadd 0x7F7FFFFF#32 0x7F7FFFFF#32 = 0x7F800000#32
      ∧ fmul 0x00000001#32 0x3F000000#32 = 0x00000000#32 := by decide

/-- PI10: `i2f(2^25 + 1)` is 2^25 (42_pid R176(d)). -/
theorem test_i2f_rounds_large : i2f 33554433 = 0x4C000000#32 := by decide

/-- The lines of P1, 1 and 4 to 5: the TNOW prefix carries on. -/
theorem test_assembles_program :
    assemble ["wrreg 0x020, 0x42700000".toList, "@1000 sample c0, 450".toList, "sample c1, 450".toList]
      = some [.transaction 0x80000020#32 0x42700000#32 0#32, .transaction 0x200001C2#32 0#32 1000#32,
          .transaction 0x210001C2#32 0#32 1000#32] := by decide

/-- 30_encoding R100 with the values of section 1 and L1-10. -/
theorem test_assembles_pseudo_instructions :
    assemble ["settarget s2, 60.0".toList, "notarget s1".toList, "rdtemp c5".toList, "wrf PID_THR, 0.5".toList,
        "setactive 0xF".toList]
      = some [.transaction 0x80000022#32 0x42700000#32 0#32, .transaction 0x80000021#32 0xC479C000#32 0#32,
          .transaction 0x70000045#32 0#32 0#32, .transaction 0x80000013#32 0x3F000000#32 0#32,
          .transaction 0x80000018#32 0x0000000F#32 0#32] := by decide

/-! ## Witnesses: for every obligation with hypotheses, values that meet them -/

theorem witness_EncodedCommandDecodesToItself : (Instr.sample 15 0xFFFF#16).wellFormed = true := by decide

theorem witness_DecodedCommandEncodesToItsWord : decode 0x2F00FFFF#32 = .ok (.sample 15 0xFFFF#16) := by decide

theorem witness_IllegalWordsAreStrayBitsOrReservedOpcodes :
    ∃ (s : State) (later : List Interaction), s.params.admitted = true
      ∧ s.queue = .transaction 0x90000000#32 1#32 2#32 :: later ∧ ∃ e, decode 0x90000000#32 = .error e :=
  ⟨State.resetWith (fixture .hyst) [.transaction 0x90000000#32 1#32 2#32, .reset], [.reset], by decide, rfl, _, rfl⟩

theorem witness_LinesCarryTimestampForward :
    parseLine "@7 pid c0".toList = some (some 7#32, ⟨.pid 0, 0#32⟩)
      ∧ assembleFrom 7#32 ["nop".toList] = some [.transaction 0#32 0#32 7#32]
      ∧ parseLine "pid c0".toList = some (none, ⟨.pid 0, 0#32⟩)
      ∧ assembleFrom 5#32 [] = some [] := by decide

theorem witness_PseudoInstructionsExpand :
    parseAddr "TARGET[3]".toList = some 0x023#16 ∧ parseDecimalF32 "-999.0".toList = some 0xC479C000#32
      ∧ parseIndexed 's' 4 "s3".toList = some 3 ∧ parseIndexed 'c' 16 "c15".toList = some 15
      ∧ parseBits 16 "0xFFFF".toList = some 0xFFFF#16 := by decide

theorem witness_StepRunsDecodedCommand :
    ∃ (s : State) (later : List Interaction), s.params.admitted = true
      ∧ s.queue = .transaction 0x2F00FFFF#32 0#32 9#32 :: later
      ∧ decode 0x2F00FFFF#32 = .ok (.sample 15 0xFFFF#16) :=
  ⟨State.resetWith (fixture .hyst) [.transaction 0x2F00FFFF#32 0#32 9#32], [], by decide, rfl, by decide⟩

theorem witness_PlacedWordRunsNext : (fresh .pid).params.admitted = true := by decide

theorem witness_ResetSetsEveryRegister :
    ∃ (s : State) (later : List Interaction), s.params.admitted = true ∧ s.queue = .reset :: later
      ∧ s.temp[(0 : Channel)] ≠ 0xC479C000#32 :=
  ⟨{ warm .hyst 0x426A0000#32 with queue := [.reset, .reset] }, [.reset], by decide, rfl, by decide⟩

theorem witness_IdleStepHoldsState :
    (warm .pid 0x426A0000#32).params.admitted = true ∧ (warm .pid 0x426A0000#32).queue = [] := by decide

theorem witness_EveryStepAnswersNextState :
    (∃ s : State, s.params.admitted = true ∧ s.queue = [.transaction 0xFFFFFFFF#32 0#32 0#32])
      ∧ ∃ s : State, s.params.admitted = true ∧ s.queue = [.reset] :=
  ⟨⟨State.resetWith (fixture .pid) [.transaction 0xFFFFFFFF#32 0#32 0#32], by decide, rfl⟩,
    State.resetWith (fixture .pid) [.reset], by decide, rfl⟩

theorem witness_FailureWritesNothing :
    (∃ t, exec (.rdreg 0x0FF#16) (fresh .hyst) = .next t ∧ t.response = some ⟨.eRegAddr, 0#32⟩
        ∧ 0x10 ≤ Status.eRegAddr.code.toNat)
      ∧ ∃ t, runTransaction 0x08000000#32 (fresh .hyst) = .next t ∧ t.response = some ⟨.eIllegal, 0#32⟩
        ∧ 0x10 ≤ Status.eIllegal.code.toNat := ⟨⟨_, rfl, rfl, by decide⟩, _, rfl, rfl, by decide⟩

/-- The boundary values of both clauses: 0, RAW_MAX and 65535; 1 and RAW_MAX - 1. -/
theorem witness_ExtremeSamplesAreSensorFaults :
    (0#16).toNat = 0 ∧ (fixture .hyst).rawMax.toNat ≤ (1023#16).toNat ∧ (fixture .hyst).rawMax.toNat ≤ (65535#16).toNat
      ∧ 1 ≤ (1#16).toNat ∧ (1022#16).toNat + 1 ≤ (fixture .hyst).rawMax.toNat := by decide

/-- Samples below the table, at a point, between two points and above the table. -/
theorem witness_ConversionUsesFirstBracket :
    [(1#16, 1), (300#16, 1), (470#16, 2), (1022#16, 4)].all (fun (raw, hi) =>
      decide (1 ≤ raw.toNat) && decide (raw.toNat < (fixture .hyst).rawMax.toNat) && decide (1 ≤ hi)
        && decide (hi < (fixture .hyst).nCal)
        && (List.range' 1 (hi - 1)).all (fun j => decide ((romRaw (fixture .hyst) j).toNat < raw.toNat))
        && (decide (raw.toNat ≤ (romRaw (fixture .hyst) hi).toNat) || decide (hi + 1 = (fixture .hyst).nCal))) = true := by
  decide

theorem witness_TablePointsConvertExactly :
    (fixture .hyst).admitted = true ∧ 4 < (fixture .hyst).nCal ∧ 1 ≤ (romRaw (fixture .hyst) 4).toNat
      ∧ (romRaw (fixture .hyst) 4).toNat < (fixture .hyst).rawMax.toNat := by decide

/-- A ROM whose temperature falls as the raw value rises. -/
def falling : Params := withRom [⟨100#16, 0x42C80000#32⟩, ⟨300#16, 0x00000000#32⟩]

/-- A rising pair and a falling pair, at the innermost samples of the bracket. -/
theorem witness_ConversionMonotoneBetweenPoints :
    ((fixture .hyst).admitted = true ∧ 1 + 1 < (fixture .hyst).nCal ∧ (romRaw (fixture .hyst) 1).toNat < (301#16).toNat
        ∧ (301#16).toNat < (499#16).toNat ∧ (499#16).toNat < (romRaw (fixture .hyst) 2).toNat
        ∧ (499#16).toNat < (fixture .hyst).rawMax.toNat
        ∧ fle (romTemp (fixture .hyst) 1) (romTemp (fixture .hyst) 2) = true)
      ∧ falling.admitted = true ∧ 0 + 1 < falling.nCal ∧ (romRaw falling 0).toNat < (101#16).toNat
        ∧ (101#16).toNat < (299#16).toNat ∧ (299#16).toNat < (romRaw falling 1).toNat
        ∧ (299#16).toNat < falling.rawMax.toNat ∧ fge (romTemp falling 0) (romTemp falling 1) = true := by decide

/-- Elapsed 999 of MIN_SI 1000; elapsed 1000; a channel never sampled. -/
theorem witness_SampleInsideIntervalIsCached :
    ((warm .hyst 0x426A0000#32).sampled 0 = true
        ∧ ((1999#32).toNat : Int) - ((warm .hyst 0x426A0000#32).ts[(0 : Channel)]).toNat = 999
        ∧ (999 : Int) % 2 ^ 32 < (warm .hyst 0x426A0000#32).minSi.toNat)
      ∧ ((warm .hyst 0x426A0000#32).minSi.toNat : Int) ≤ (((2000#32).toNat : Int)
        - ((warm .hyst 0x426A0000#32).ts[(0 : Channel)]).toNat) % 2 ^ 32
      ∧ (warm .hyst 0x426A0000#32).sampled 1 = false := by decide

theorem witness_SampleFaultCachesSentinel :
    (warm .hyst 0x426A0000#32).sampled 1 = false ∧ (0#16).toNat = 0
      ∧ (warm .hyst 0x426A0000#32).params.rawMax.toNat ≤ (1023#16).toNat := by decide

theorem witness_SampleSuccessUpdatesCache :
    (warm .hyst 0x426A0000#32).sampled 1 = false ∧ 1 ≤ (1#16).toNat
      ∧ (1022#16).toNat < (warm .hyst 0x426A0000#32).params.rawMax.toNat := by decide

theorem witness_SecondSampleInsideIntervalAgrees :
    ∃ t, exec (.sample 1 470#16) { warm .hyst 0x426A0000#32 with tnow := 1000#32 } = .next t
      ∧ t.response = some ⟨.ok, 0x426A0000#32⟩ ∧ (((1999#32).toNat : Int) - (1000#32).toNat) % 2 ^ 32
        < (({ warm .hyst 0x426A0000#32 with tnow := 1000#32 } : State).minSi.toNat : Int) :=
  ⟨_, rfl, by decide, by decide⟩

/-- Each clause: an active valid channel, a valid channel that is not active, no valid channel; two channels taken of
those active, four of those valid. -/
theorem witness_AverageStatusNamesChannelsTaken :
    (secOf 0 = 0 ∧ (fourWarm 0x5#16).isActive 0 = true ∧ (fourWarm 0x5#16).faulted 0 = false)
      ∧ ((∀ ch, secOf ch = 0 → (fourWarm 0x0#16).faulted ch = false → (fourWarm 0x0#16).isActive ch = false)
        ∧ secOf 3 = 0 ∧ (fourWarm 0x0#16).faulted 3 = false)
      ∧ (∀ ch, secOf ch = 1 → (fourWarm 0x5#16).faulted ch = true)
      ∧ (List.finRange 16).filter (fun ch =>
        decide (secOf ch = 0) && (fourWarm 0x5#16).isActive ch && !(fourWarm 0x5#16).faulted ch) = 0 :: [2]
      ∧ (List.finRange 16).filter (fun ch => decide (secOf ch = 0) && !(fourWarm 0x0#16).faulted ch)
        = 0 :: [1, 2, 3] := by decide

/-- Two states that differ in the TEMP of a faulted channel of the section and of a valid one of another section. -/
theorem witness_AverageReadsOnlyValidOwnChannels :
    let s := warm .hyst 0x426A0000#32
    let s' := { s with temp := (s.temp.set 1 0x42C80000#32).set 15 0#32 }
    (∀ ch, secOf ch = 0 → s'.isActive ch = s.isActive ch ∧ s'.faulted ch = s.faulted ch)
      ∧ ∀ ch : Channel, secOf ch = 0 → s.faulted ch = false → s'.temp[ch] = s.temp[ch] := by decide

theorem witness_SingleActiveChannelAveragesExactly :
    (warm .hyst 0x4340B333#32).TempCanonical ∧ (warm .hyst 0x4340B333#32).isActive 0 = true
      ∧ (warm .hyst 0x4340B333#32).faulted 0 = false
      ∧ ∀ c, secOf c = secOf 0 → c ≠ 0 →
        (warm .hyst 0x4340B333#32).isActive c = false ∨ (warm .hyst 0x4340B333#32).faulted c = true := by
  unfold State.TempCanonical
  decide

theorem witness_OtherStrategyFails :
    (fresh .pid).params.strategy = .pid ∧ (fresh .hyst).params.strategy = .hyst := by decide

theorem witness_HystWithoutSetpointForcesOff :
    (warm .hyst 0x426A0000#32).params.strategy = .hyst
      ∧ (warm .hyst 0x426A0000#32).target[(1 : Sec)] = 0xC479C000#32 := by decide

theorem witness_HystDecidesAndDrivesSection :
    (warm .hyst 0x426A0000#32).params.strategy = .hyst
      ∧ (warm .hyst 0x426A0000#32).target[(0 : Sec)] ≠ 0xC479C000#32 := by decide

theorem witness_NaNHoldsHysteresis : isNaN 0x7FC00000#32 = true ∧ isNaN 0xFF800001#32 = true := by decide

theorem witness_UnreadSectionIsComparedAsDefault :
    let s := { fresh .hyst with target := (fresh .hyst).target.set 2 0x42700000#32 }
    s.params.strategy = .hyst ∧ s.target[(2 : Sec)] ≠ 0xC479C000#32 ∧ (∀ ch, secOf ch = 2 → s.faulted ch = true)
      ∧ flt 0x41C80000#32 (fsub s.target[(2 : Sec)] s.hystBand) = true := by decide

/-- AG15, AG16 and AG17: each way the range is invalid. -/
theorem witness_AggFailsOnInvalidRange :
    (∃ s : State, s.aggTmax = s.aggTmin ∧ ¬ (fgt s.aggTmax s.aggTmin = true ∧ s.aggPmin.toNat < s.aggPmax.toNat))
      ∧ (∃ s : State, s.aggPmax = s.aggPmin ∧ ¬ (fgt s.aggTmax s.aggTmin = true ∧ s.aggPmin.toNat < s.aggPmax.toNat))
      ∧ isNaN 0x7FC00000#32 = true :=
  ⟨⟨{ ranged 0#32 with aggTmax := 0#32 }, by decide, by decide⟩,
    ⟨{ ranged 0#32 with aggPmin := 255#16 }, by decide, by decide⟩, by decide⟩

theorem witness_AggWritesClampedRemap :
    let s := ranged 0x426A0000#32
    ∃ v : Word, fgt s.aggTmax s.aggTmin = true ∧ s.aggPmin.toNat < s.aggPmax.toNat
      ∧ v = aggClamp
        (fadd (fdiv (fmul (fsub (sectionAverage s 0).2 s.aggTmin)
            (fsub (i2f (s.aggPmin.toNat : Int)) (i2f (s.aggPmax.toNat : Int)))) (fsub s.aggTmax s.aggTmin))
          (i2f (s.aggPmax.toNat : Int)))
        (i2f (s.aggPmin.toNat : Int)) (i2f (s.aggPmax.toNat : Int)) :=
  ⟨_, by decide, by decide, rfl⟩

/-- A NaN, a value below, above and inside the range [0.0, 255.0]; the narrowest range; 191.25 as a finite value. -/
theorem witness_AggClampStaysInRange :
    (isNaN 0x7FC00000#32 = true ∧ flt 0xBF800000#32 0#32 = true
        ∧ (isNaN 0x43800000#32 = false ∧ flt 0x43800000#32 0#32 = false ∧ fgt 0x43800000#32 0x437F0000#32 = true)
        ∧ isNaN 0x433F4000#32 = false ∧ flt 0x433F4000#32 0#32 = false ∧ fgt 0x433F4000#32 0x437F0000#32 = false)
      ∧ ((0#16).toNat < (65535#16).toNat ∧ (65534#16).toNat < (65535#16).toNat)
      ∧ ∃ x : ℚ, binary32Value 0x433F4000#32 = some x ∧ 0 ≤ x :=
  ⟨by decide, by decide, 191.25, by norm_num [binary32Value, signBit, expField, fracField], by norm_num⟩

theorem witness_MinimumTemperatureMapsToPmax :
    fgt (ranged 0#32).aggTmax (ranged 0#32).aggTmin = true
      ∧ (ranged 0#32).aggPmin.toNat < (ranged 0#32).aggPmax.toNat
      ∧ decodeF32 (ranged 0#32).aggTmin = .fin false 0 := by decide

/-- Channel 5 without a setpoint (PI4); channel 1 of section 0 without a temperature (PI5). -/
theorem witness_PidWithoutInputForcesOff :
    (warm .pid 0x42680000#32).params.strategy = .pid
      ∧ (warm .pid 0x42680000#32).target[secOf 5] = 0xC479C000#32
      ∧ (warm .pid 0x42680000#32).target[secOf 1] ≠ 0xC479C000#32
      ∧ (warm .pid 0x42680000#32).faulted 1 = true := by decide

/-- PI8: the second update (el = 1000) and the third (el = 0). -/
theorem witness_PidUpdatesAccumulatorAndDrive :
    [(looping 0x426E0000#32 2000#32, 1000), (looping 0x426E0000#32 1000#32, 0)].all (fun (s, el) =>
      decide (s.params.strategy = .pid) && decide (s.target[secOf 0] ≠ 0xC479C000#32) && !s.faulted 0
        && decide ((el : Int) = (if s.pidStarted 0 = true then
            ((s.tnow.toNat : Int) - s.ptime[(0 : Channel)].toNat) % 2 ^ 32 else 0))) = true
      ∧ ∀ (s : State) (el : Nat), ∃ e dt i0 i d o : Word, e = fsub s.target[secOf 0] s.temp[(0 : Channel)]
        ∧ dt = fdiv (i2f (el : Int)) (i2f (s.params.tickHz.toNat : Int))
        ∧ i0 = fadd s.integ[(0 : Channel)] (fmul e dt)
        ∧ i = (if s.ctrl = 1#1 then (if fgt i0 s.iclamp = true then s.iclamp
            else if flt i0 (fneg s.iclamp) = true then fneg s.iclamp else i0) else i0)
        ∧ d = (if el = 0 then 0#32 else fdiv (fmul s.kd (fsub e s.perr[(0 : Channel)])) dt)
        ∧ o = pidClamp (fadd (fadd (fmul s.kp e) (fmul s.ki i)) d) :=
  ⟨by decide, fun _ _ => ⟨_, _, _, _, _, _, rfl, rfl, rfl, rfl, rfl, rfl⟩⟩

/-- A NaN, a negative value, -0.0 and -infinity, a value above 1.0, and 1.0. -/
theorem witness_PidClampStaysInUnitInterval :
    isNaN 0x7FC00000#32 = true ∧ fgt 0xBF800000#32 0#32 = false ∧ fgt 0x80000000#32 0#32 = false
      ∧ fgt 0xFF800000#32 0#32 = false ∧ fgt 0x459C4000#32 0x3F800000#32 = true ∧ fgt 0x3F800000#32 0#32 = true
      ∧ fle 0x3F800000#32 0x3F800000#32 = true := by decide

theorem witness_FirstPidUpdateKeepsIntegral :
    let s := warm .pid 0x42680000#32
    s.params.strategy = .pid ∧ s.params.admitted = true ∧ s.target[secOf 0] ≠ 0xC479C000#32 ∧ s.faulted 0 = false
      ∧ s.pidStarted 0 = false ∧ s.integ[(0 : Channel)] = 0#32 ∧ s.ctrl = 0#1
      ∧ fsub s.target[secOf 0] s.temp[(0 : Channel)] = 0x40000000#32
      ∧ decodeF32 0x40000000#32 = .fin false (2 ^ 150) := by decide

/-- Two states that differ in channel 1 only. -/
theorem witness_PidReadsOnlyItsOwnChannel :
    let s := looping 0x426E0000#32 2000#32
    let s' := { s with
      temp := s.temp.set 1 0x42C80000#32, integ := s.integ.set 1 0x42C80000#32, tflt := 0xFFFC#16, active := 0x000D#16 }
    s'.params = s.params ∧ s'.target[secOf 0] = s.target[secOf 0] ∧ s'.temp[(0 : Channel)] = s.temp[(0 : Channel)]
      ∧ s'.faulted 0 = s.faulted 0 ∧ s'.integ[(0 : Channel)] = s.integ[(0 : Channel)]
      ∧ s'.perr[(0 : Channel)] = s.perr[(0 : Channel)] ∧ s'.ptime[(0 : Channel)] = s.ptime[(0 : Channel)]
      ∧ s'.pidStarted 0 = s.pidStarted 0 ∧ s'.pidThr = s.pidThr ∧ s'.isActive 0 = s.isActive 0
      ∧ s.params.strategy = .pid ∧ (nextOf (exec (.pid 0) s)).isSome = true
      ∧ (nextOf (exec (.pid 0) s')).isSome = true := by decide

/-- The last ROM_TEMP address of the fixture and the one after it. -/
theorem witness_RdregReturnsRegister :
    peek (fresh .hyst) 0x204#16 = some 0x43160000#32 ∧ peek (fresh .hyst) 0x205#16 = none := by decide

theorem witness_RegisterMapFollowsTable : (fresh .hyst).params.nCal ≤ 256 := by decide

/-- Both ends of each block of read-write addresses. -/
theorem witness_WrregWritesOnlyItsRegister :
    writableAddr 0x010#16 ∧ writableAddr 0x018#16 ∧ writableAddr 0x020#16 ∧ writableAddr 0x023#16
      ∧ writableAddr 0x028#16 ∧ writableAddr 0x02B#16 := by
  unfold writableAddr
  decide

/-- Unmapped addresses beside the mapped blocks, and mapped read-only addresses at the ends of theirs. -/
theorem witness_WrregElsewhereFails :
    (¬ mappedAddr 5 0x002#16 ∧ ¬ mappedAddr 5 0x019#16 ∧ ¬ mappedAddr 5 0x105#16 ∧ ¬ mappedAddr 5 0xFFFF#16)
      ∧ (mappedAddr 5 0x000#16 ∧ ¬ writableAddr 0x000#16) ∧ (mappedAddr 5 0x0E7#16 ∧ ¬ writableAddr 0x0E7#16)
      ∧ mappedAddr 5 0x204#16 ∧ ¬ writableAddr 0x204#16 := by
  unfold mappedAddr writableAddr
  refine ⟨⟨?_, ?_, ?_, ?_⟩, ⟨?_, ?_⟩, ⟨?_, ?_⟩, ?_, ?_⟩ <;> decide

theorem witness_WrregIsIdempotent :
    ∃ t, exec (.wrreg 0x018#16) { fresh .hyst with data := 0xFFFFFFFF#32 } = .next t ∧ t.active = 0xFFFF#16 :=
  ⟨_, rfl, by decide⟩

theorem witness_StepKeepsFaultedChannelsAtSentinel :
    ∃ s t : State, (∀ ch : Channel, s.faulted ch = true → s.temp[ch] = 0xC479C000#32) ∧ step s = .next t
      ∧ t.faulted 0 = true :=
  ⟨{ warm .hyst 0x426A0000#32 with queue := [.transaction 0x20000000#32 0#32 2000#32] }, _, by decide, rfl, by decide⟩

/-- A good state that has sampled a channel, and a step from it. -/
theorem witness_StepKeepsGoodStates :
    ∃ s t : State, s.Good ∧ step s = .next t ∧ t.driven 0 = true :=
  ⟨{ warm .hyst 0x42660000#32 with queue := [.transaction 0x40000000#32 0#32 2000#32] }, _,
    ⟨by decide, by unfold State.FaultedHoldsSent; decide, by unfold State.TempCanonical; decide,
      by unfold State.UnsampledAsReset; decide, by unfold State.UnstartedAsReset; decide,
      by unfold State.OutputsInUnit; decide, by unfold State.AggregateConsistent; decide,
      by refine ⟨?_, ?_, ?_⟩ <;> decide⟩, rfl, by decide⟩

theorem witness_ResetStateIsGood : falling.admitted = true := by decide

theorem witness_StepKeepsParameters :
    ∃ t, step (State.resetWith (fixture .pid) [.reset]) = .next t := ⟨_, rfl⟩

theorem witness_FlagsAreWrittenByTheirOwnersOnly :
    ∃ t, exec (.agg 0) (ranged 0x426A0000#32) = .next t ∧ (∀ ch raw, Instr.agg 0 ≠ .sample ch raw)
      ∧ (∀ ch, Instr.agg 0 ≠ .pid ch) ∧ ∀ x, Instr.agg 0 ≠ .hyst x := by
  refine ⟨_, rfl, ?_, ?_, ?_⟩ <;> intros <;> exact Instr.noConfusion

/-- A drive bit that HYST changes, and one that PID changes. -/
theorem witness_DriveIsWrittenByControlOnly :
    (∃ t, exec (.hyst 0) (warm .hyst 0x42660000#32) = .next t ∧ t.driven 3 ≠ (warm .hyst 0x42660000#32).driven 3)
      ∧ ∃ t, exec (.pid 0) { warm .pid 0x41200000#32 with kp := 0x42C80000#32 } = .next t
        ∧ t.driven 0 ≠ (warm .pid 0x41200000#32).driven 0 :=
  ⟨⟨_, rfl, by decide⟩, _, rfl, by decide⟩

theorem witness_InactiveChannelIsOffAfterItsControl :
    (∃ t, exec (.hyst 0) { warm .hyst 0x42660000#32 with active := 0x0005#16 } = .next t
        ∧ secOf 1 = 0 ∧ ({ warm .hyst 0x42660000#32 with active := 0x0005#16 } : State).isActive 1 = false)
      ∧ ∃ t, exec (.pid 0) { warm .pid 0x42680000#32 with active := 0x0000#16 } = .next t
        ∧ ({ warm .pid 0x42680000#32 with active := 0x0000#16 } : State).isActive 0 = false :=
  ⟨⟨_, rfl, by decide, by decide⟩, _, rfl, by decide⟩

theorem witness_DataIsReadByWrregOnly :
    (∀ addr, Instr.pid 0 ≠ .wrreg addr) ∧ ∃ t, exec (.pid 0) (looping 0x426E0000#32 2000#32) = .next t :=
  ⟨fun _ => Instr.noConfusion, _, rfl⟩

theorem witness_TimestampIsReadBySampleAndPidOnly :
    (∀ ch raw, Instr.hyst 0 ≠ .sample ch raw) ∧ (∀ ch, Instr.hyst 0 ≠ .pid ch)
      ∧ ∃ t, exec (.hyst 0) (warm .hyst 0x42660000#32) = .next t :=
  ⟨fun _ _ => Instr.noConfusion, fun _ => Instr.noConfusion, _, rfl⟩

theorem witness_ControlAfterResetDrivesNothing :
    (fixture .hyst).strategy = .hyst ∧ (fixture .pid).strategy = .pid := by decide

/-- A tie: 2^24 + 1 units lie as near to 2^24 as to 2^24 + 2; the even pattern is taken. -/
theorem witness_RoundingPicksNearestTiesToEven :
    roundMag (2 ^ 24 + 1) 1 = 0x01000000 ∧ decodeF32 (packF32 false 0x01000000) = .fin false (2 ^ 24)
      ∧ decodeF32 (packF32 false 0x01000001) = .fin false (2 ^ 24 + 2)
      ∧ |((2 ^ 24 : Nat) * (1 : Nat) : Int) - (2 ^ 24 + 1 : Nat)|
        = |((2 ^ 24 + 2 : Nat) * (1 : Nat) : Int) - (2 ^ 24 + 1 : Nat)| := by decide

theorem witness_SmallIntegersConvertExactly :
    (16777215 : Int).natAbs < 2 ^ 24 ∧ (-16777215 : Int).natAbs < 2 ^ 24 := by decide

/-- 1.5 and -0.0, and 1.5 and 2.5 finite; a NaN. -/
theorem witness_ArithmeticRoundsExactResultOnce :
    binary32Value 0x3FC00000#32 = some 1.5 ∧ binary32Value 0x40200000#32 = some 2.5
      ∧ binary32Value 0x80000000#32 = some 0 ∧ (2.5 : ℚ) ≠ 0 ∧ isNaN 0xFFC00001#32 = true
      ∧ isNaN (fadd 0x7F800000#32 0xFF800000#32) = true := by
  refine ⟨?_, ?_, ?_, by norm_num, by decide, by decide⟩ <;>
    norm_num [binary32Value, signBit, expField, fracField]

end Sys2Proof.Tests
end

section
/-! Rounding to nearest. -/

namespace Sys2Proof.Proofs

open Sys2Proof.Machine Sys2Proof.Laws

/-! ## The patterns `roundMag` chooses -/

/-- The pattern made of `k` excess bits and a significand, a carry to 2^24 included, denotes the significand times
2^k. -/
theorem magOf_significand {k r : ℕ} (hr : r ≤ 2 ^ 24) (hk : k = 0 ∨ 2 ^ 23 ≤ r) :
    magOf (2 ^ 23 * k + r) = r * 2 ^ k := by
  unfold magOf
  rcases hk with rfl | hk
  · rcases Nat.lt_or_ge r (2 ^ 24) with h | h
    · simpa [magOf] using magOf_small h
    · obtain rfl : r = 2 ^ 24 := le_antisymm hr h
      norm_num
  · rcases Nat.lt_or_ge r (2 ^ 24) with h | h
    · rw [show (2 ^ 23 * k + r) / 2 ^ 23 = k + 1 by omega, if_neg (by omega), Nat.add_sub_cancel]
      congr 1
      omega
    · obtain rfl : r = 2 ^ 24 := le_antisymm hr h
      rw [show (2 ^ 23 * k + 2 ^ 24) / 2 ^ 23 = k + 2 by omega, if_neg (by omega),
        show (2 ^ 23 * k + 2 ^ 24) % 2 ^ 23 = 0 by omega, show k + 2 - 1 = k + 1 by omega, pow_succ]
      ring

/-- The significand `roundMag` rounds to. -/
def significand (num den : ℕ) : ℕ := roundHalfEven num (den * 2 ^ excessBits (num / den))

theorem roundMag_eq (num den : ℕ) :
    roundMag num den = min (2 ^ 23 * excessBits (num / den) + significand num den) 0x7F800000 := rfl

/-- Excess bits come with a full significand. -/
theorem excessBits_zero_or_significand_ge (num den : ℕ) :
    excessBits (num / den) = 0 ∨ 2 ^ 23 ≤ significand num den := by
  rcases Nat.lt_or_ge (num / den) (2 ^ 24) with h | h
  · exact .inl (excessBits_small h)
  · exact .inr (significand_ge h)

/-- The magnitude chosen below overflow: the rounded significand at its exponent. -/
theorem magOf_roundMag {num den : ℕ} (h : roundMag num den < 0x7F800000) :
    magOf (roundMag num den) = significand num den * 2 ^ excessBits (num / den) := by
  have hlow : roundMag num den = 2 ^ 23 * excessBits (num / den) + significand num den := by
    have := roundMag_eq num den
    omega
  rw [hlow]
  exact magOf_significand (significand_le num den) (excessBits_zero_or_significand_ge num den)

/-- A magnitude lies on the grid of 2^k or below every magnitude with `k` excess bits. -/
theorem magOf_multiple_or_small (low k : ℕ) :
    (∃ t, magOf low = t * 2 ^ k) ∨ (1 ≤ k ∧ magOf low < 2 ^ 23 * 2 ^ k) := by
  rcases Nat.eq_zero_or_pos k with rfl | hk
  · exact .inl ⟨magOf low, by simp⟩
  unfold magOf
  split
  · refine .inr ⟨hk, lt_of_lt_of_le (show low < 2 ^ 23 * 1 by omega) ?_⟩
    exact Nat.mul_le_mul_left _ Nat.one_le_two_pow
  · rcases Nat.lt_or_ge (low / 2 ^ 23 - 1) k with h | h
    · refine .inr ⟨hk, ?_⟩
      calc (2 ^ 23 + low % 2 ^ 23) * 2 ^ (low / 2 ^ 23 - 1)
          < 2 ^ 24 * 2 ^ (low / 2 ^ 23 - 1) := Nat.mul_lt_mul_of_pos_right (by omega) (by positivity)
        _ = 2 ^ 23 * 2 ^ (low / 2 ^ 23 - 1 + 1) := by rw [pow_succ]; ring
        _ ≤ 2 ^ 23 * 2 ^ k := Nat.mul_le_mul_left _ (Nat.pow_le_pow_right (by norm_num) h)
    · refine .inl ⟨(2 ^ 23 + low % 2 ^ 23) * 2 ^ (low / 2 ^ 23 - 1 - k), ?_⟩
      rw [mul_assoc, ← pow_add, Nat.sub_add_cancel h]

/-- Finite patterns are ordered exactly as their magnitudes. -/
theorem magOf_le_iff {a b : ℕ} (ha : a < 0x7F800000) (hb : b < 0x7F800000) : magOf a ≤ magOf b ↔ a ≤ b := by
  refine ⟨fun h => ?_, magOf_mono⟩
  have := roundMag_mono (den := 1) (Nat.mul_le_mul_right 1 h)
  rwa [roundMag_exact ha one_pos, roundMag_exact hb one_pos] at this

/-- Below overflow no magnitude is nearer than the one `roundMag` chooses, and the pattern chosen is even where another
is as near (00_scope R18). -/
theorem roundMag_nearest {num den cand : ℕ} (hden : 0 < den) (hlow : roundMag num den < 0x7F800000)
    (hcand : cand < 0x7F800000) :
    |(magOf (roundMag num den) * den : ℤ) - num| ≤ |(magOf cand * den : ℤ) - num|
    ∧ (|(magOf (roundMag num den) * den : ℤ) - num| = |(magOf cand * den : ℤ) - num| → cand ≠ roundMag num den →
        roundMag num den % 2 = 0) := by
  have hm := magOf_roundMag hlow
  have hpattern := roundMag_eq num den
  have hcandDistinct : cand ≠ roundMag num den → magOf cand ≠ magOf (roundMag num den) := fun hne heq =>
    hne (le_antisymm ((magOf_le_iff hcand hlow).1 heq.le) ((magOf_le_iff hlow hcand).1 heq.ge))
  set k := excessBits (num / den) with hk
  have hnear := roundHalfEven_nearest (num := num) (den := den * 2 ^ k) (by positivity)
  have hgrid (t : ℤ) : t * ((den * 2 ^ k : ℕ) : ℤ) = t * 2 ^ k * den := by
    push_cast
    ring
  have hchosen : ((significand num den : ℕ) : ℤ) * ((den * 2 ^ k : ℕ) : ℤ) = magOf (roundMag num den) * den := by
    rw [hgrid, hm]
    push_cast
    ring
  rw [show roundHalfEven num (den * 2 ^ k) = significand num den from rfl, hchosen] at hnear
  rcases magOf_multiple_or_small cand k with ⟨t, ht⟩ | ⟨hk1, hsmall⟩
  · have hc : ((t : ℕ) : ℤ) * ((den * 2 ^ k : ℕ) : ℤ) = magOf cand * den := by
      rw [hgrid, ht]
      push_cast
      ring
    obtain ⟨hle, htie⟩ := hnear t
    rw [hc] at hle htie
    refine ⟨hle, fun heq hne => ?_⟩
    have ht' : (t : ℤ) ≠ (significand num den : ℕ) := fun h =>
      hcandDistinct hne (by rw [ht, hm, Nat.cast_injective h])
    have := htie heq ht'
    omega
  · have hbig : 2 ^ 23 * 2 ^ k * den ≤ num := by
      have h24 : 2 ^ 24 ≤ num / den := by
        by_contra hc
        rw [excessBits_small (Nat.lt_of_not_le hc)] at hk
        omega
      exact (Nat.le_div_iff_mul_le hden).1 (excessBits_large h24).2.1
    have hbelow : magOf cand * den < 2 ^ 23 * 2 ^ k * den := Nat.mul_lt_mul_of_pos_right hsmall hden
    have hle := (hnear (2 ^ 23 : ℕ)).1
    rw [hgrid] at hle
    have hstrict : |(((2 ^ 23 : ℕ) : ℤ) * 2 ^ k * den) - num| < |(magOf cand * den : ℤ) - num| := by
      have h1 : (((2 ^ 23 : ℕ) : ℤ) * 2 ^ k * den) ≤ num := by exact_mod_cast hbig
      have h2 : (magOf cand * den : ℤ) < ((2 ^ 23 : ℕ) : ℤ) * 2 ^ k * den := by exact_mod_cast hbelow
      rw [abs_of_nonpos (by linarith), abs_of_nonpos (by linarith)]
      linarith
    have hlt := lt_of_le_of_lt hle hstrict
    exact ⟨hlt.le, fun heq => absurd heq hlt.ne⟩

/-- Settles O58: a finite pattern below overflow is rounded on the grid of its excess bits, and every magnitude off that
grid lies below the whole binade. -/
theorem roundingPicksNearestTiesToEven : Obligations.RoundingPicksNearestTiesToEven := by
  intro num den low m c hden hlow hfin hm cand hcand hc
  subst hlow
  rw [decodeF32_pack_fin false hfin] at hm
  rw [decodeF32_pack_fin false hcand] at hc
  cases hm
  cases hc
  exact roundMag_nearest hden hfin hcand

end Sys2Proof.Proofs
end

section
/-! Overflow, and the pattern `roundMag` chooses as the one rounding of a rational number. -/

namespace Sys2Proof.Proofs

open Sys2Proof.Machine Sys2Proof.Laws

/-! ## Overflow -/

/-- Halfway between the largest finite magnitude and the one the next pattern would have, in units of 2^-149. -/
def overflowMag : ℕ := (2 ^ 25 - 1) * 2 ^ 252

theorem overflowMag_cast : (overflowMag : ℚ) = overflowBound * 2 ^ 149 := by
  norm_num [overflowMag, overflowBound]

theorem excessBits_overflowMag : excessBits overflowMag = 253 := by decide

/-- The halfway point is a tie of the largest significand, an odd one, so it is rounded up. -/
theorem significand_overflowMag {den : ℕ} (hden : 0 < den) : significand (overflowMag * den) den = 2 ^ 24 := by
  have hsplit : overflowMag * den = den * 2 ^ 252 + (den * 2 ^ 253) * (2 ^ 24 - 1) := by
    unfold overflowMag
    omega
  unfold significand roundHalfEven
  rw [Nat.mul_div_cancel _ hden, excessBits_overflowMag, hsplit, Nat.add_mul_div_left _ _ (by positivity),
    Nat.add_mul_mod_self_left, Nat.div_eq_of_lt (by omega), Nat.mod_eq_of_lt (by omega)]
  exact if_pos (.inr ⟨by ring, by norm_num⟩)

/-- A fraction that is rounded to `q + 1` lies at least halfway from `q` to it. -/
theorem halfway_le_of_roundHalfEven {num den q : ℕ} (hden : 0 < den) (h : roundHalfEven num den = q + 1) :
    (2 * q + 1) * den ≤ 2 * num := by
  have hnear := (roundHalfEven_nearest (num := num) hden q).1
  rw [h] at hnear
  push_cast at hnear
  have hq : ((q : ℤ) + 1) * den = q * den + den := by ring
  have hgoal : (2 * (q : ℤ) + 1) * den = 2 * (q * den) + den := by ring
  zify
  rw [hgoal]
  rw [hq] at hnear
  rcases le_abs.1 (le_trans (le_abs_self _) hnear) with h | h <;> omega

/-- Rounding overflows exactly from the halfway point on. -/
theorem roundMag_finite_iff {num den : ℕ} (hden : 0 < den) :
    roundMag num den < 0x7F800000 ↔ num < overflowMag * den := by
  constructor
  · intro h
    by_contra hge
    have hmono := roundMag_mono (den := den) (Nat.le_of_not_lt hge)
    rw [roundMag_eq (overflowMag * den), significand_overflowMag hden, Nat.mul_div_cancel _ hden,
      excessBits_overflowMag] at hmono
    omega
  · intro h
    have hk : excessBits (num / den) ≤ 253 := by
      rw [← excessBits_overflowMag]
      exact excessBits_mono ((Nat.div_lt_iff_lt_mul hden).2 h).le
    have hle : significand num den ≤ 2 ^ 24 := significand_le num den
    rw [roundMag_eq]
    rcases Nat.lt_or_eq_of_le hk with hk | hk
    · omega
    · have hne : significand num den ≠ 2 ^ 24 := fun heq => by
        unfold significand at heq
        have hhalf := halfway_le_of_roundHalfEven (by positivity) heq
        rw [hk] at hhalf
        unfold overflowMag at h
        omega
      omega

/-! ## The rational value of the pattern chosen -/

/-- The sign of a value as a factor. -/
def signFactor (neg : Bool) : ℚ := if neg then -1 else 1

theorem abs_signFactor_mul (neg : Bool) (r : ℚ) : |signFactor neg * r| = |r| := by
  cases neg <;> simp [signFactor]

theorem signFactor_xor (p q : Bool) : signFactor (p ^^ q) = signFactor p * signFactor q := by
  cases p <;> cases q <;> simp [signFactor]

theorem signedMag_cast (neg : Bool) (mag : ℕ) : ((signedMag neg mag : ℤ) : ℚ) = signFactor neg * mag := by
  cases neg <;> simp [signFactor]

/-- The value of a sign and a magnitude counted in units of 2^-149, whole or not. -/
def unitsValue (neg : Bool) (r : ℚ) : ℚ := signFactor neg * (r / 2 ^ 149)

theorem abs_unitsValue (neg : Bool) {r : ℚ} (hr : 0 ≤ r) : |unitsValue neg r| = r / 2 ^ 149 := by
  rw [unitsValue, abs_signFactor_mul, abs_of_nonneg (by positivity)]

theorem unitsValue_distance (neg : Bool) (a b : ℚ) :
    |unitsValue neg a - unitsValue neg b| = |a - b| / 2 ^ 149 := by
  have hsub : unitsValue neg a - unitsValue neg b = signFactor neg * ((a - b) / 2 ^ 149) := by
    unfold unitsValue
    ring
  rw [hsub, abs_signFactor_mul, abs_div, abs_of_pos (by positivity : (0 : ℚ) < 2 ^ 149)]

/-- The distance of a magnitude from a fraction, over the common denominator. -/
theorem magnitude_distance (m num : ℕ) {den : ℕ} (hden : 0 < den) :
    |(m : ℚ) - num / den| = ((|(m * den : ℤ) - num| : ℤ) : ℚ) / den := by
  have hd : (0 : ℚ) < den := by exact_mod_cast hden
  push_cast
  rw [eq_div_iff hd.ne', ← abs_of_pos hd, ← abs_mul, abs_of_pos hd, sub_mul, div_mul_cancel₀ _ hd.ne']

/-- A pattern with a value, by its sign and its bits 30..0. -/
theorem value_eq_unitsValue {c : Word} {u : ℚ} (h : binary32Value c = some u) :
    ∃ low, low < 0x7F800000 ∧ c = packF32 (signBit c) low ∧ u = unitsValue (signBit c) (magOf low) := by
  obtain ⟨mag, hmag, hu⟩ := decodeF32_of_value h
  obtain ⟨low, hlow, hc, rfl⟩ := decodeF32_fin_iff.1 hmag
  exact ⟨low, hlow, hc, by rw [hu, signedMag_cast, unitsValue, mul_div_assoc]⟩

/-- The value of a finite pattern. -/
theorem binary32Value_pack (neg : Bool) {low : ℕ} (h : low < 0x7F800000) :
    binary32Value (packF32 neg low) = some (unitsValue neg (magOf low)) := by
  rw [binary32Value_of_fin (decodeF32_pack_fin neg h), signedMag_cast, unitsValue, mul_div_assoc]

/-- A candidate either has the sign of a number and a magnitude of its own, or zero is nearer to the number. -/
theorem candidate_cases (neg : Bool) {r : ℚ} (hr : 0 ≤ r) {c : Word} {u : ℚ} (h : binary32Value c = some u) :
    (∃ cand, cand < 0x7F800000 ∧ u = unitsValue neg (magOf cand))
    ∨ |unitsValue neg (magOf 0) - unitsValue neg r| < |u - unitsValue neg r| := by
  obtain ⟨low, hlow, -, rfl⟩ := value_eq_unitsValue h
  by_cases hsign : signBit c = neg
  · exact .inl ⟨low, hlow, by rw [hsign]⟩
  have hopp : unitsValue (signBit c) (magOf low) = unitsValue neg (-(magOf low : ℚ)) := by
    rw [Bool.eq_not_of_ne hsign]
    cases neg <;> simp [unitsValue, signFactor] <;> ring
  rcases Nat.eq_zero_or_pos (magOf low) with hzero | hpos
  · exact .inl ⟨low, hlow, by rw [hopp, hzero]; simp⟩
  · right
    have hpos' : (0 : ℚ) < magOf low := by exact_mod_cast hpos
    rw [hopp, unitsValue_distance, unitsValue_distance, show magOf 0 = 0 from rfl, Nat.cast_zero,
      abs_of_nonpos (by linarith), abs_of_neg (by linarith)]
    exact div_lt_div_of_pos_right (by linarith) (by positivity)

/-- `roundMag_nearest` for the values of patterns of one sign. -/
theorem unitsValue_roundMag_nearest (neg : Bool) {num den cand : ℕ} (hden : 0 < den)
    (hlow : roundMag num den < 0x7F800000) (hcand : cand < 0x7F800000) :
    |unitsValue neg (magOf (roundMag num den)) - unitsValue neg (num / den)|
        ≤ |unitsValue neg (magOf cand) - unitsValue neg (num / den)|
    ∧ (|unitsValue neg (magOf (roundMag num den)) - unitsValue neg (num / den)|
          = |unitsValue neg (magOf cand) - unitsValue neg (num / den)| →
        cand ≠ roundMag num den → roundMag num den % 2 = 0) := by
  have hd : (0 : ℚ) < den := by exact_mod_cast hden
  obtain ⟨hle, htie⟩ := roundMag_nearest hden hlow hcand
  simp only [unitsValue_distance, magnitude_distance _ _ hden]
  constructor
  · gcongr
  · intro heq
    rw [div_left_inj' (by positivity), div_left_inj' hd.ne'] at heq
    exact htie (by exact_mod_cast heq)

/-- The parity of a pattern is that of its bits 30..0. -/
theorem packF32_parity (neg : Bool) {low : ℕ} (h : low < 2 ^ 31) : (packF32 neg low).toNat % 2 = low % 2 := by
  rw [packF32_toNat neg h]
  cases neg <;> (simp; try omega)

theorem unitsValue_neg_iff (neg : Bool) {r : ℚ} (hr : 0 < r) : unitsValue neg r < 0 ↔ neg = true := by
  have h : 0 < r / 2 ^ 149 := by positivity
  cases neg <;> simp [unitsValue, signFactor, h, h.le]

/-- `roundMag` with a sign is the one rounding of the signed fraction of units 2^-149 (00_scope R18). -/
theorem isRounded_pack (neg : Bool) {num den : ℕ} (hden : 0 < den) :
    IsRounded (unitsValue neg (num / den)) (packF32 neg (roundMag num den)) := by
  have hd : (0 : ℚ) < den := by exact_mod_cast hden
  have hr : (0 : ℚ) ≤ (num : ℚ) / den := by positivity
  have hfin : |unitsValue neg (num / den)| < overflowBound ↔ roundMag num den < 0x7F800000 := by
    rw [roundMag_finite_iff hden, abs_unitsValue neg hr, div_lt_iff₀ (by positivity), ← overflowMag_cast,
      div_lt_iff₀ hd]
    exact_mod_cast Iff.rfl
  refine ⟨fun hx => ?_, fun hx => ?_⟩
  · have hlow := hfin.1 hx
    refine ⟨_, binary32Value_pack neg hlow, fun c u hu => ?_⟩
    rw [packF32_parity neg (by omega)]
    rcases candidate_cases neg hr hu with ⟨cand, hcand, rfl⟩ | hfar
    · obtain ⟨hle, htie⟩ := unitsValue_roundMag_nearest neg hden hlow hcand
      exact ⟨hle, fun heq hne => htie heq fun h => hne (by rw [h])⟩
    · have hlt := lt_of_le_of_lt (unitsValue_roundMag_nearest neg hden hlow (cand := 0) (by omega)).1 hfar
      exact ⟨hlt.le, fun heq => absurd heq hlt.ne⟩
  · have hinf : roundMag num den = 0x7F800000 :=
      le_antisymm (roundMag_le_inf _ _) (Nat.le_of_not_lt fun h => not_lt.2 hx (hfin.2 h))
    have hpos : (0 : ℚ) < num / den := by
      refine lt_of_le_of_ne hr fun h => ?_
      rw [← h] at hx
      norm_num [unitsValue, overflowBound] at hx
    have hneg : decide (unitsValue neg (num / den) < 0) = neg := by
      rw [Bool.eq_iff_iff, decide_eq_true_iff, unitsValue_neg_iff neg hpos]
    rw [hinf, hneg, infPattern_eq_pack]

/-- A signed integer count of units 2^-149, rounded. -/
theorem isRounded_int (z : ℤ) :
    IsRounded ((z : ℚ) / 2 ^ 149) (packF32 (decide (z < 0)) (roundMag z.natAbs 1)) := by
  have hx : (z : ℚ) / 2 ^ 149 = unitsValue (decide (z < 0)) ((z.natAbs : ℚ) / (1 : ℕ)) := by
    have habs : (z.natAbs : ℚ) = |(z : ℚ)| := by rw [Nat.cast_natAbs, Int.cast_abs]
    rw [unitsValue, habs, Nat.cast_one, div_one]
    by_cases hz : z < 0
    · have hz' : (z : ℚ) < 0 := by exact_mod_cast hz
      rw [decide_eq_true hz, abs_of_neg hz']
      simp only [signFactor, if_true]
      ring
    · have hz' : (0 : ℚ) ≤ z := by exact_mod_cast not_lt.1 hz
      rw [decide_eq_false hz, abs_of_nonneg hz']
      simp [signFactor]
  rw [hx]
  exact isRounded_pack _ one_pos

/-! ## Integers -/

/-- `i2f` rounds the integer once. -/
theorem isRounded_i2f (n : ℤ) : IsRounded (n : ℚ) (i2f n) := by
  have h := isRounded_int (2 ^ 149 * n)
  have hsign : (2 ^ 149 * n < 0) ↔ n < 0 := by omega
  have hq : ((2 ^ 149 * n : ℤ) : ℚ) / 2 ^ 149 = n := by
    rw [Int.cast_mul, Int.cast_pow, Int.cast_ofNat, mul_div_cancel_left₀ _ (by positivity)]
  rwa [hq, Int.natAbs_mul, Int.natAbs_pow, decide_eq_decide.2 hsign] at h

/-- An integer below 2^24 has a pattern of its own. -/
theorem decodeF32_i2f {n : ℤ} (h : n.natAbs < 2 ^ 24) :
    decodeF32 (i2f n) = .fin (decide (n < 0)) (2 ^ 149 * n.natAbs) := by
  obtain ⟨low, hlow, hmag⟩ : ∃ low, low < 0x7F800000 ∧ magOf low = 2 ^ 149 * n.natAbs := by
    rcases Nat.eq_zero_or_pos n.natAbs with h0 | h0
    · exact ⟨0, by norm_num, by rw [h0]; rfl⟩
    · exact magOf_integer h0 h
  have hround := roundMag_exact hlow one_pos
  rw [mul_one, hmag] at hround
  rw [i2f, hround, decodeF32_pack_fin _ hlow, hmag]

/-- Settles O59: an integer is 2^149 times its magnitude in units of 2^-149, rounded once; below 2^24 that magnitude
has a pattern. -/
theorem smallIntegersConvertExactly : Obligations.SmallIntegersConvertExactly :=
  ⟨isRounded_i2f, fun _ => decodeF32_i2f⟩

end Sys2Proof.Proofs
end

section
/-! The four operations and the comparisons on finite operands, infinities and NaN. -/

namespace Sys2Proof.Proofs

open Sys2Proof.Machine Sys2Proof.Laws

/-! ## Finite operands -/

theorem signedMag_div (neg : Bool) (mag : ℕ) : ((signedMag neg mag : ℤ) : ℚ) / 2 ^ 149 = unitsValue neg mag := by
  rw [signedMag_cast, unitsValue, mul_div_assoc]

/-- An operand with a value: what it decodes to, and its value. -/
theorem finite_operand {a : Word} {x : ℚ} (h : binary32Value a = some x) :
    ∃ m, decodeF32 a = .fin (signBit a) m ∧ x = unitsValue (signBit a) m := by
  obtain ⟨m, hm, hx⟩ := decodeF32_of_value h
  exact ⟨m, hm, by rw [hx, signedMag_div]⟩

theorem unitsValue_eq_zero_iff (neg : Bool) (mag : ℕ) : unitsValue neg mag = 0 ↔ mag = 0 := by
  cases neg <;> simp [unitsValue, signFactor]

theorem unitsValue_add (p q : Bool) (m n : ℕ) :
    unitsValue p m + unitsValue q n = ((signedMag p m + signedMag q n : ℤ) : ℚ) / 2 ^ 149 := by
  rw [← signedMag_div, ← signedMag_div, Int.cast_add, add_div]

theorem unitsValue_not (p : Bool) (r : ℚ) : unitsValue (!p) r = -unitsValue p r := by
  cases p <;> simp [unitsValue, signFactor]

theorem unitsValue_mul (p q : Bool) (m n : ℕ) :
    unitsValue p m * unitsValue q n = unitsValue (p ^^ q) (((m * n : ℕ) : ℚ) / ((2 ^ 149 : ℕ) : ℚ)) := by
  rw [unitsValue, unitsValue, unitsValue, signFactor_xor]
  push_cast
  ring

theorem signFactor_inv (p : Bool) : (signFactor p)⁻¹ = signFactor p := by cases p <;> norm_num [signFactor]

theorem unitsValue_div (p q : Bool) (m n : ℕ) :
    unitsValue p m / unitsValue q n = unitsValue (p ^^ q) (((2 ^ 149 * m : ℕ) : ℚ) / n) := by
  rw [unitsValue, unitsValue, unitsValue, signFactor_xor, div_eq_mul_inv, mul_inv, signFactor_inv, inv_div]
  push_cast
  field_simp
  ring

section Finite

variable {a b : Word} {x y : ℚ} (ha : binary32Value a = some x) (hb : binary32Value b = some y)
include ha hb

/-- The sum of finite operands is rounded once. -/
theorem isRounded_fadd : IsRounded (x + y) (fadd a b) := by
  obtain ⟨m, hm, rfl⟩ := finite_operand ha
  obtain ⟨n, hn, rfl⟩ := finite_operand hb
  rw [unitsValue_add, fadd_fin hm hn]
  split
  · rename_i hz
    have hzero := isRounded_pack (signBit a && signBit b) (num := 0) one_pos
    rw [hz, zeroPattern_eq_pack]
    simpa [roundMag_zero, unitsValue] using hzero
  · exact isRounded_int _

/-- A zero sum is -0.0 only when both operands are negative (zeros). -/
theorem fadd_of_sum_zero (h : x + y = 0) :
    fadd a b = if signBit a && signBit b then 0x80000000#32 else 0x00000000#32 := by
  obtain ⟨m, hm, rfl⟩ := finite_operand ha
  obtain ⟨n, hn, rfl⟩ := finite_operand hb
  rw [unitsValue_add, div_eq_zero_iff, or_iff_left (by positivity)] at h
  rw [fadd_fin hm hn, if_pos (by exact_mod_cast h)]
  rfl

/-- The product of finite operands is rounded once. -/
theorem isRounded_fmul : IsRounded (x * y) (fmul a b) := by
  obtain ⟨m, hm, rfl⟩ := finite_operand ha
  obtain ⟨n, hn, rfl⟩ := finite_operand hb
  rw [unitsValue_mul, fmul_fin hm hn]
  exact isRounded_pack _ (by positivity)

theorem signBit_fmul : signBit (fmul a b) = (signBit a ^^ signBit b) := by
  obtain ⟨m, hm, -⟩ := finite_operand ha
  obtain ⟨n, hn, -⟩ := finite_operand hb
  rw [fmul_fin hm hn]
  exact signBit_pack _ (lt_of_le_of_lt (roundMag_le_inf _ _) (by norm_num))

/-- A quotient of finite operands with a divisor that is not zero: rounded once, and its sign. -/
theorem isRounded_fdiv (hy : y ≠ 0) :
    IsRounded (x / y) (fdiv a b) ∧ signBit (fdiv a b) = (signBit a ^^ signBit b) := by
  obtain ⟨m, hm, rfl⟩ := finite_operand ha
  obtain ⟨n, hn, rfl⟩ := finite_operand hb
  have hn0 : n ≠ 0 := fun h => hy ((unitsValue_eq_zero_iff _ _).2 h)
  rw [unitsValue_div, fdiv_fin hm hn hn0]
  exact ⟨isRounded_pack _ (Nat.pos_of_ne_zero hn0),
    signBit_pack _ (lt_of_le_of_lt (roundMag_le_inf _ _) (by norm_num))⟩

/-- Division by zero: NaN for 0/0, else an infinity. -/
theorem fdiv_by_zero (hy : y = 0) :
    fdiv a b = if x = 0 then 0x7FC00000#32 else infPattern (signBit a ^^ signBit b) := by
  obtain ⟨m, hm, rfl⟩ := finite_operand ha
  obtain ⟨n, hn, rfl⟩ := finite_operand hb
  rw [unitsValue_eq_zero_iff] at hy
  simp only [fdiv, hm, hn, hy, unitsValue_eq_zero_iff, if_true]
  rfl

/-- The places of two finite operands on the ordered line are ordered as their values. -/
theorem orderKeys_of_values :
    ∃ i j : ℤ, orderKey (decodeF32 a) = some i ∧ orderKey (decodeF32 b) = some j ∧ (i < j ↔ x < y) ∧ (i ≤ j ↔ x ≤ y)
      ∧ (j < i ↔ y < x) ∧ (j ≤ i ↔ y ≤ x) := by
  obtain ⟨m, hm, rfl⟩ := finite_operand ha
  obtain ⟨n, hn, rfl⟩ := finite_operand hb
  have hpos : (0 : ℚ) < 2 ^ 149 := by positivity
  refine ⟨signedMag (signBit a) m, signedMag (signBit b) n, by rw [hm]; rfl, by rw [hn]; rfl, ?_⟩
  simp only [← signedMag_div, div_lt_div_iff_of_pos_right hpos, div_le_div_iff_of_pos_right hpos, Int.cast_lt,
    Int.cast_le, and_self]

/-- The comparisons order the values. -/
theorem compare_values :
    (flt a b = true ↔ x < y) ∧ (fgt a b = true ↔ x > y) ∧ (fle a b = true ↔ x ≤ y) ∧ (fge a b = true ↔ x ≥ y) := by
  obtain ⟨i, j, hi, hj, hlt, hle, hgt, hge⟩ := orderKeys_of_values ha hb
  simp only [flt, fgt, fle, fge, orderedCompare_some hi hj, decide_eq_true_iff]
  exact ⟨hlt, hgt, hle, hge⟩

end Finite

theorem binary32Value_fneg {b : Word} {y : ℚ} (hb : binary32Value b = some y) : binary32Value (fneg b) = some (-y) := by
  obtain ⟨n, hn, rfl⟩ := finite_operand hb
  rw [binary32Value_of_fin (decodeF32_fneg_fin hn), signedMag_div, unitsValue_not]

/-- The difference of finite operands is rounded once. -/
theorem isRounded_fsub {a b : Word} {x y : ℚ} (ha : binary32Value a = some x) (hb : binary32Value b = some y) :
    IsRounded (x - y) (fsub a b) := by
  rw [sub_eq_add_neg]
  exact isRounded_fadd ha (binary32Value_fneg hb)

/-! ## Infinities -/

/-- What an operation answers with an infinity and a finite operand, or with two infinities. -/
theorem infinite_operands (p q : Bool) {a : Word} {x : ℚ} (ha : binary32Value a = some x) :
    fadd (infPattern p) a = infPattern p ∧ fadd a (infPattern p) = infPattern p
      ∧ fadd (infPattern p) (infPattern q) = (if p = q then infPattern p else 0x7FC00000#32)
      ∧ fmul (infPattern p) a = (if x = 0 then 0x7FC00000#32 else infPattern (p ^^ signBit a))
      ∧ fmul a (infPattern p) = (if x = 0 then 0x7FC00000#32 else infPattern (signBit a ^^ p))
      ∧ fmul (infPattern p) (infPattern q) = infPattern (p ^^ q)
      ∧ fdiv (infPattern p) a = infPattern (p ^^ signBit a)
      ∧ fdiv a (infPattern p) = (if signBit a ^^ p then 0x80000000#32 else 0x00000000#32)
      ∧ fdiv (infPattern p) (infPattern q) = 0x7FC00000#32 := by
  obtain ⟨m, hm, rfl⟩ := finite_operand ha
  simp only [fadd, fmul, fdiv, hm, decodeF32_infPattern, unitsValue_eq_zero_iff, true_and]
  exact ⟨rfl, rfl, rfl, rfl, rfl⟩

/-! ## NaN -/

/-- An operation with a NaN operand answers the canonical NaN. -/
theorem arithmetic_nan {a b : Word} (h : isNaN a = true ∨ isNaN b = true) :
    fadd a b = canonicalNaN ∧ fmul a b = canonicalNaN ∧ fdiv a b = canonicalNaN := by
  simp only [isNaN_iff] at h
  rcases h with h | h
  · simp only [fadd, fmul, fdiv, h, and_self]
  · cases ha : decodeF32 a <;> simp only [fadd, fmul, fdiv, ha, h, and_self]

theorem isNaN_fneg {b : Word} (h : isNaN b = true) : isNaN (fneg b) = true :=
  isNaN_iff.2 (decodeF32_fneg_nan (isNaN_iff.1 h))

theorem fsub_nan {a b : Word} (h : isNaN a = true ∨ isNaN b = true) : fsub a b = canonicalNaN :=
  (arithmetic_nan (h.imp_right isNaN_fneg)).1

/-- The canonical NaN, or a sign with bits 30..0 of a finite number or an infinity: what an operation can answer. -/
def NumberOrCanonicalNaN (w : Word) : Prop := w = canonicalNaN ∨ ∃ neg low, low ≤ 0x7F800000 ∧ w = packF32 neg low

theorem NumberOrCanonicalNaN.eq_of_isNaN {w : Word} (hw : NumberOrCanonicalNaN w) (h : isNaN w = true) :
    w = 0x7FC00000#32 := by
  rcases hw with rfl | ⟨neg, low, hlow, rfl⟩
  · rfl
  · rw [pack_not_nan neg hlow] at h
    cases h

theorem numberOrCanonicalNaN_inf (neg : Bool) : NumberOrCanonicalNaN (infPattern neg) :=
  .inr ⟨neg, _, le_rfl, infPattern_eq_pack neg⟩

theorem numberOrCanonicalNaN_zero (neg : Bool) : NumberOrCanonicalNaN (zeroPattern neg) :=
  .inr ⟨neg, 0, by norm_num, zeroPattern_eq_pack neg⟩

theorem numberOrCanonicalNaN_round (neg : Bool) (num den : ℕ) :
    NumberOrCanonicalNaN (packF32 neg (roundMag num den)) :=
  .inr ⟨neg, _, roundMag_le_inf num den, rfl⟩

theorem fmul_numberOrCanonicalNaN (a b : Word) : NumberOrCanonicalNaN (fmul a b) := by
  unfold fmul
  split
  · exact .inl rfl
  · exact .inl rfl
  · exact numberOrCanonicalNaN_inf _
  · split
    · exact .inl rfl
    · exact numberOrCanonicalNaN_inf _
  · split
    · exact .inl rfl
    · exact numberOrCanonicalNaN_inf _
  · exact numberOrCanonicalNaN_round _ _ _

theorem fdiv_numberOrCanonicalNaN (a b : Word) : NumberOrCanonicalNaN (fdiv a b) := by
  unfold fdiv
  split
  · exact .inl rfl
  · exact .inl rfl
  · exact .inl rfl
  · exact numberOrCanonicalNaN_inf _
  · exact numberOrCanonicalNaN_zero _
  · split
    · split
      · exact .inl rfl
      · exact numberOrCanonicalNaN_inf _
    · exact numberOrCanonicalNaN_round _ _ _

/-- Settles O60: finite operands by one rounding of the exact fraction, infinities and NaN by the arms of each
operation. -/
theorem arithmeticRoundsExactResultOnce : Obligations.ArithmeticRoundsExactResultOnce := by
  refine ⟨fun a b x y ha hb => ?_, fun p q a x ha => infinite_operands p q ha, fun a b h => ?_, fun a b => ?_⟩
  · exact ⟨isRounded_fadd ha hb, isRounded_fsub ha hb, isRounded_fmul ha hb, fun hy => (isRounded_fdiv ha hb hy).1,
      fadd_of_sum_zero ha hb, signBit_fmul ha hb, fun hy => (isRounded_fdiv ha hb hy).2, fdiv_by_zero ha hb,
      compare_values ha hb⟩
  · obtain ⟨hadd, hmul, hdiv⟩ := arithmetic_nan h
    exact ⟨hadd, fsub_nan h, hmul, hdiv, orderedCompare_nan h, orderedCompare_nan h, orderedCompare_nan h,
      orderedCompare_nan h⟩
  · exact ⟨rfl, fadd_canonical a b, fadd_canonical a (fneg b), (fmul_numberOrCanonicalNaN a b).eq_of_isNaN,
      (fdiv_numberOrCanonicalNaN a b).eq_of_isNaN⟩

end Sys2Proof.Proofs
end

section
/-! The parameter check (00_scope R9-R12), and the strategy not selected. -/

namespace Sys2Proof.Proofs

open Sys2Proof.Machine Sys2Proof.Laws

/-! ## Legal parameters -/

theorem finitePattern_iff {w : Word} : finitePattern w = true ↔ ∃ neg mag, decodeF32 w = .fin neg mag := by
  have hexp : finitePattern w = true ↔ expField w ≠ 255 := by simp [finitePattern, expField]
  rw [hexp]
  unfold decodeF32
  constructor
  · intro h
    rw [if_neg h]
    split
    · exact ⟨_, _, rfl⟩
    · exact ⟨_, _, rfl⟩
  · rintro ⟨neg, mag, h⟩ he
    rw [if_pos he] at h
    split at h <;> cases h

theorem rawIncreasing_iff_isChain (rom : List CalPoint) :
    rawIncreasing rom = true ↔ rom.IsChain (fun c d => c.raw.toNat < d.raw.toNat) := by
  induction rom with
  | nil => simp [rawIncreasing]
  | cons c rest ih =>
    cases rest with
    | nil => simp [rawIncreasing]
    | cons d rest => simp [rawIncreasing, ih]

theorem romRaw_of_lt {p : Params} {i : ℕ} (h : i < p.nCal) : romRaw p i = p.rom[i].raw := by
  simp [romRaw, List.getElem?_eq_getElem h]

theorem romTemp_of_lt {p : Params} {i : ℕ} (h : i < p.nCal) : romTemp p i = p.rom[i].temp := by
  simp [romTemp, List.getElem?_eq_getElem h]

/-- The ROM's raw values increase exactly when each is below the next. -/
theorem rawIncreasing_iff (p : Params) :
    rawIncreasing p.rom = true ↔ ∀ i, i + 1 < p.nCal → (romRaw p i).toNat < (romRaw p (i + 1)).toNat := by
  rw [rawIncreasing_iff_isChain, List.isChain_iff_getElem]
  refine forall₂_congr fun i hi => ?_
  rw [romRaw_of_lt hi, romRaw_of_lt (Nat.lt_of_succ_lt hi)]

/-- The ROM's temperatures are finite exactly when each decodes to a finite value. -/
theorem tempsFinite_iff (p : Params) :
    (p.rom.all fun c => finitePattern c.temp) = true
      ↔ ∀ i, i < p.nCal → ∃ neg mag, decodeF32 (romTemp p i) = .fin neg mag := by
  rw [List.all_eq_true, List.forall_mem_iff_getElem]
  refine forall₂_congr fun i hi => ?_
  rw [romTemp_of_lt hi, finitePattern_iff]

/-- The check passes exactly the legal parameter sets. -/
theorem check_ok_iff (p : Params) : p.check = .ok () ↔ LegalParams p := by
  unfold Params.check LegalParams
  rw [← rawIncreasing_iff, ← tempsFinite_iff]
  constructor
  · intro h
    split_ifs at h with hfew hmany hraw htemp hmax htick
    simp only [Bool.not_eq_true', Bool.not_eq_false] at hraw htemp
    exact ⟨by omega, by omega, hraw, htemp, by omega, by omega, by omega⟩
  · rintro ⟨hfew, hmany, hraw, htemp, hmax, htick, htick'⟩
    rw [if_neg (by omega), if_neg (by omega), if_neg (by simp [hraw]), if_neg (by simp [htemp]), if_neg (by omega),
      if_neg (by omega)]

/-- A parameter set is admitted exactly when the check passes. -/
theorem admitted_iff (p : Params) : p.admitted = true ↔ p.check = .ok () := by
  unfold Params.admitted
  cases p.check <;> simp

/-! ## Refusal -/

theorem step_refused_of_check_error {s : State} {e : ParamError} (h : s.params.check = .error e) :
    step s = .refused (.parametersNotAdmitted e) := by
  unfold step
  rw [h]

/-- A step with parameters that pass the check answers a next state. -/
theorem step_next_of_check_ok {s : State} (h : s.params.check = .ok ()) : ∃ t, step s = .next t := by
  unfold step
  rw [h]
  cases s.queue with
  | nil => exact ⟨_, rfl⟩
  | cons i later =>
    cases i with
    | reset => exact ⟨_, rfl⟩
    | transaction cmd data tnow =>
      show ∃ t, runTransaction cmd (acceptTransaction s data tnow later) = .next t
      unfold runTransaction
      split
      · exact ⟨_, rfl⟩
      · obtain ⟨t, -, ht, -⟩ := exec_next _ _
        exact ⟨t, ht⟩

/-- Settles O11: the step refuses what the check refuses, and the check passes exactly the legal sets. -/
theorem stepRefusesExactlyIllegalParameters : Obligations.StepRefusesExactlyIllegalParameters := by
  intro s
  rw [← check_ok_iff]
  constructor
  · rintro ⟨r, hr⟩ hok
    obtain ⟨t, ht⟩ := step_next_of_check_ok hok
    rw [ht] at hr
    cases hr
  · intro hne
    cases hc : s.params.check with
    | ok => exact absurd hc hne
    | error e => exact ⟨_, step_refused_of_check_error hc⟩

/-! ## The strategy not selected -/

theorem execHyst_of_pid {s : State} (h : s.params.strategy = .pid) (x : Sec) : execHyst x s = fail .eStrat s := by
  rw [execHyst, h]

theorem execPid_of_hyst {s : State} (h : s.params.strategy = .hyst) (ch : Channel) : execPid ch s = fail .eStrat s := by
  rw [execPid, h]

/-- Settles O28: each control operation tests the strategy first. -/
theorem otherStrategyFails : Obligations.OtherStrategyFails :=
  ⟨fun x _ h => execHyst_of_pid h x, fun ch _ h => execPid_of_hyst h ch⟩

end Sys2Proof.Proofs
end

section
/-! Every step keeps every invariant of a good state. -/

namespace Sys2Proof.Proofs

open Sys2Proof.Machine Sys2Proof.Laws

/-! ## Reads after writes of one element or one flag -/

theorem getElem_set_fin {α : Type} {n : ℕ} (v : Vector α n) (i j : Fin n) (a : α) :
    (v.set i a)[j] = if j = i then a else v[j] := by
  simp only [Fin.getElem_fin, Vector.getElem_set, Fin.ext_iff, eq_comm]

theorem setFaulted_faulted (s : State) (ch c : Channel) (b : Bool) :
    (s.setFaulted ch b).faulted c = if c = ch then b else s.faulted c := bitAt_setBit ..

theorem setSampled_sampled (s : State) (ch c : Channel) (b : Bool) :
    (s.setSampled ch b).sampled c = if c = ch then b else s.sampled c := bitAt_setBit ..

theorem setPidStarted_pidStarted (s : State) (ch c : Channel) (b : Bool) :
    (s.setPidStarted ch b).pidStarted c = if c = ch then b else s.pidStarted c := bitAt_setBit ..

theorem setHeating_heating (s : State) (x y : Sec) (b : Bool) :
    (s.setHeating x b).heating y = if y = x then b else s.heating y := bitAt_setBit ..

/-! ## Values the operations write -/

/-- An admitted ROM holds no NaN, and neither does the model beyond its end. -/
theorem romTemp_not_nan {p : Params} (h : p.admitted = true) (i : ℕ) : isNaN (romTemp p i) = false := by
  obtain ⟨-, -, -, hfinite, -⟩ := (check_ok_iff p).1 ((admitted_iff p).1 h)
  by_cases hi : i < p.nCal
  · obtain ⟨neg, mag, hdec⟩ := hfinite i hi
    simp [isNaN, hdec]
  · have hzero : romTemp p i = 0#32 := by simp [romTemp, List.getElem?_eq_none (Nat.le_of_not_lt hi)]
    rw [hzero]
    decide

/-- The one NaN a conversion gives is the canonical one. -/
theorem convert_canonical {p : Params} (h : p.admitted = true) (raw : Half) (hnan : isNaN (convert p raw).2 = true) :
    (convert p raw).2 = canonicalNaN := by
  unfold convert at hnan ⊢
  dsimp only at hnan ⊢
  split_ifs at hnan ⊢
  · exact absurd hnan (by decide)
  · rw [romTemp_not_nan h] at hnan
    cases hnan
  · rw [romTemp_not_nan h] at hnan
    cases hnan
  · exact fadd_canonical _ _ hnan

/-- A pattern above +0.0 and not above 1.0 is at most that of 1.0. -/
theorem toNat_le_one_of_unit {u : Word} (hpos : fgt u f32Zero = true) (hone : fgt u f32One = false) :
    u.toNat ≤ 0x3F800000 := by
  obtain ⟨k, z, hk, hz, hgt⟩ := orderedCompare_true hpos
  obtain rfl : 0 = z := Option.some.inj hz
  have hk0 : 0 < k := by simpa using hgt
  have hk1 : k ≤ magOf 0x3F800000 := by
    have hkey : orderKey (decodeF32 f32One) = some (magOf 0x3F800000 : ℤ) := by decide
    rw [fgt, orderedCompare_some hk hkey] at hone
    simpa using hone
  cases hu : decodeF32 u with
  | nan => simp [hu] at hk
  | inf neg =>
    rw [hu] at hk
    obtain rfl := Option.some.inj hk
    have hlt := magOf_lt_inf (low := 0x3F800000) (by norm_num)
    cases neg <;> simp at hk0 hk1
    omega
  | fin neg mag =>
    obtain ⟨low, hlow, rfl, rfl⟩ := decodeF32_fin_iff.1 hu
    rw [hu] at hk
    obtain rfl := Option.some.inj hk
    cases neg
    · rw [signedMag_false] at hk1
      have hle : low ≤ 0x3F800000 := (magOf_le_iff hlow (by norm_num)).1 (by exact_mod_cast hk1)
      rw [packF32_toNat _ (by omega)]
      simpa using hle
    · simp at hk0
      omega

/-- The clamped PID output is a pattern in [+0.0, 1.0] (42_pid R172). -/
theorem pidClamp_toNat_le (u : Word) : (pidClamp u).toNat ≤ 0x3F800000 := by
  unfold pidClamp
  split_ifs with hone hpos
  · decide
  · exact toNat_le_one_of_unit hpos (by simpa using hone)
  · decide

/-- The clamp of AGG lies between its bounds on the ordered line (41_hysteresis R157). -/
theorem aggClamp_between {u lo hi : Word} {l h : ℤ} (hlo : orderKey (decodeF32 lo) = some l)
    (hhi : orderKey (decodeF32 hi) = some h) (hle : l ≤ h) :
    ∃ k, orderKey (decodeF32 (aggClamp u lo hi)) = some k ∧ l ≤ k ∧ k ≤ h := by
  unfold aggClamp
  split_ifs with hlow hhigh
  · exact ⟨l, hlo, le_rfl, hle⟩
  · exact ⟨h, hhi, hle, le_rfl⟩
  · simp only [Bool.or_eq_true, not_or, Bool.not_eq_true] at hlow hhigh
    obtain ⟨hnotBelow, hnumber⟩ := hlow
    cases hk : orderKey (decodeF32 u) with
    | none => simp [isNaN, orderKey_eq_none.1 hk] at hnumber
    | some k =>
      rw [flt, orderedCompare_some hk hlo, decide_eq_false_iff_not] at hnotBelow
      rw [fgt, orderedCompare_some hk hhi, decide_eq_false_iff_not] at hhigh
      exact ⟨k, rfl, not_lt.1 hnotBelow, not_lt.1 hhigh⟩

/-- The place of a small natural number on the ordered line. -/
theorem orderKey_i2f {n : ℕ} (h : n < 2 ^ 24) : orderKey (decodeF32 (i2f n)) = some (2 ^ 149 * n : ℤ) := by
  have hsign : decide ((n : ℤ) < 0) = false := decide_eq_false (by omega)
  rw [decodeF32_i2f (by simpa using h), hsign]
  simp

/-- The integer part of a value up to an integer is up to that integer. -/
theorem ftrunc_le {v : Word} {k : ℤ} {n : ℕ} (hk : orderKey (decodeF32 v) = some k) (hle : k ≤ 2 ^ 149 * n) :
    ftrunc v ≤ n := by
  unfold ftrunc
  split
  · exact Nat.zero_le n
  · exact Nat.zero_le n
  · rename_i neg mag hv
    rw [hv] at hk
    obtain rfl := Option.some.inj hk
    cases neg
    · simp at hle ⊢
      omega
    · exact Nat.zero_le n

/-- What AGG writes under a valid range: a value in 0..65535 whose integer part fits a half word. -/
theorem aggValue_bounds {s : State} (hrange : aggRangeValid s = true) (avg : Word) :
    fle 0#32 (aggValue s avg) = true ∧ fle (aggValue s avg) (i2f 65535) = true ∧ ftrunc (aggValue s avg) < 2 ^ 16 := by
  have hmin := s.aggPmin.isLt
  have hmax := s.aggPmax.isLt
  have hlt : s.aggPmin.toNat < s.aggPmax.toNat := by
    simp only [aggRangeValid, Bool.and_eq_true, decide_eq_true_iff] at hrange
    exact hrange.2
  obtain ⟨k, hk, hlo, hhi⟩ :=
    aggClamp_between (u := aggRemap s.aggTmin s.aggTmax (i2f s.aggPmin.toNat) (i2f s.aggPmax.toNat) avg)
      (orderKey_i2f (n := s.aggPmin.toNat) (by omega)) (orderKey_i2f (n := s.aggPmax.toNat) (by omega)) (by omega)
  change orderKey (decodeF32 (aggValue s avg)) = some k at hk
  have hzero : orderKey (decodeF32 0#32) = some 0 := rfl
  have htop : orderKey (decodeF32 (i2f 65535)) = some (2 ^ 149 * 65535) := orderKey_i2f (n := 65535) (by norm_num)
  refine ⟨?_, ?_, ?_⟩
  · rw [fle, orderedCompare_some hzero hk, decide_eq_true_iff]
    omega
  · rw [fle, orderedCompare_some hk htop, decide_eq_true_iff]
    omega
  · have := ftrunc_le (n := s.aggPmax.toNat) hk hhi
    omega

/-! ## The separation of strategies -/

theorem strategySeparated_hyst {s : State} (h : s.params.strategy = .hyst) :
    s.StrategySeparated ↔ (∀ ch : Channel, s.driven ch = true → s.heating (secOf ch) = true) ∧ s.pinit = 0#16
      ∧ ∀ ch : Channel, s.pout[ch] = 0#32 := by
  rw [State.StrategySeparated, h]

theorem strategySeparated_pid {s : State} (h : s.params.strategy = .pid) : s.StrategySeparated ↔ s.hystOn = 0#4 := by
  rw [State.StrategySeparated, h]

/-! ## Good states under each update -/

section Updates

variable {s : State}

theorem good_respond (h : s.Good) (c : Status) (r : Word) : (s.respond c r).Good := { h with }

theorem good_acceptTransaction (h : s.Good) (data tnow : Word) (later : List Interaction) :
    (acceptTransaction s data tnow later).Good := { h with }

/-- A transaction that ends in a good state leaves a good state. -/
theorem good_of_done {t u : State} {c : Status} {r : Word} (h : u.Good) (ht : done c r u = .next t) : t.Good := by
  injection ht with ht
  exact ht ▸ good_respond h c r

/-- No read-write register is under an invariant. -/
theorem good_writeReg (h : s.Good) (r : Reg) (v : Word) : (writeReg s r v).Good := by
  cases r <;> exact { h with }

/-- Every register at its reset value is good (70_reset R242). -/
theorem good_resetWith {p : Params} (hp : p.admitted = true) (q : List Interaction) : (State.resetWith p q).Good where
  admitted := hp
  faultedHoldsSent ch _ := by simp [State.resetWith]
  tempCanonical ch hnan := by
    simp only [State.resetWith, Fin.getElem_fin, Vector.getElem_replicate] at hnan
    exact absurd hnan (by decide)
  unsampledAsReset ch _ := by simp [State.resetWith, State.faulted]
  unstartedAsReset ch _ := by simp [State.resetWith]
  outputsInUnit ch := by simp [State.resetWith]
  aggregateConsistent x := by
    simp only [State.resetWith, Fin.getElem_fin, Vector.getElem_replicate]
    decide
  strategySeparated := by
    cases hs : p.strategy with
    | hyst =>
      exact (strategySeparated_hyst (s := State.resetWith p q) hs).2
        ⟨by simp [State.resetWith, State.driven], rfl, by simp [State.resetWith]⟩
    | pid => exact (strategySeparated_pid hs).2 rfl

/-- The fault path of SAMPLE (40_lookup R122). -/
theorem good_faultedSample (h : s.Good) (ch : Channel) :
    (({ s with temp := s.temp.set ch Config.sent }).setFaulted ch true).Good where
  admitted := h.admitted
  faultedHoldsSent c hc := by
    rw [setFaulted_faulted] at hc
    rw [setFaulted_temp, getElem_set_fin]
    split_ifs at hc ⊢
    · rfl
    · exact h.faultedHoldsSent c hc
  tempCanonical c hc := by
    rw [setFaulted_temp, getElem_set_fin] at hc ⊢
    split_ifs at hc ⊢
    · exact absurd hc (by decide)
    · exact h.tempCanonical c hc
  unsampledAsReset c hc := by
    obtain ⟨hfault, hts⟩ := h.unsampledAsReset c hc
    rw [setFaulted_faulted]
    refine ⟨?_, hts⟩
    split_ifs
    · rfl
    · exact hfault
  unstartedAsReset := h.unstartedAsReset
  outputsInUnit := h.outputsInUnit
  aggregateConsistent := h.aggregateConsistent
  strategySeparated := h.strategySeparated

/-- The success path of SAMPLE (40_lookup R123), for a value that is no other NaN than the canonical one. -/
theorem good_convertedSample (h : s.Good) (ch : Channel) {v : Word} (hv : isNaN v = true → v = canonicalNaN) :
    ((({ s with temp := s.temp.set ch v, ts := s.ts.set ch s.tnow }).setFaulted ch false).setSampled ch true).Good where
  admitted := h.admitted
  faultedHoldsSent c hc := by
    change (State.setFaulted _ ch false).faulted c = true at hc
    rw [setFaulted_faulted] at hc
    split_ifs at hc with hcc
    rw [setSampled_temp, setFaulted_temp, getElem_set_fin, if_neg hcc]
    exact h.faultedHoldsSent c hc
  tempCanonical c hc := by
    rw [setSampled_temp, setFaulted_temp, getElem_set_fin] at hc ⊢
    split_ifs at hc ⊢
    · exact hv hc
    · exact h.tempCanonical c hc
  unsampledAsReset c hc := by
    rw [setSampled_sampled] at hc
    split_ifs at hc with hcc
    obtain ⟨hfault, hts⟩ := h.unsampledAsReset c hc
    constructor
    · change (State.setFaulted _ ch false).faulted c = true
      rw [setFaulted_faulted, if_neg hcc]
      exact hfault
    · rw [setSampled_ts, setFaulted_ts, getElem_set_fin, if_neg hcc]
      exact hts
  unstartedAsReset := h.unstartedAsReset
  outputsInUnit := h.outputsInUnit
  aggregateConsistent := h.aggregateConsistent
  strategySeparated := h.strategySeparated

/-- The held decisions and the drive requests are under the separation of strategies only. -/
theorem good_controlWrite (h : s.Good) {on : BitVec 4} {drive : Half}
    (hsep : State.StrategySeparated { s with hystOn := on, drive := drive }) :
    State.Good { s with hystOn := on, drive := drive } :=
  { h with strategySeparated := hsep }

/-- The decision of HYST and its drive requests (41_hysteresis R150): a channel of the section is driven only when the
decision is on. -/
theorem good_hystDecision (h : s.Good) (hs : s.params.strategy = .hyst) (x : Sec) (on : Bool) :
    ((s.setHeating x on).requestDriveAll (channelsOf x) on).Good := by
  have hdriven := requestDriveAll_driven (s.setHeating x on) (channelsOf x) on
  have hframe := requestDriveAll_eq (s.setHeating x on) (channelsOf x) on
  generalize (s.setHeating x on).requestDriveAll (channelsOf x) on = t at hdriven hframe ⊢
  obtain ⟨hheat, hpinit, hpout⟩ := (strategySeparated_hyst hs).1 h.strategySeparated
  rw [hframe]
  refine good_controlWrite h ((strategySeparated_hyst (s := { s.setHeating x on with drive := t.drive }) hs).2
    ⟨fun c hc => ?_, hpinit, hpout⟩)
  change t.driven c = true at hc
  change (s.setHeating x on).heating (secOf c) = true
  rw [hdriven] at hc
  rw [setHeating_heating]
  simp only [mem_channelsOf] at hc
  split_ifs at hc ⊢
  · simp only [Bool.and_eq_true] at hc
    exact hc.1
  · exact hheat c hc

/-- A PID without its input (42_pid R175). -/
theorem good_pidForceOff (h : s.Good) (hs : s.params.strategy = .pid) (ch : Channel) : (pidForceOff s ch).Good :=
  { h with
    outputsInUnit := fun c => by
      rw [pidForceOff, requestDrive_pout, getElem_set_fin]
      split_ifs
      · decide
      · exact h.outputsInUnit c
    strategySeparated :=
      (strategySeparated_pid (s := pidForceOff s ch) hs).2 ((strategySeparated_pid hs).1 h.strategySeparated) }

/-- A completed PID update (42_pid R170-R174). -/
theorem good_pidUpdate (h : s.Good) (hs : s.params.strategy = .pid) (ch : Channel) : (pidUpdate s ch).Good :=
  { h with
    unstartedAsReset := fun c hc => by
      change (State.setPidStarted _ ch true).pidStarted c = false at hc
      rw [setPidStarted_pidStarted] at hc
      split_ifs at hc with hcc
      simp only [pidUpdate, requestDrive_integ, requestDrive_perr, requestDrive_ptime, setPidStarted_integ,
        setPidStarted_perr, setPidStarted_ptime, getElem_set_fin, if_neg hcc]
      exact h.unstartedAsReset c hc
    outputsInUnit := fun c => by
      rw [pidUpdate, requestDrive_pout, setPidStarted_pout, getElem_set_fin]
      split_ifs
      · exact pidClamp_toNat_le _
      · exact h.outputsInUnit c
    strategySeparated :=
      (strategySeparated_pid (s := pidUpdate s ch) hs).2 ((strategySeparated_pid hs).1 h.strategySeparated) }

/-- The writes of AGG (41_hysteresis R155), for a value in range. -/
theorem good_aggWrite (h : s.Good) (x : Sec) {v : Word} (hlo : fle 0#32 v = true) (hhi : fle v (i2f 65535) = true)
    (htrunc : ftrunc v < 2 ^ 16) :
    State.Good { s with aggOut := s.aggOut.set x v, aggPwm := s.aggPwm.set x (BitVec.ofNat 16 (ftrunc v)) } :=
  { h with
    aggregateConsistent := fun y => by
      rw [getElem_set_fin, getElem_set_fin]
      split_ifs
      · exact ⟨hlo, hhi, by rw [BitVec.toNat_ofNat, Nat.mod_eq_of_lt htrunc]⟩
      · exact h.aggregateConsistent y }

end Updates

/-! ## Good states under each command, and under a step -/

section Commands

variable {s t : State} (h : s.Good)
include h

theorem execSample_good {ch : Channel} {raw : Half} (ht : execSample ch raw s = .next t) : t.Good := by
  rcases execSample_cases ch raw s with ⟨-, he⟩ | ⟨-, -, he⟩ | ⟨-, -, -, he⟩ <;> rw [he] at ht
  · exact good_of_done h ht
  · exact good_of_done (good_faultedSample h ch) ht
  · exact good_of_done (good_convertedSample h ch (convert_canonical h.admitted raw)) ht

theorem execHyst_good {x : Sec} (ht : execHyst x s = .next t) : t.Good := by
  cases hs : s.params.strategy with
  | pid =>
    rw [execHyst_of_pid hs] at ht
    exact good_of_done h ht
  | hyst =>
    rw [execHyst, hs] at ht
    dsimp only at ht
    split_ifs at ht
    · exact good_of_done (good_hystDecision h hs x false) ht
    · exact good_of_done (good_hystDecision h hs x _) ht

theorem execPid_good {ch : Channel} (ht : execPid ch s = .next t) : t.Good := by
  cases hs : s.params.strategy with
  | hyst =>
    rw [execPid_of_hyst hs] at ht
    exact good_of_done h ht
  | pid =>
    rw [execPid, hs] at ht
    dsimp only at ht
    split_ifs at ht
    · exact good_of_done (good_pidForceOff h hs ch) ht
    · exact good_of_done (good_pidForceOff h hs ch) ht
    · exact good_of_done (good_pidUpdate h hs ch) ht

theorem execAgg_good {x : Sec} (ht : execAgg x s = .next t) : t.Good := by
  unfold execAgg at ht
  split_ifs at ht with hrange
  · exact good_of_done h ht
  · obtain ⟨hlo, hhi, htrunc⟩ := aggValue_bounds (by simpa using hrange) (sectionAverage s x).2
    exact good_of_done (good_aggWrite h x hlo hhi htrunc) ht

theorem execRdreg_good {addr : Half} (ht : execRdreg addr s = .next t) : t.Good := by
  unfold execRdreg at ht
  split at ht
  · exact good_of_done h ht
  · exact good_of_done h ht

theorem execWrreg_good {addr : Half} (ht : execWrreg addr s = .next t) : t.Good := by
  unfold execWrreg at ht
  split at ht
  · exact good_of_done h ht
  · split at ht
    · exact good_of_done h ht
    · exact good_of_done (good_writeReg h _ _) ht

/-- Every command keeps a good state good. -/
theorem exec_good {i : Instr} (ht : exec i s = .next t) : t.Good := by
  cases i with
  | nop => exact good_of_done h ht
  | conv raw => exact good_of_done h ht
  | sample ch raw => exact execSample_good h ht
  | avg x => exact good_of_done h ht
  | hyst x => exact execHyst_good h ht
  | pid ch => exact execPid_good h ht
  | agg x => exact execAgg_good h ht
  | rdreg addr => exact execRdreg_good h ht
  | wrreg addr => exact execWrreg_good h ht

end Commands

/-- Settles O49: a step is idle, a RESET, a failure with E_ILLEGAL, or one command. -/
theorem stepKeepsGoodStates : Obligations.StepKeepsGoodStates := by
  intro s t h ht
  obtain ⟨-, hcases⟩ := step_cases ht
  rcases hcases with ⟨-, rfl⟩ | ⟨later, -, rfl⟩ | ⟨cmd, data, tnow, later, e, -, -, rfl⟩ |
    ⟨cmd, data, tnow, later, i, -, -, hexec⟩
  · exact h
  · exact good_resetWith h.admitted later
  · exact good_respond (good_acceptTransaction h data tnow later) _ _
  · exact exec_good (good_acceptTransaction h data tnow later) hexec

end Sys2Proof.Proofs
end

section
/-! The register map against the table of 10_state R59. -/

namespace Sys2Proof.Proofs

open Sys2Proof.Machine Sys2Proof.Laws

/-! ## The word of PARAM -/

theorem toNat_append_eq_add {m n : ℕ} (x : BitVec m) (y : BitVec n) :
    (x ++ y).toNat = 2 ^ n * x.toNat + y.toNat := by
  rw [BitVec.toNat_append, ← Nat.shiftLeft_add_eq_or_of_lt y.isLt, Nat.shiftLeft_eq, Nat.mul_comm]

/-- The fields of PARAM do not overlap, as N_CAL fits its nine bits (10_state R57). -/
theorem paramWord_eq {p : Params} (h : p.nCal ≤ 256) :
    paramWord p =
      BitVec.ofNat 32 (p.nCal + (if p.strategy = .pid then 2 ^ 9 else 0) + 2 ^ 16 * p.rawMax.toNat) := by
  apply BitVec.eq_of_toNat_eq
  have hraw := p.rawMax.isLt
  unfold paramWord
  simp only [toNat_append_eq_add, BitVec.toNat_ofNat]
  cases p.strategy <;> simp <;> omega

/-! ## Registers at their addresses -/

/-- The registers of the two ROM windows, the only ones whose mapping depends on N_CAL (10_state R59). -/
def inRomWindow : Reg → Bool
  | .romRaw _ | .romTemp _ => true
  | _ => false

/-- Every register outside the ROM windows stands at its address. -/
theorem fixedRegAt_addr {r : Reg} (h : inRomWindow r = false) :
    fixedRegAt (BitVec.ofNat 16 r.addr).toNat = some r := by
  cases r with
  | romRaw i => cases h
  | romTemp i => cases h
  | target x | aggOut x | aggPwm x =>
    revert x
    decide
  | temp ch | ts ch | integ ch | perr ch | ptime ch | pout ch =>
    revert ch
    decide
  | _ => rfl

/-- Every register outside the ROM windows is read at its address. -/
theorem peek_addr (s : State) (r : Reg) (h : inRomWindow r = false) :
    peek s (BitVec.ofNat 16 r.addr) = some (readReg s r) :=
  peek_fixed (fixedRegAt_addr h)

/-- Both ROM windows are read below N_CAL. -/
theorem peek_rom (s : State) {i : ℕ} (hi : i < 256) (hn : i < s.params.nCal) :
    peek s (BitVec.ofNat 16 (0x100 + i)) = some ((romRaw s.params i).setWidth 32)
    ∧ peek s (BitVec.ofNat 16 (0x200 + i)) = some (romTemp s.params i) := by
  have hraw : (BitVec.ofNat 16 (0x100 + i)).toNat = 0x100 + i := Nat.mod_eq_of_lt (by omega)
  have htemp : (BitVec.ofNat 16 (0x200 + i)).toNat = 0x200 + i := Nat.mod_eq_of_lt (by omega)
  rw [peek, peek, regAt_romRaw hi hn hraw, regAt_romTemp hi hn htemp]
  exact ⟨rfl, rfl⟩

/-! ## The mapped addresses -/

/-- A block of consecutive addresses is mapped when each address of it is. -/
theorem fixedRegAt_of_block {base n a : ℕ} (hblock : ∀ k : Fin n, (fixedRegAt (base + k.val)).isSome = true)
    (ha : base ≤ a ∧ a < base + n) : ∃ r, fixedRegAt a = some r := by
  have hk := hblock ⟨a - base, by omega⟩
  rw [show base + (a - base) = a by omega] at hk
  exact Option.isSome_iff_exists.1 hk

/-- A register outside the ROM windows stands at an address of the table. -/
theorem mappedAddr_of_fixedRegAt {n : ℕ} {a : Half} {r : Reg} (h : fixedRegAt a.toNat = some r) :
    mappedAddr n a := by
  obtain ⟨haddr, hlt⟩ := fixedRegAt_some h
  unfold mappedAddr writableAddr
  cases r <;> simp only [Reg.addr] at haddr <;> omega

theorem mappedAddr_of_regAt {p : Params} {a : Half} {r : Reg} (h : regAt p a = some r) : mappedAddr p.nCal a := by
  rcases regAt_cases h with hfixed | ⟨i, -, hi, ha⟩ | ⟨i, -, hi, ha⟩
  · exact mappedAddr_of_fixedRegAt hfixed
  · unfold mappedAddr
    omega
  · unfold mappedAddr
    omega

/-- Each block of the table holds a register at every address, a ROM window as far as N_CAL. -/
theorem regAt_of_mappedAddr {p : Params} {a : Half} (hp : p.nCal ≤ 256) (h : mappedAddr p.nCal a) :
    ∃ r, regAt p a = some r := by
  have of_fixed : (∃ r, fixedRegAt a.toNat = some r) → ∃ r, regAt p a = some r :=
    fun ⟨r, hr⟩ => ⟨r, regAt_of_fixed hr⟩
  rcases h with h | (h | h | h) | h | h | h | h | ⟨hlo, hhi⟩ | ⟨hlo, hhi⟩
  · exact of_fixed (fixedRegAt_of_block (base := 0x000) (n := 2) (by decide) (by omega))
  · exact of_fixed (fixedRegAt_of_block (base := 0x010) (n := 9) (by decide) (by omega))
  · exact of_fixed (fixedRegAt_of_block (base := 0x020) (n := 4) (by decide) (by omega))
  · exact of_fixed (fixedRegAt_of_block (base := 0x028) (n := 4) (by decide) (by omega))
  · exact of_fixed (fixedRegAt_of_block (base := 0x040) (n := 34) (by decide) (by omega))
  · exact of_fixed (fixedRegAt_of_block (base := 0x080) (n := 49) (by decide) (by omega))
  · exact of_fixed (fixedRegAt_of_block (base := 0x0C0) (n := 18) (by decide) (by omega))
  · exact of_fixed (fixedRegAt_of_block (base := 0x0E0) (n := 8) (by decide) (by omega))
  · exact ⟨_, regAt_romRaw (i := a.toNat - 0x100) (by omega) (by omega) (by omega)⟩
  · exact ⟨_, regAt_romTemp (i := a.toNat - 0x200) (by omega) (by omega) (by omega)⟩

theorem peek_eq_none_iff {s : State} (h : s.params.nCal ≤ 256) (a : Half) :
    peek s a = none ↔ ¬ mappedAddr s.params.nCal a := by
  rw [peek, Option.map_eq_none_iff, Option.eq_none_iff_forall_ne_some]
  constructor
  · intro hnone hmapped
    obtain ⟨r, hr⟩ := regAt_of_mappedAddr h hmapped
    exact hnone r hr
  · intro hunmapped r hr
    exact hunmapped (mappedAddr_of_regAt hr)

/-- Settles O44: each row outside the ROM windows by `peek_addr`, PARAM's fields by `paramWord_eq`. -/
theorem registerMapFollowsTable : Obligations.RegisterMapFollowsTable := by
  intro s hn
  refine ⟨(peek_addr s .param rfl).trans (congrArg some (paramWord_eq hn)), peek_addr s .tickHz rfl,
    peek_addr s .kp rfl, peek_addr s .ki rfl, peek_addr s .kd rfl, peek_addr s .pidThr rfl, peek_addr s .iclamp rfl,
    peek_addr s .hystBand rfl, peek_addr s .minSi rfl, peek_addr s .ctrl rfl, peek_addr s .active rfl,
    fun x => peek_addr s (.target x) rfl, peek_addr s .aggTmin rfl, peek_addr s .aggTmax rfl,
    peek_addr s .aggPmin rfl, peek_addr s .aggPmax rfl, fun ch => peek_addr s (.temp ch) rfl,
    fun ch => peek_addr s (.ts ch) rfl, peek_addr s .tsVld rfl, peek_addr s .tflt rfl,
    fun ch => peek_addr s (.integ ch) rfl, fun ch => peek_addr s (.perr ch) rfl,
    fun ch => peek_addr s (.ptime ch) rfl, peek_addr s .pinit rfl, fun ch => peek_addr s (.pout ch) rfl,
    peek_addr s .hystOn rfl, peek_addr s .drive rfl, fun x => peek_addr s (.aggOut x) rfl,
    fun x => peek_addr s (.aggPwm x) rfl, fun i hi => peek_rom s (by omega) hi, peek_eq_none_iff hn⟩

end Sys2Proof.Proofs
end

section
/-! What a command can write, and what every step keeps of the parameters, the sample state, the flags and the drive
requests (10_state R37, R55, R56, R62; 20_memory R76). -/

namespace Sys2Proof.Proofs

open Sys2Proof.Machine Sys2Proof.Laws

/-! ## The writes of the control operations -/

/-- The held decision HYST leaves for a section: off without a setpoint (41_hysteresis R148), else the comparator's. -/
def newHeating (s : State) (x : Sec) : Bool :=
  !noSetpoint s x && hystDecision s.target[x] s.hystBand (sectionAverage s x).2 (s.heating x)

/-- The writes of HYST: the held decision, and the drive requests of the section (41_hysteresis R148, R150). -/
def hystWrite (s : State) (x : Sec) (on : Bool) : State := (s.setHeating x on).requestDriveAll (channelsOf x) on

/-- HYST under its own strategy ends in one pair of writes, whatever the section holds. -/
theorem execHyst_of_hyst {s : State} (h : s.params.strategy = .hyst) (x : Sec) :
    execHyst x s = done (if noSetpoint s x then .noTarget else (sectionAverage s x).1) (sectionAverage s x).2
      (hystWrite s x (newHeating s x)) := by
  rw [execHyst, h]
  dsimp only
  cases hset : noSetpoint s x
  · simp [newHeating, hystWrite, hset]
  · simp [newHeating, hystWrite, hset]

/-- PID under its own strategy forces its channel off, for lack of an input (42_pid R175), or completes an update. -/
theorem execPid_of_pid {s : State} (h : s.params.strategy = .pid) (ch : Channel) :
    ((noSetpoint s (secOf ch) = true ∨ s.faulted ch = true) ∧
      ∃ c, execPid ch s = done c f32Zero (pidForceOff s ch))
    ∨ (noSetpoint s (secOf ch) = false ∧ s.faulted ch = false ∧
      execPid ch s = done .ok (pidOutput s ch) (pidUpdate s ch)) := by
  rw [execPid, h]
  dsimp only
  cases hset : noSetpoint s (secOf ch) with
  | true => exact .inl ⟨.inl rfl, _, rfl⟩
  | false =>
    cases hfault : s.faulted ch with
    | true => exact .inl ⟨.inr rfl, _, rfl⟩
    | false => exact .inr ⟨rfl, rfl, rfl⟩

/-! ## What a command can write -/

/-- The register writes of a command before its response: from `s` it can come to `u`. -/
inductive RegisterWrites (s : State) : Instr → State → Prop where
  /-- Nothing: a command that only reads, a cached sample, a failure. -/
  | nothing (i : Instr) : RegisterWrites s i s
  /-- The fault path of SAMPLE (40_lookup R122). -/
  | sampleFault (ch : Channel) (raw : Half) (hraw : raw.toNat = 0 ∨ s.params.rawMax.toNat ≤ raw.toNat) :
      RegisterWrites s (.sample ch raw) (({ s with temp := s.temp.set ch Config.sent }).setFaulted ch true)
  /-- The success path of SAMPLE (40_lookup R123). -/
  | sampleConverted (ch : Channel) (raw : Half) (hraw : ¬ (raw.toNat = 0 ∨ s.params.rawMax.toNat ≤ raw.toNat)) :
      RegisterWrites s (.sample ch raw)
        ((({ s with temp := s.temp.set ch (convert s.params raw).2, ts := s.ts.set ch s.tnow }).setFaulted ch
          false).setSampled ch true)
  /-- HYST, deployed. -/
  | hyst (x : Sec) (hs : s.params.strategy = .hyst) : RegisterWrites s (.hyst x) (hystWrite s x (newHeating s x))
  /-- PID, deployed, without its input. -/
  | pidForcedOff (ch : Channel) (hs : s.params.strategy = .pid) : RegisterWrites s (.pid ch) (pidForceOff s ch)
  /-- PID, deployed, with its inputs. -/
  | pidUpdated (ch : Channel) (hs : s.params.strategy = .pid) : RegisterWrites s (.pid ch) (pidUpdate s ch)
  /-- AGG with a valid range (41_hysteresis R155). -/
  | agg (x : Sec) (v : Word) : RegisterWrites s (.agg x)
      { s with aggOut := s.aggOut.set x v, aggPwm := s.aggPwm.set x (BitVec.ofNat 16 (ftrunc v)) }
  /-- WRREG of a read-write register (43_register_access R193). -/
  | wrreg (addr : Half) (r : Reg) (hr : regAt s.params addr = some r) (ha : r.access = .readWrite) :
      RegisterWrites s (.wrreg addr) (writeReg s r s.data)

/-- A command that answers `t` has made its writes and then responded. -/
def WritesThenResponds (s : State) (i : Instr) (t : State) : Prop :=
  ∃ u c r, RegisterWrites s i u ∧ t = u.respond c r

theorem writesThenResponds_of_done {s t u : State} {i : Instr} {c : Status} {r : Word} (hw : RegisterWrites s i u)
    (h : done c r u = .next t) : WritesThenResponds s i t := by
  injection h with h
  exact ⟨u, c, r, hw, h.symm⟩

theorem execSample_writes {s t : State} {ch : Channel} {raw : Half} (h : execSample ch raw s = .next t) :
    WritesThenResponds s (.sample ch raw) t := by
  rcases execSample_cases ch raw s with ⟨-, he⟩ | ⟨-, hraw, he⟩ | ⟨-, hraw, -, he⟩ <;> rw [he] at h
  · exact writesThenResponds_of_done (.nothing _) h
  · exact writesThenResponds_of_done (.sampleFault ch raw hraw) h
  · exact writesThenResponds_of_done (.sampleConverted ch raw hraw) h

theorem execHyst_writes {s t : State} {x : Sec} (h : execHyst x s = .next t) : WritesThenResponds s (.hyst x) t := by
  cases hs : s.params.strategy with
  | pid =>
    rw [execHyst_of_pid hs] at h
    exact writesThenResponds_of_done (.nothing _) h
  | hyst =>
    rw [execHyst_of_hyst hs] at h
    exact writesThenResponds_of_done (.hyst x hs) h

theorem execPid_writes {s t : State} {ch : Channel} (h : execPid ch s = .next t) :
    WritesThenResponds s (.pid ch) t := by
  cases hs : s.params.strategy with
  | hyst =>
    rw [execPid_of_hyst hs] at h
    exact writesThenResponds_of_done (.nothing _) h
  | pid =>
    rcases execPid_of_pid hs ch with ⟨-, c, he⟩ | ⟨-, -, he⟩ <;> rw [he] at h
    · exact writesThenResponds_of_done (.pidForcedOff ch hs) h
    · exact writesThenResponds_of_done (.pidUpdated ch hs) h

theorem execAgg_writes {s t : State} {x : Sec} (h : execAgg x s = .next t) : WritesThenResponds s (.agg x) t := by
  unfold execAgg at h
  split_ifs at h
  · exact writesThenResponds_of_done (.nothing _) h
  · exact writesThenResponds_of_done (.agg x _) h

theorem execRdreg_writes {s t : State} {addr : Half} (h : execRdreg addr s = .next t) :
    WritesThenResponds s (.rdreg addr) t := by
  unfold execRdreg at h
  split at h
  · exact writesThenResponds_of_done (.nothing _) h
  · exact writesThenResponds_of_done (.nothing _) h

theorem execWrreg_writes {s t : State} {addr : Half} (h : execWrreg addr s = .next t) :
    WritesThenResponds s (.wrreg addr) t := by
  unfold execWrreg at h
  split at h
  · exact writesThenResponds_of_done (.nothing _) h
  · rename_i r hr
    cases ha : r.access with
    | readOnly =>
      rw [ha] at h
      exact writesThenResponds_of_done (.nothing _) h
    | readWrite =>
      rw [ha] at h
      exact writesThenResponds_of_done (.wrreg addr r hr ha) h

/-- Every command writes as `RegisterWrites` says and then responds. -/
theorem exec_writes {s t : State} {i : Instr} (h : exec i s = .next t) : WritesThenResponds s i t := by
  cases i with
  | sample ch raw => exact execSample_writes h
  | hyst x => exact execHyst_writes h
  | pid ch => exact execPid_writes h
  | agg x => exact execAgg_writes h
  | rdreg addr => exact execRdreg_writes h
  | wrreg addr => exact execWrreg_writes h
  | nop | conv raw | avg x => exact writesThenResponds_of_done (.nothing _) h

/-! ## What each write leaves -/

section Fields

variable (s : State)

theorem hystWrite_eq (x : Sec) (on : Bool) :
    hystWrite s x on = { s with hystOn := setBit s.hystOn x on, drive := (hystWrite s x on).drive } :=
  requestDriveAll_eq (s.setHeating x on) (channelsOf x) on

@[simp] theorem hystWrite_temp (x : Sec) (on : Bool) : (hystWrite s x on).temp = s.temp := by rw [hystWrite_eq]
@[simp] theorem hystWrite_tflt (x : Sec) (on : Bool) : (hystWrite s x on).tflt = s.tflt := by rw [hystWrite_eq]
@[simp] theorem hystWrite_tsVld (x : Sec) (on : Bool) : (hystWrite s x on).tsVld = s.tsVld := by rw [hystWrite_eq]
@[simp] theorem hystWrite_pinit (x : Sec) (on : Bool) : (hystWrite s x on).pinit = s.pinit := by rw [hystWrite_eq]

-- No read-write register is a flag, a temperature or a drive request (10_state R59).
@[simp] theorem writeReg_temp (r : Reg) (v : Word) : (writeReg s r v).temp = s.temp := by cases r <;> rfl
@[simp] theorem writeReg_tflt (r : Reg) (v : Word) : (writeReg s r v).tflt = s.tflt := by cases r <;> rfl
@[simp] theorem writeReg_tsVld (r : Reg) (v : Word) : (writeReg s r v).tsVld = s.tsVld := by cases r <;> rfl
@[simp] theorem writeReg_pinit (r : Reg) (v : Word) : (writeReg s r v).pinit = s.pinit := by cases r <;> rfl
@[simp] theorem writeReg_hystOn (r : Reg) (v : Word) : (writeReg s r v).hystOn = s.hystOn := by cases r <;> rfl
@[simp] theorem writeReg_drive (r : Reg) (v : Word) : (writeReg s r v).drive = s.drive := by cases r <;> rfl

/-- A drive request after one gated write (10_state R56). -/
theorem requestDrive_driven (ch c : Channel) (d : Bool) :
    (s.requestDrive ch d).driven c = if c = ch then d && s.isActive ch else s.driven c := bitAt_setBit ..

theorem hystWrite_driven (x : Sec) (on : Bool) (c : Channel) :
    (hystWrite s x on).driven c = if secOf c = x then on && s.isActive c else s.driven c := by
  rw [hystWrite, requestDriveAll_driven]
  simp only [mem_channelsOf]
  rfl

theorem pidForceOff_driven (ch c : Channel) :
    (pidForceOff s ch).driven c = if c = ch then false else s.driven c := requestDrive_driven ..

theorem pidUpdate_driven (ch c : Channel) :
    (pidUpdate s ch).driven c = if c = ch then fgt (pidOutput s ch) s.pidThr && s.isActive ch else s.driven c :=
  requestDrive_driven ..

end Fields

/-! ## What the writes of a command keep -/

section Kept

variable {s u : State} {i : Instr} (h : RegisterWrites s i u)
include h

/-- Only SAMPLE writes the sample state. -/
theorem writes_keep_samples (hi : ∀ ch raw, i ≠ .sample ch raw) :
    u.temp = s.temp ∧ u.tflt = s.tflt ∧ u.tsVld = s.tsVld := by
  cases h with
  | sampleFault ch raw | sampleConverted ch raw => exact absurd rfl (hi ch raw)
  | hyst x => exact ⟨hystWrite_temp .., hystWrite_tflt .., hystWrite_tsVld ..⟩
  | wrreg addr r => exact ⟨writeReg_temp .., writeReg_tflt .., writeReg_tsVld ..⟩
  | nothing | pidForcedOff | pidUpdated | agg => exact ⟨rfl, rfl, rfl⟩

/-- Only PID writes PINIT. -/
theorem writes_keep_pinit (hi : ∀ ch, i ≠ .pid ch) : u.pinit = s.pinit := by
  cases h with
  | pidForcedOff ch | pidUpdated ch => exact absurd rfl (hi ch)
  | hyst x => exact hystWrite_pinit ..
  | wrreg addr r => exact writeReg_pinit ..
  | nothing | sampleFault | sampleConverted | agg => rfl

/-- Only HYST writes HYST_ON. -/
theorem writes_keep_hystOn (hi : ∀ x, i ≠ .hyst x) : u.hystOn = s.hystOn := by
  cases h with
  | hyst x => exact absurd rfl (hi x)
  | wrreg addr r => exact writeReg_hystOn ..
  | nothing | sampleFault | sampleConverted | pidForcedOff | pidUpdated | agg => rfl

/-- A drive request that changes is one of the deployed control operation's own (10_state R55). -/
theorem writes_driven_owner {c : Channel} (hc : u.driven c ≠ s.driven c) :
    (i = .hyst (secOf c) ∧ s.params.strategy = .hyst) ∨ (i = .pid c ∧ s.params.strategy = .pid) := by
  cases h with
  | hyst x hs =>
    rw [hystWrite_driven] at hc
    split_ifs at hc with hx
    · exact .inl ⟨by rw [hx], hs⟩
    · exact absurd rfl hc
  | pidForcedOff ch hs =>
    rw [pidForceOff_driven] at hc
    split_ifs at hc with hch
    · exact .inr ⟨by rw [hch], hs⟩
    · exact absurd rfl hc
  | pidUpdated ch hs =>
    rw [pidUpdate_driven] at hc
    split_ifs at hc with hch
    · exact .inr ⟨by rw [hch], hs⟩
    · exact absurd rfl hc
  | wrreg addr r => exact absurd (congrArg (bitAt · c) (writeReg_drive ..)) hc
  | nothing | sampleFault | sampleConverted | agg => exact absurd rfl hc

/-- A faulted channel holds the sentinel: the fault path of SAMPLE writes both, the success path clears the fault
(10_state R37). -/
theorem writes_keep_faultedHoldsSent (hsent : s.FaultedHoldsSent) : u.FaultedHoldsSent := by
  have of_kept (hi : ∀ ch raw, i ≠ .sample ch raw) : u.FaultedHoldsSent := by
    obtain ⟨htemp, htflt, -⟩ := writes_keep_samples h hi
    intro c hc
    rw [State.faulted, htflt] at hc
    rw [htemp]
    exact hsent c hc
  cases h with
  | nothing => exact hsent
  | sampleFault ch raw =>
    intro c hc
    rw [setFaulted_faulted] at hc
    rw [setFaulted_temp, getElem_set_fin]
    split_ifs at hc ⊢
    · rfl
    · exact hsent c hc
  | sampleConverted ch raw =>
    intro c hc
    change (State.setFaulted _ ch false).faulted c = true at hc
    rw [setFaulted_faulted] at hc
    split_ifs at hc with hcc
    rw [setSampled_temp, setFaulted_temp, getElem_set_fin, if_neg hcc]
    exact hsent c hc
  | hyst | pidForcedOff | pidUpdated | agg | wrreg => exact of_kept (fun _ _ => Instr.noConfusion)

end Kept

/-! ## A property every step keeps -/

/-- A step is idle, a RESET, a failure with E_ILLEGAL or one command: what these keep, every step keeps. -/
theorem step_keeps {P : State → Prop} (reset : ∀ s q, P s → P (State.resetWith s.params q))
    (accept : ∀ s data tnow later, P s → P (acceptTransaction s data tnow later))
    (respond : ∀ s c r, P s → P (s.respond c r)) (command : ∀ s i t, exec i s = .next t → P s → P t)
    {s t : State} (hs : P s) (ht : step s = .next t) : P t := by
  obtain ⟨-, hcases⟩ := step_cases ht
  rcases hcases with ⟨-, rfl⟩ | ⟨later, -, rfl⟩ | ⟨cmd, data, tnow, later, e, -, -, rfl⟩ |
    ⟨cmd, data, tnow, later, i, -, -, hexec⟩
  · exact hs
  · exact reset s later hs
  · exact respond _ _ _ (accept s data tnow later hs)
  · exact command _ i t hexec (accept s data tnow later hs)

theorem exec_keeps_params {s t : State} {i : Instr} (h : exec i s = .next t) : t.params = s.params := by
  obtain ⟨u, r, hnext, -, hparams, -⟩ := exec_next i s
  rw [h] at hnext
  injection hnext with hnext
  rw [hnext, hparams]

theorem exec_keeps_faultedHoldsSent {s t : State} {i : Instr} (h : exec i s = .next t) (hsent : s.FaultedHoldsSent) :
    t.FaultedHoldsSent := by
  obtain ⟨u, c, r, hw, rfl⟩ := exec_writes h
  exact writes_keep_faultedHoldsSent (u := u) hw hsent

/-! ## The statements -/

/-- Settles O51: RESET keeps the parameters, and so does every command. -/
theorem stepKeepsParameters : Obligations.StepKeepsParameters := fun s _ ht =>
  step_keeps (P := fun u => u.params = s.params) (fun _ _ h => h) (fun _ _ _ _ h => h) (fun _ _ _ h => h)
    (fun _ _ _ he h => (exec_keeps_params he).trans h) rfl ht

/-- Settles O52. -/
theorem flagsAreWrittenByTheirOwnersOnly : Obligations.FlagsAreWrittenByTheirOwnersOnly := by
  intro i s t ht
  obtain ⟨u, c, r, hw, rfl⟩ := exec_writes ht
  exact ⟨fun hi => (writes_keep_samples hw hi).2, fun hi => writes_keep_pinit (u := u) hw hi,
    fun hi => writes_keep_hystOn (u := u) hw hi⟩

/-- Settles O53. -/
theorem driveIsWrittenByControlOnly : Obligations.DriveIsWrittenByControlOnly := by
  intro i s t c ht hc
  obtain ⟨u, st, r, hw, rfl⟩ := exec_writes ht
  exact writes_driven_owner hw hc

/-- Settles O54: each control operation writes the requests of its channels through the gate of R56. -/
theorem inactiveChannelIsOffAfterItsControl : Obligations.InactiveChannelIsOffAfterItsControl := by
  constructor
  · intro x s t c hs ht hx hoff
    change execHyst x s = .next t at ht
    rw [execHyst_of_hyst hs] at ht
    injection ht with ht
    rw [← ht, respond_driven, hystWrite_driven, if_pos hx, hoff, Bool.and_false]
  · intro c s t hs ht hoff
    change execPid c s = .next t at ht
    rcases execPid_of_pid hs c with ⟨-, st, he⟩ | ⟨-, -, he⟩ <;> rw [he] at ht <;> injection ht with ht
    · rw [← ht, respond_driven, pidForceOff_driven, if_pos rfl]
    · rw [← ht, respond_driven, pidUpdate_driven, if_pos rfl, hoff, Bool.and_false]

/-- A calibration whose first point is at -999.0: a valid sample of it converts to the bit pattern of SENT. -/
def sentinelRom : Params where
  rom := [⟨100#16, 0xC479C000#32⟩, ⟨300#16, 0x00000000#32⟩]
  rawMax := 1023#16
  tickHz := 1000#32
  strategy := .hyst

/-- Settles O48: RESET and every command keep it; for the converse, a sample of `sentinelRom`. -/
theorem stepKeepsFaultedChannelsAtSentinel : Obligations.StepKeepsFaultedChannelsAtSentinel := by
  refine ⟨fun s t hsent ht => ?_, sentinelRom, 100#16, _, by decide, rfl, by decide, by decide⟩
  have hreset (p : Params) (q : List Interaction) : (State.resetWith p q).FaultedHoldsSent :=
    fun ch _ => by simp [State.resetWith]
  exact step_keeps (P := State.FaultedHoldsSent) (fun s q _ => hreset s.params q) (fun _ _ _ _ h => h)
    (fun _ _ _ h => h) (fun _ _ _ he h => exec_keeps_faultedHoldsSent he h) hsent ht

end Sys2Proof.Proofs
end

section
/-! The step on each interaction of the host (20_memory R70, R71; 60_exceptions R210, R220). -/

namespace Sys2Proof.Proofs

open Sys2Proof.Machine Sys2Proof.Laws

/-! ## The step, by the next interaction -/

section NextInteraction

variable {s : State} (hp : s.params.admitted = true)
include hp

theorem step_idle (hq : s.queue = []) : step s = .next s := by
  rw [step, (admitted_iff _).mp hp, hq]

theorem step_reset {later : List Interaction} (hq : s.queue = .reset :: later) :
    step s = .next (State.resetWith s.params later) := by
  rw [step, (admitted_iff _).mp hp, hq]
  rfl

theorem step_transaction {cmd data tnow : Word} {later : List Interaction}
    (hq : s.queue = .transaction cmd data tnow :: later) :
    step s = runTransaction cmd (acceptTransaction s data tnow later) := by
  rw [step, (admitted_iff _).mp hp, hq]

end NextInteraction

/-! ## One transaction -/

theorem runTransaction_of_decode {cmd : Word} {i : Instr} (h : decode cmd = .ok i) (s : State) :
    runTransaction cmd s = exec i s := by
  rw [runTransaction, h]

theorem runTransaction_of_illegal {cmd : Word} {e : DecodeError} (h : decode cmd = .error e) (s : State) :
    runTransaction cmd s = fail .eIllegal s := by
  rw [runTransaction, h]

/-- Every word, legal or not, is answered with a response, and the interactions after it stay queued. -/
theorem runTransaction_next (cmd : Word) (s : State) :
    ∃ t r, runTransaction cmd s = .next t ∧ t.response = some r ∧ t.queue = s.queue := by
  cases hd : decode cmd with
  | error e => exact ⟨_, _, runTransaction_of_illegal hd s, respond_response .., respond_queue ..⟩
  | ok i =>
    obtain ⟨t, r, ht, hr, -, hqueue, -, -⟩ := exec_next i s
    exact ⟨t, r, (runTransaction_of_decode hd s).trans ht, hr, hqueue⟩

/-! ## The statements -/

/-- Settles O7: the step accepts the transaction and runs its word. -/
theorem stepRunsDecodedCommand : Obligations.StepRunsDecodedCommand := by
  intro s cmd data tnow later i hp hq hd
  calc step s = runTransaction cmd (acceptTransaction s data tnow later) := step_transaction hp hq
    _ = exec i (acceptTransaction s data tnow later) := runTransaction_of_decode hd _

/-- Settles O12, by the next interaction of the queue. -/
theorem everyStepAnswersNextState : Obligations.EveryStepAnswersNextState := by
  intro s hp
  cases hq : s.queue with
  | nil => exact ⟨s, step_idle hp hq, by simp⟩
  | cons next later =>
    cases next with
    | reset => exact ⟨_, step_reset hp hq, by simp [State.resetWith]⟩
    | transaction cmd data tnow =>
      obtain ⟨t, r, ht, hr, hqueue⟩ := runTransaction_next cmd (acceptTransaction s data tnow later)
      exact ⟨t, (step_transaction hp hq).trans ht, by simp [hr, hqueue]⟩

end Sys2Proof.Proofs
end

section
/-! WRREG repeated (20_memory R79). -/

namespace Sys2Proof.Proofs

open Sys2Proof.Machine Sys2Proof.Laws

/-! ## WRREG, by what stands at the address -/

section Wrreg

variable {s : State} {addr : Half}

theorem execWrreg_of_unmapped (h : regAt s.params addr = none) : execWrreg addr s = fail .eRegAddr s := by
  rw [execWrreg, h]

theorem execWrreg_of_readOnly {r : Reg} (h : regAt s.params addr = some r) (ha : r.access = .readOnly) :
    execWrreg addr s = fail .eRegRo s := by
  simp only [execWrreg, h, ha]

theorem execWrreg_of_readWrite {r : Reg} (h : regAt s.params addr = some r) (ha : r.access = .readWrite) :
    execWrreg addr s = done .ok 0#32 (writeReg s r s.data) := by
  simp only [execWrreg, h, ha]

end Wrreg

/-! ## A register written twice -/

@[simp] theorem writeReg_params (s : State) (r : Reg) (v : Word) : (writeReg s r v).params = s.params := by
  cases r <;> rfl

@[simp] theorem writeReg_data (s : State) (r : Reg) (v : Word) : (writeReg s r v).data = s.data := by
  cases r <;> rfl

theorem writeReg_respond (s : State) (r : Reg) (v : Word) (c : Status) (w : Word) :
    writeReg (s.respond c w) r v = (writeReg s r v).respond c w := by
  cases r <;> rfl

theorem writeReg_writeReg (s : State) (r : Reg) (v : Word) : writeReg (writeReg s r v) r v = writeReg s r v := by
  cases r with
  | target x => simp [writeReg, Vector.set_set]
  | _ => rfl

/-- Settles O47: the answered state has the same register at the address and the same DATA; a failure writes nothing
either time, and a register written again with one word holds what it held. -/
theorem wrregIsIdempotent : Obligations.WrregIsIdempotent := by
  intro addr s t ht
  change execWrreg addr s = .next t at ht
  show execWrreg addr t = .next t
  cases hr : regAt s.params addr with
  | none =>
    rw [execWrreg_of_unmapped hr] at ht
    cases ht
    exact execWrreg_of_unmapped hr
  | some r =>
    cases ha : r.access with
    | readOnly =>
      rw [execWrreg_of_readOnly hr ha] at ht
      cases ht
      exact execWrreg_of_readOnly hr ha
    | readWrite =>
      rw [execWrreg_of_readWrite hr ha] at ht
      cases ht
      have hr' : regAt ((writeReg s r s.data).respond .ok 0#32).params addr = some r := by
        rwa [respond_params, writeReg_params]
      rw [execWrreg_of_readWrite hr' ha, respond_data, writeReg_data, writeReg_respond, writeReg_writeReg]
      rfl

end Sys2Proof.Proofs
end

section
/-! Which operations read the inputs DATA and TNOW of their transaction (20_memory R73, R74). -/

namespace Sys2Proof.Proofs

open Sys2Proof.Machine Sys2Proof.Laws

/-! ## Another presentation of the inputs -/

/-- `s` with the DATA and the TNOW presented changed by `f` and `g`; an input whose function is `id` stays. -/
def mapInputs (f g : Word → Word) (s : State) : State := { s with data := f s.data, tnow := g s.tnow }

/-- `f` applied to the state an answer goes on in. -/
def onNext (f : State → State) : Answer → Answer
  | .next t => .next (f t)
  | .fault r => .fault r
  | .refused r => .refused r

/-- The operation does not see its inputs changed by `f` and `g`: it answers the same, but for the inputs, which it
keeps as presented. -/
def Ignores (f g : Word → Word) (op : State → Answer) : Prop :=
  ∀ s, op (mapInputs f g s) = onNext (mapInputs f g) (op s)

theorem Ignores.next {f g : Word → Word} {op : State → Answer} (h : Ignores f g op) {s t : State}
    (ht : op s = .next t) : op (mapInputs f g s) = .next (mapInputs f g t) := by
  rw [h, ht]
  rfl

/-! ## What each operation ignores -/

section Operations

variable (f g : Word → Word)

theorem requestDriveAll_mapInputs (s : State) (chs : List Channel) (d : Bool) :
    (mapInputs f g s).requestDriveAll chs d = mapInputs f g (s.requestDriveAll chs d) := by
  unfold State.requestDriveAll
  induction chs generalizing s with
  | nil => rfl
  | cons ch rest ih => exact ih (s.requestDrive ch d)

theorem hystWrite_mapInputs (s : State) (x : Sec) (on : Bool) :
    hystWrite (mapInputs f g s) x on = mapInputs f g (hystWrite s x on) :=
  requestDriveAll_mapInputs f g (s.setHeating x on) (channelsOf x) on

theorem readReg_mapInputs (s : State) (r : Reg) : readReg (mapInputs f g s) r = readReg s r := by
  cases r <;> rfl

theorem writeReg_mapInputs (s : State) (r : Reg) (v : Word) :
    writeReg (mapInputs f g s) r v = mapInputs f g (writeReg s r v) := by
  cases r <;> rfl

theorem execHyst_ignores (x : Sec) : Ignores f g (execHyst x) := by
  intro s
  cases hs : s.params.strategy with
  | pid =>
    rw [execHyst_of_pid hs, execHyst_of_pid (s := mapInputs f g s) hs]
    rfl
  | hyst =>
    rw [execHyst_of_hyst hs, execHyst_of_hyst (s := mapInputs f g s) hs, hystWrite_mapInputs]
    rfl

theorem execAgg_ignores (x : Sec) : Ignores f g (execAgg x) := by
  intro s
  have hrange : aggRangeValid (mapInputs f g s) = aggRangeValid s := rfl
  unfold execAgg
  rw [hrange]
  cases aggRangeValid s <;> rfl

theorem execRdreg_ignores (addr : Half) : Ignores f g (execRdreg addr) := by
  intro s
  have hparams : (mapInputs f g s).params = s.params := rfl
  unfold execRdreg
  rw [hparams]
  cases regAt s.params addr with
  | none => rfl
  | some r => exact congrArg (done .ok · (mapInputs f g s)) (readReg_mapInputs f g s r)

/-- SAMPLE reads TNOW, by the rate limiter and as the time of a success, but not DATA. -/
theorem execSample_ignores_data (ch : Channel) (raw : Half) : Ignores f id (execSample ch raw) := by
  intro s
  have hlimited : rateLimited (mapInputs f id s) ch = rateLimited s ch := rfl
  have hparams : (mapInputs f id s).params = s.params := rfl
  unfold execSample
  rw [hlimited, hparams]
  cases rateLimited s ch with
  | true => rfl
  | false =>
    simp only [Bool.false_eq_true, if_false]
    split <;> rfl

/-- PID reads TNOW, as the time of an update, but not DATA. -/
theorem execPid_ignores_data (ch : Channel) : Ignores f id (execPid ch) := by
  intro s
  cases hs : s.params.strategy with
  | hyst =>
    rw [execPid_of_hyst hs, execPid_of_hyst (s := mapInputs f id s) hs]
    rfl
  | pid =>
    have hs' : (mapInputs f id s).params.strategy = .pid := hs
    have hset : noSetpoint (mapInputs f id s) (secOf ch) = noSetpoint s (secOf ch) := rfl
    have hfault : (mapInputs f id s).faulted ch = s.faulted ch := rfl
    simp only [execPid, hs, hs', hset, hfault]
    cases noSetpoint s (secOf ch) with
    | true => rfl
    | false => cases s.faulted ch <;> rfl

/-- WRREG reads DATA but not TNOW. -/
theorem execWrreg_ignores_tnow (addr : Half) : Ignores id g (execWrreg addr) := by
  intro s
  cases hr : regAt s.params addr with
  | none =>
    rw [execWrreg_of_unmapped hr, execWrreg_of_unmapped (s := mapInputs id g s) hr]
    rfl
  | some r =>
    cases ha : r.access with
    | readOnly =>
      rw [execWrreg_of_readOnly hr ha, execWrreg_of_readOnly (s := mapInputs id g s) hr ha]
      rfl
    | readWrite =>
      rw [execWrreg_of_readWrite hr ha, execWrreg_of_readWrite (s := mapInputs id g s) hr ha, writeReg_mapInputs]
      rfl

end Operations

/-- Only WRREG reads DATA, and only SAMPLE and PID read TNOW: no other command sees these inputs change. -/
theorem exec_ignores {f g : Word → Word} {i : Instr} (hwrreg : ∀ addr, i = .wrreg addr → f = id)
    (hsample : ∀ ch raw, i = .sample ch raw → g = id) (hpid : ∀ ch, i = .pid ch → g = id) :
    Ignores f g (exec i) := by
  cases i with
  | nop | conv raw | avg x => exact fun _ => rfl
  | sample ch raw =>
    obtain rfl := hsample ch raw rfl
    exact execSample_ignores_data f ch raw
  | hyst x => exact execHyst_ignores f g x
  | pid ch =>
    obtain rfl := hpid ch rfl
    exact execPid_ignores_data f ch
  | agg x => exact execAgg_ignores f g x
  | rdreg addr => exact execRdreg_ignores f g addr
  | wrreg addr =>
    obtain rfl := hwrreg addr rfl
    exact execWrreg_ignores_tnow g addr

/-! ## The statements -/

/-- Settles O55: DATA becomes `d`, TNOW stays. -/
theorem dataIsReadByWrregOnly : Obligations.DataIsReadByWrregOnly := fun _ _ _ d hi ht =>
  (exec_ignores (f := fun _ => d) (g := id) (fun addr h => absurd h (hi addr)) (fun _ _ _ => rfl)
    (fun _ _ => rfl)).next ht

/-- Settles O56: DATA stays, TNOW becomes `n`. -/
theorem timestampIsReadBySampleAndPidOnly : Obligations.TimestampIsReadBySampleAndPidOnly :=
  fun _ _ _ n hsample hpid ht =>
    (exec_ignores (f := id) (g := fun _ => n) (fun _ _ => rfl) (fun ch raw h => absurd h (hsample ch raw))
      (fun ch h => absurd h (hpid ch))).next ht

end Sys2Proof.Proofs
end

section
/-! The command word: decoding against encoding, and the illegal words (30_encoding R94, R96, R97, R101). -/

namespace Sys2Proof.Proofs

open Sys2Proof.Machine Sys2Proof.Laws

/-! ## The decoder, by the row of the word's OPC -/

section Decoder

variable {cmd : Word} {i : Instr} {row : OpcodeRow}

theorem opcodeRow_eq_none_iff (opc : BitVec 4) : opcodeRow opc = none ↔ 9 ≤ opc.toNat := by
  revert opc
  decide

/-- Every OPC that has a row has an operation. -/
theorem exists_operationOf (hrow : opcodeRow (opcField cmd) = some row) : ∃ i, operationOf cmd = some i := by
  unfold opcodeRow at hrow
  unfold operationOf
  split at hrow
  case h_10 => cases hrow
  all_goals simp only [*, Option.some.injEq, exists_eq']

theorem decode_of_noRow (hrow : opcodeRow (opcField cmd) = none) :
    decode cmd = .error (.reservedOpcode (opcField cmd)) := by
  simp only [decode, hrow]

theorem decode_of_row (hrow : opcodeRow (opcField cmd) = some row) (hi : operationOf cmd = some i) :
    decode cmd = if cmd &&& row.mask = row.pattern then .ok i else .error (.mustBeZeroBit (opcField cmd)) := by
  simp only [decode, hrow, hi]

/-- A legal word: its OPC has a row, it agrees with the row wherever the row compares, and the command is the row's. -/
theorem decode_eq_ok_iff : decode cmd = .ok i ↔
    operationOf cmd = some i ∧ ∃ row, opcodeRow (opcField cmd) = some row ∧ cmd &&& row.mask = row.pattern := by
  cases hrow : opcodeRow (opcField cmd) with
  | none => simp [decode_of_noRow hrow]
  | some row =>
    obtain ⟨j, hj⟩ := exists_operationOf hrow
    by_cases hfit : cmd &&& row.mask = row.pattern <;> simp [decode_of_row hrow hj, hj, hfit]

/-- An illegal word: its OPC has no row, or it differs from its row in a bit the row compares. -/
theorem decode_eq_error_iff : (∃ e, decode cmd = .error e) ↔
    opcodeRow (opcField cmd) = none ∨
      ∃ row, opcodeRow (opcField cmd) = some row ∧ cmd &&& row.mask ≠ row.pattern := by
  cases hrow : opcodeRow (opcField cmd) with
  | none => simp [decode_of_noRow hrow]
  | some row =>
    obtain ⟨j, hj⟩ := exists_operationOf hrow
    by_cases hfit : cmd &&& row.mask = row.pattern <;> simp [decode_of_row hrow hj, hfit]

theorem opcField_of_operationOf (hi : operationOf cmd = some i) : opcField cmd = i.opc := by
  unfold operationOf at hi
  split at hi
  case h_10 => cases hi
  all_goals
    cases hi
    exact BitVec.eq_of_toNat_eq ‹_›

end Decoder

/-! ## The word of a command -/

@[simp] theorem opcField_encode (i : Instr) : opcField (encode i) = i.opc := by
  cases i <;> exact packCommand_opc ..

@[simp] theorem operationOf_encode (i : Instr) : operationOf (encode i) = some i := by
  unfold operationOf
  rw [opcField_encode]
  cases i <;> simp [Instr.opc, encode]

theorem encode_fitsRow (i : Instr) : EncodeFitsRow.Statement i := by
  cases i with
  | nop => exact EncodeFitsRow.nop
  | conv raw => exact EncodeFitsRow.conv raw
  | sample ch raw => exact EncodeFitsRow.sample ch raw
  | avg x => exact EncodeFitsRow.avg x
  | hyst x => exact EncodeFitsRow.hyst x
  | pid ch => exact EncodeFitsRow.pid ch
  | agg x => exact EncodeFitsRow.agg x
  | rdreg addr => exact EncodeFitsRow.rdreg addr
  | wrreg addr => exact EncodeFitsRow.wrreg addr

theorem decode_encode (i : Instr) : decode (encode i) = .ok i := by
  obtain ⟨row, hrow, hfit⟩ := encode_fitsRow i
  exact decode_eq_ok_iff.mpr ⟨operationOf_encode i, row, by rwa [opcField_encode], hfit⟩

/-! ## The operand bits, which no row compares -/

section Operands

variable (cmd : Word) (opc : BitVec 4) (ch : Channel) (x : Sec) (imm : Half) {k : Nat}

theorem packCommand_imm16Field_bit (hk : k < 16) :
    (packCommand opc ch x (imm16Field cmd)).getLsbD k = cmd.getLsbD k := by
  simp [packCommand_bit, imm16Field, hk]

theorem packCommand_secField_bit (hlo : 22 ≤ k) (hhi : k < 24) :
    (packCommand opc ch (secField cmd) imm).getLsbD k = cmd.getLsbD k := by
  obtain ⟨j, rfl⟩ : ∃ j, k = 22 + j := ⟨k - 22, by omega⟩
  have hfield : BitVec.ofFin (secField cmd) = cmd.extractLsb' 22 2 := rfl
  have hj : j < 2 := by omega
  rw [packCommand_bit, if_neg (by omega), if_neg (by omega), if_pos hhi, hfield]
  simp [hj]

theorem packCommand_chField_bit (hlo : 24 ≤ k) (hhi : k < 28) :
    (packCommand opc (chField cmd) x imm).getLsbD k = cmd.getLsbD k := by
  obtain ⟨j, rfl⟩ : ∃ j, k = 24 + j := ⟨k - 24, by omega⟩
  have hfield : BitVec.ofFin (chField cmd) = cmd.extractLsb' 24 4 := rfl
  have hj : j < 4 := by omega
  rw [packCommand_bit, if_neg (by omega), if_neg (by omega), if_neg (by omega), if_pos hhi, hfield]
  simp [hj]

end Operands

/-- The command of a word keeps every bit that its row does not compare: these are the bits of its operands. -/
theorem encode_bit_of_not_compared {cmd : Word} {i : Instr} {row : OpcodeRow} {k : Nat} (hk : k < 32)
    (hi : operationOf cmd = some i) (hrow : opcodeRow i.opc = some row) (hmask : row.mask.getLsbD k = false) :
    (encode i).getLsbD k = cmd.getLsbD k := by
  have hopc := opcField_of_operationOf hi
  rw [operationOf, hopc] at hi
  cases i with
  | nop =>
    cases hrow
    have hfull : ∀ k < 32, (0xFFFFFFFF#32).getLsbD k = true := by decide
    exact absurd (hfull k hk) (by simp [hmask])
  | conv raw | rdreg raw | wrreg raw =>
    cases hrow
    cases hi
    have himm : ∀ k < 32, (0xFFFF0000#32).getLsbD k = false → k < 16 := by decide
    exact packCommand_imm16Field_bit cmd _ _ _ (himm k hk hmask)
  | sample ch raw =>
    cases hrow
    cases hi
    have hoperands : ∀ k < 32, (0xF0FF0000#32).getLsbD k = false → k < 16 ∨ 24 ≤ k ∧ k < 28 := by decide
    obtain himm | ⟨hlo, hhi⟩ := hoperands k hk hmask
    · exact packCommand_imm16Field_bit cmd _ _ _ himm
    · exact packCommand_chField_bit cmd _ _ _ hlo hhi
  | avg x | hyst x | agg x =>
    cases hrow
    cases hi
    have hsec : ∀ k < 32, (0xFF3FFFFF#32).getLsbD k = false → 22 ≤ k ∧ k < 24 := by decide
    obtain ⟨hlo, hhi⟩ := hsec k hk hmask
    exact packCommand_secField_bit cmd _ _ _ hlo hhi
  | pid ch =>
    cases hrow
    cases hi
    have hch : ∀ k < 32, (0xF0FFFFFF#32).getLsbD k = false → 24 ≤ k ∧ k < 28 := by decide
    obtain ⟨hlo, hhi⟩ := hch k hk hmask
    exact packCommand_chField_bit cmd _ _ _ hlo hhi

/-! ## The bits a row requires to be zero -/

/-- The match of a row is its OPC over 28 zero bits, and its mask compares the whole OPC. -/
theorem opcodeRow_opcBits {opc : BitVec 4} {row : OpcodeRow} (hrow : opcodeRow opc = some row) :
    row.pattern = opc ++ 0#28 ∧ ∀ k < 4, row.mask.getLsbD (k + 28) = true := by
  have h : ∀ opc, ∀ row ∈ opcodeRow opc, row.pattern = opc ++ 0#28 ∧ ∀ k < 4, row.mask.getLsbD (k + 28) = true := by
    decide
  exact h opc row hrow

/-- The row of a word's OPC already agrees with the word in bits 31..28, so only stray bits below them can break it. -/
theorem fits_row_iff {cmd : Word} {row : OpcodeRow} (hrow : opcodeRow (opcField cmd) = some row) :
    cmd &&& row.mask = row.pattern ↔ ∀ k < 28, row.mask.getLsbD k = true → cmd.getLsbD k = false := by
  obtain ⟨hpattern, hmask⟩ := opcodeRow_opcBits hrow
  constructor
  · intro hfit k hk hm
    have hbit := congrArg (BitVec.getLsbD · k) hfit
    simp only [hpattern, BitVec.getLsbD_and, BitVec.getLsbD_append, hm, hk, if_true] at hbit
    simpa using hbit
  · intro hzero
    refine BitVec.eq_of_getLsbD_eq fun k hk => ?_
    rw [hpattern, BitVec.getLsbD_and, BitVec.getLsbD_append]
    by_cases hlow : k < 28
    · cases hm : row.mask.getLsbD k with
      | false => simp [hlow]
      | true => simp [hlow, hzero k hlow hm]
    · obtain ⟨j, rfl⟩ : ∃ j, k = j + 28 := ⟨k - 28, by omega⟩
      have hj : j < 4 := by omega
      simp [hmask j hj, opcField, hj, Nat.add_comm]

/-! ## The statements -/

/-- Settles O1: a command's word fits the row of its OPC, and the fields hold the operands packed. -/
theorem encodedCommandDecodesToItself : Obligations.EncodedCommandDecodesToItself :=
  fun i _ => decode_encode i

/-- Settles O2: the two words agree with one row in the bits it compares, and in the operand bits besides. -/
theorem decodedCommandEncodesToItsWord : Obligations.DecodedCommandEncodesToItsWord := by
  intro cmd i h
  obtain ⟨hi, row, hrow, hfit⟩ := decode_eq_ok_iff.mp h
  obtain ⟨row', hrow', hfit'⟩ := encode_fitsRow i
  obtain rfl : row = row' := by
    rw [opcField_of_operationOf hi, hrow'] at hrow
    exact (Option.some.inj hrow).symm
  refine BitVec.eq_of_getLsbD_eq fun k hk => ?_
  cases hm : row.mask.getLsbD k with
  | false => exact encode_bit_of_not_compared hk hi hrow' hm
  | true =>
    have hbit := congrArg (BitVec.getLsbD · k) (hfit'.trans hfit.symm)
    simpa [hm] using hbit

/-- Settles O3: the row of the OPC decides, and the step of an illegal word fails in the state it accepted. -/
theorem illegalWordsAreStrayBitsOrReservedOpcodes : Obligations.IllegalWordsAreStrayBitsOrReservedOpcodes := by
  refine ⟨fun cmd => ?_, fun s cmd data tnow later hp hq ⟨e, he⟩ => ?_⟩
  · rw [decode_eq_error_iff, opcodeRow_eq_none_iff]
    refine or_congr_right (exists_congr fun row => ?_)
    rw [exists_and_left]
    refine and_congr_right fun hrow => ?_
    rw [Ne, fits_row_iff hrow]
    simp
  · calc step s = runTransaction cmd (acceptTransaction s data tnow later) := step_transaction hp hq
      _ = fail .eIllegal (acceptTransaction s data tnow later) := runTransaction_of_illegal he _

/-- Settles O4: each word is the encoding of its command. -/
theorem writtenOutWordsDecode : Obligations.WrittenOutWordsDecode :=
  ⟨decode_encode .nop, decode_encode (.conv 470#16), decode_encode (.sample 3 470#16), decode_encode (.avg 3),
    decode_encode (.hyst 1), decode_encode (.pid 13), decode_encode (.agg 1), decode_encode (.rdreg 0x0D1#16),
    decode_encode (.wrreg 0x020#16)⟩

end Sys2Proof.Proofs
end

section
/-! The assembler: the TNOW of each line, and the pseudo-instructions (30_encoding R99, R100). -/

namespace Sys2Proof.Proofs

open Sys2Proof.Machine

/-- A parsed line is one transaction, and its TNOW is handed on to the next line. -/
theorem assembleFrom_cons {line : List Char} {now : Option Word} {c : Command}
    (hline : parseLine line = some (now, c)) (before : Word) (rest : List (List Char)) :
    assembleFrom before (line :: rest) = (assembleFrom (now.getD before) rest).bind fun later =>
      some (.transaction (encode c.instr) c.data (now.getD before) :: later) := by
  rw [assembleFrom, hline]
  rfl

/-- Settles O5: the rest is assembled from the TNOW of this line. -/
theorem linesCarryTimestampForward : Obligations.LinesCarryTimestampForward := by
  intro before line rest now c later hline hrest
  rw [assembleFrom_cons hline, hrest, Option.bind_some]

/-! ## The pseudo-instructions, by mnemonic -/

section Pseudo

variable (a d : List Char)

theorem parseCommand_wrf : parseCommand "wrf".toList [a, d] =
    (parseAddr a).bind fun addr => (parseDecimalF32 d).bind fun v => some (writeCommand addr v) := rfl

theorem parseCommand_settarget : parseCommand "settarget".toList [a, d] =
    (parseIndexed 's' 4 a).bind fun x => (parseDecimalF32 d).bind fun v => some (writeCommand (targetAddr x) v) := rfl

theorem parseCommand_notarget : parseCommand "notarget".toList [a] =
    (parseIndexed 's' 4 a).map fun x => writeCommand (targetAddr x) Config.sent := rfl

theorem parseCommand_rdtemp : parseCommand "rdtemp".toList [a] =
    (parseIndexed 'c' 16 a).map fun ch => plainCommand (.rdreg (BitVec.ofNat 16 (Reg.temp ch).addr)) := rfl

theorem parseCommand_setactive : parseCommand "setactive".toList [a] =
    (parseBits 16 a).map fun mask => writeCommand (BitVec.ofNat 16 Reg.active.addr) (zext32 mask) := rfl

end Pseudo

/-- Settles O6, one mnemonic at a time. -/
theorem pseudoInstructionsExpand : Obligations.PseudoInstructionsExpand := by
  refine ⟨fun a d addr v ha hd => ?_, fun a d x v ha hd => ?_, fun a x ha => ?_, fun a ch ha => ?_,
    fun a mask ha => ?_⟩
  · rw [parseCommand_wrf, ha, hd]
    rfl
  · rw [parseCommand_settarget, ha, hd]
    rfl
  · rw [parseCommand_notarget, ha]
    rfl
  · rw [parseCommand_rdtemp, ha]
    rfl
  · rw [parseCommand_setactive, ha]
    rfl

end Sys2Proof.Proofs
end

section
/-! The order of binary32 words, and the primitives of the interpolation as monotone functions of one operand
(00_scope R18, R19; 40_lookup R116(b)). -/

namespace Sys2Proof.Proofs

open Sys2Proof.Machine Sys2Proof.Laws

/-! ## Signed magnitudes -/

theorem signedMag_decide (z : ℤ) : signedMag (decide (z < 0)) z.natAbs = z := by
  by_cases hz : z < 0
  · rw [decide_eq_true hz, signedMag_true]
    omega
  · rw [decide_eq_false hz, signedMag_false]
    omega

/-- A monotone function of magnitudes that keeps zero keeps the order of signed magnitudes. -/
theorem signedMag_map_le {f : ℕ → ℕ} (hf : Monotone f) (h0 : f 0 = 0) {p q : Bool} {m n : ℕ}
    (h : signedMag p m ≤ signedMag q n) : signedMag p (f m) ≤ signedMag q (f n) := by
  cases p <;> cases q <;> simp only [signedMag_false, signedMag_true] at h ⊢
  · exact_mod_cast hf (by omega)
  · obtain ⟨rfl, rfl⟩ : m = 0 ∧ n = 0 := by omega
    simp [h0]
  · omega
  · have := hf (show n ≤ m by omega)
    omega

/-! ## `fle` as an order on words -/

theorem fge_eq_fle (a b : Word) : fge a b = fle b a := by
  unfold fge fle orderedCompare
  cases orderKey (decodeF32 a) <;> cases orderKey (decodeF32 b) <;> rfl

/-- `fle` compares places on the ordered line. -/
theorem fle_iff {a b : Word} {x y : ℤ} (ha : orderKey (decodeF32 a) = some x) (hb : orderKey (decodeF32 b) = some y) :
    fle a b = true ↔ x ≤ y := by
  rw [fle, orderedCompare_some ha hb, decide_eq_true_iff]

/-- A word of a sign and bits 30..0 lies where those put it. -/
theorem fle_pack {p q : Bool} {l k : ℕ} (hl : l ≤ 0x7F800000) (hk : k ≤ 0x7F800000)
    (h : signedMag p l ≤ signedMag q k) : fle (packF32 p l) (packF32 q k) = true := by
  rw [fle_iff (orderKey_pack p hl) (orderKey_pack q hk)]
  have hmono : Monotone fun n => magKey (min n 0x7F800000) := fun a b hab =>
    magKey_mono (min_le_min_right _ hab) (min_le_right _ _)
  simpa only [min_eq_left hl, min_eq_left hk] using signedMag_map_le hmono rfl h

/-- A word that is not a NaN is a sign and bits 30..0 up to those of infinity. -/
theorem eq_pack_of_not_nan {w : Word} (h : isNaN w = false) : ∃ p l, l ≤ 0x7F800000 ∧ w = packF32 p l := by
  cases hw : decodeF32 w with
  | nan => simp [isNaN, hw] at h
  | inf p => exact ⟨p, _, le_rfl, (eq_infPattern hw).trans (infPattern_eq_pack p)⟩
  | fin p m =>
    obtain ⟨low, hlow, he, -⟩ := decodeF32_fin_iff.1 hw
    exact ⟨p, low, hlow.le, he⟩

theorem not_nan_of_fle {a b : Word} (h : fle a b = true) : isNaN a = false ∧ isNaN b = false := by
  by_contra hnan
  rw [not_and_or, Bool.not_eq_false, Bool.not_eq_false] at hnan
  rw [fle, orderedCompare_nan hnan] at h
  cases h

/-- Every number lies between the infinities. -/
theorem fle_infinities {w : Word} (h : isNaN w = false) :
    fle (infPattern true) w = true ∧ fle w (infPattern false) = true := by
  obtain ⟨p, l, hl, rfl⟩ := eq_pack_of_not_nan h
  rw [infPattern_eq_pack, infPattern_eq_pack]
  constructor <;> refine fle_pack (by omega) (by omega) ?_ <;> cases p <;>
    simp only [signedMag_false, signedMag_true] <;> omega

/-- A place on the ordered line is that of an infinity, or of a finite word strictly between them. -/
theorem place_cases {w : Word} {x : ℤ} (h : orderKey (decodeF32 w) = some x) :
    (w = infPattern true ∧ x = -(2 ^ 128 * 2 ^ 149)) ∨ (w = infPattern false ∧ x = 2 ^ 128 * 2 ^ 149)
    ∨ ∃ p m, decodeF32 w = .fin p m ∧ x = signedMag p m ∧ -(2 ^ 128 * 2 ^ 149) < x ∧ x < 2 ^ 128 * 2 ^ 149 := by
  cases hw : decodeF32 w with
  | nan => simp [hw] at h
  | inf p =>
    obtain rfl := Option.some.inj ((congrArg orderKey hw).symm.trans h)
    cases p
    · exact .inr (.inl ⟨eq_infPattern hw, rfl⟩)
    · exact .inl ⟨eq_infPattern hw, rfl⟩
  | fin p m =>
    obtain rfl := Option.some.inj ((congrArg orderKey hw).symm.trans h)
    obtain ⟨low, hlow, -, rfl⟩ := decodeF32_fin_iff.1 hw
    have hlt := magOf_lt_inf hlow
    refine .inr (.inr ⟨p, _, rfl, rfl, ?_⟩)
    cases p <;> simp only [signedMag_false, signedMag_true] <;> omega

/-- Two words in order: the lower is -infinity, or the upper +infinity, or both are finite and in order. -/
theorem fle_cases {a b : Word} (h : fle a b = true) :
    a = infPattern true ∨ b = infPattern false ∨ ∃ p m q n, decodeF32 a = .fin p m ∧ decodeF32 b = .fin q n
      ∧ signedMag p m ≤ signedMag q n := by
  obtain ⟨x, y, hx, hy, hle⟩ := orderedCompare_true h
  rw [decide_eq_true_iff] at hle
  rcases place_cases hx with ⟨ha, -⟩ | ⟨-, hxinf⟩ | ⟨p, m, ha, rfl, hlo, -⟩
  · exact .inl ha
  · rcases place_cases hy with ⟨-, hy⟩ | ⟨hb, -⟩ | ⟨-, -, -, -, -, hlt⟩
    · omega
    · exact .inr (.inl hb)
    · omega
  · rcases place_cases hy with ⟨-, hyinf⟩ | ⟨hb, -⟩ | ⟨q, n, hb, rfl, -⟩
    · omega
    · exact .inr (.inl hb)
    · exact .inr (.inr ⟨p, m, q, n, ha, hb, hle⟩)

/-- A function of words that keeps the infinities and the order of finite words keeps the order of all words. -/
theorem fle_map {g : Word → Word} (hinf : ∀ p, g (infPattern p) = infPattern p)
    (hfin : ∀ {a b : Word} {p q : Bool} {m n : ℕ}, decodeF32 a = .fin p m → decodeF32 b = .fin q n →
      signedMag p m ≤ signedMag q n → fle (g a) (g b) = true)
    {a b : Word} (h : fle a b = true) : fle (g a) (g b) = true := by
  have hnum {w : Word} (hw : isNaN w = false) : isNaN (g w) = false := by
    cases hd : decodeF32 w with
    | nan => simp [isNaN, hd] at hw
    | inf p => simp [eq_infPattern hd, hinf, isNaN]
    | fin p m => exact (not_nan_of_fle (hfin hd hd le_rfl)).1
  obtain ⟨ha, hb⟩ := not_nan_of_fle h
  rcases fle_cases h with rfl | rfl | ⟨p, m, q, n, hm, hn, hle⟩
  · rw [hinf]
    exact (fle_infinities (hnum hb)).1
  · rw [hinf]
    exact (fle_infinities (hnum ha)).2
  · exact hfin hm hn hle

/-! ## The primitives of the interpolation -/

/-- A signed integer count of units 2^-149, rounded once. -/
def roundUnits (z : ℤ) : Word := packF32 (decide (z < 0)) (roundMag z.natAbs 1)

theorem roundUnits_mono {y z : ℤ} (h : y ≤ z) : fle (roundUnits y) (roundUnits z) = true := by
  refine fle_pack (roundMag_le_inf _ _) (roundMag_le_inf _ _) ?_
  refine signedMag_map_le (f := fun n => roundMag n 1) (fun _ _ h => roundMag_mono h) (roundMag_zero 1) ?_
  rwa [signedMag_decide, signedMag_decide]

/-- A finite sum has the place of its exact value rounded once, whatever the sign of a zero. -/
theorem orderKey_fadd {a b : Word} {p q : Bool} {m n : ℕ} (ha : decodeF32 a = .fin p m)
    (hb : decodeF32 b = .fin q n) :
    orderKey (decodeF32 (fadd a b)) = orderKey (decodeF32 (roundUnits (signedMag p m + signedMag q n))) := by
  rw [fadd_fin ha hb]
  split
  · rename_i hz
    rw [hz, decodeF32_zeroPattern]
    cases p && q <;> rfl
  · rfl

theorem fle_congr {a a' b b' : Word} (ha : orderKey (decodeF32 a) = orderKey (decodeF32 a'))
    (hb : orderKey (decodeF32 b) = orderKey (decodeF32 b')) : fle a b = fle a' b' := by
  simp only [fle, orderedCompare, ha, hb]

/-- `fadd` of a finite constant keeps the order. -/
theorem fadd_mono {c : Word} {r : Bool} {k : ℕ} (hc : decodeF32 c = .fin r k) {a b : Word} (h : fle a b = true) :
    fle (fadd c a) (fadd c b) = true := by
  refine fle_map (fun p => by simp [fadd, hc]) (fun ha hb hle => ?_) h
  rw [fle_congr (orderKey_fadd hc ha) (orderKey_fadd hc hb)]
  exact roundUnits_mono (by omega)

/-- `fdiv` by a positive finite constant keeps the order. -/
theorem fdiv_mono {d : Word} {k : ℕ} (hd : decodeF32 d = .fin false k) (hk : k ≠ 0) {a b : Word}
    (h : fle a b = true) : fle (fdiv a d) (fdiv b d) = true := by
  refine fle_map (g := fun w => fdiv w d) (fun p => by simp [fdiv, hd]) (fun {_ _ p q m n} ha hb hle => ?_) h
  rw [fdiv_fin ha hd hk, fdiv_fin hb hd hk, Bool.xor_false, Bool.xor_false]
  refine fle_pack (roundMag_le_inf _ _) (roundMag_le_inf _ _) ?_
  exact signedMag_map_le (f := fun n => roundMag (2 ^ 149 * n) k) (fun _ _ h => roundMag_mono (by omega))
    (roundMag_zero k) hle

theorem signedMag_mul (p : Bool) (m k : ℕ) : signedMag p (m * k) = m * signedMag p k := by
  cases p <;> simp

/-- The products of two positive finite words by one factor that is not a NaN, in the order of their exact values: an
infinite factor gives both the same infinity. -/
theorem fmul_ordered {a b c : Word} {m n : ℕ} (ha : decodeF32 a = .fin false m) (hb : decodeF32 b = .fin false n)
    (hm : m ≠ 0) (hn : n ≠ 0) (hc : isNaN c = false)
    (h : ∀ p k, decodeF32 c = .fin p k → m * signedMag p k ≤ n * signedMag p k) :
    fle (fmul a c) (fmul b c) = true := by
  cases hd : decodeF32 c with
  | nan => simp [isNaN, hd] at hc
  | inf p =>
    have hinf : fmul a c = infPattern p ∧ fmul b c = infPattern p := by simp [fmul, ha, hb, hd, hm, hn]
    rw [hinf.1, hinf.2, infPattern_eq_pack]
    exact fle_pack le_rfl le_rfl le_rfl
  | fin p k =>
    rw [fmul_fin ha hd, fmul_fin hb hd, Bool.false_xor]
    refine fle_pack (roundMag_le_inf _ _) (roundMag_le_inf _ _) ?_
    refine signedMag_map_le (f := fun l => roundMag l (2 ^ 149)) (fun _ _ h => roundMag_mono h) (roundMag_zero _) ?_
    rw [signedMag_mul, signedMag_mul]
    exact h p k hd

/-- The place of +0.0. -/
theorem orderKey_zero : orderKey (decodeF32 0#32) = some 0 := rfl

section FixedFactor

variable {a b c : Word} {m n : ℕ} (ha : decodeF32 a = .fin false m) (hb : decodeF32 b = .fin false n) (hm : 0 < m)
  (hmn : m ≤ n)
include ha hb hm hmn

/-- `fmul` of positive words by a factor that is not negative keeps their order. -/
theorem fmul_mono (hc : fle 0#32 c = true) : fle (fmul a c) (fmul b c) = true := by
  refine fmul_ordered ha hb (by omega) (by omega) (not_nan_of_fle hc).2 fun p k hk => ?_
  have h0 : 0 ≤ signedMag p k := (fle_iff orderKey_zero (by rw [hk]; rfl)).1 hc
  exact mul_le_mul_of_nonneg_right (by exact_mod_cast hmn) h0

/-- `fmul` of positive words by a factor that is not positive reverses their order. -/
theorem fmul_antitone (hc : fle c 0#32 = true) : fle (fmul b c) (fmul a c) = true := by
  refine fmul_ordered hb ha (by omega) (by omega) (not_nan_of_fle hc).1 fun p k hk => ?_
  have h0 : signedMag p k ≤ 0 := (fle_iff (by rw [hk]; rfl) orderKey_zero).1 hc
  exact mul_le_mul_of_nonpos_right (by exact_mod_cast hmn) h0

end FixedFactor

/-- The difference of two finite words has the sign of their order. -/
theorem fsub_sign {a b : Word} {p q : Bool} {m n : ℕ} (ha : decodeF32 a = .fin p m) (hb : decodeF32 b = .fin q n) :
    (fle b a = true → fle 0#32 (fsub a b) = true) ∧ (fle a b = true → fle (fsub a b) 0#32 = true) := by
  have hkey := orderKey_fadd ha (decodeF32_fneg_fin hb)
  have hzero : orderKey (decodeF32 0#32) = orderKey (decodeF32 (roundUnits 0)) := by decide
  have hneg : signedMag (!q) n = -signedMag q n := by cases q <;> simp
  have ha' : orderKey (decodeF32 a) = some (signedMag p m) := by rw [ha, orderKey_fin]
  have hb' : orderKey (decodeF32 b) = some (signedMag q n) := by rw [hb, orderKey_fin]
  unfold fsub
  rw [fle_congr hzero hkey, fle_congr hkey hzero, fle_iff hb' ha', fle_iff ha' hb']
  exact ⟨fun h => roundUnits_mono (by omega), fun h => roundUnits_mono (by omega)⟩

end Sys2Proof.Proofs
end

section
/-! The conversion: its bracket, its table points and its order between them (40_lookup R111 to R116). -/

namespace Sys2Proof.Proofs

open Sys2Proof.Machine Sys2Proof.Laws

/-! ## The two outcomes of the sensor-fault test -/

theorem convert_of_extreme {p : Params} {raw : Half} (h : raw.toNat = 0 ∨ p.rawMax.toNat ≤ raw.toNat) :
    convert p raw = (.sensorFault, Config.sent) := if_pos h

theorem convert_status_of_valid {p : Params} {raw : Half} (h1 : 1 ≤ raw.toNat) (hmax : raw.toNat < p.rawMax.toNat) :
    (convert p raw).1 = .ok := by
  rcases convert_cases p raw with ⟨hextreme, -⟩ | ⟨-, hok⟩
  · omega
  · exact hok

/-- Settles O16. -/
theorem extremeSamplesAreSensorFaults : Obligations.ExtremeSamplesAreSensorFaults :=
  fun _ _ => ⟨convert_of_extreme, fun h1 hmax => convert_status_of_valid h1 hmax⟩

/-- Settles O15: CONV ends with the conversion as its response and no other write. -/
theorem convReturnsConversion : Obligations.ConvReturnsConversion := by
  intro raw s
  change execConv raw s = _
  rfl

/-! ## The bracket -/

/-- What makes `hi` the upper bracket index of a sample: the points before it, from index 1, lie below the sample, and
`hi` does not, or is the last (40_lookup R113). -/
structure IsUpperBracket (p : Params) (raw hi : ℕ) : Prop where
  pos : 1 ≤ hi
  inRom : hi < p.nCal
  below : ∀ j, 1 ≤ j → j < hi → (romRaw p j).toNat < raw
  reaches : raw ≤ (romRaw p hi).toNat ∨ hi + 1 = p.nCal

/-- The scan stops at the upper bracket index, or finds none and is clamped to it. -/
theorem bracketHi_eq {p : Params} {raw hi : ℕ} (h : IsUpperBracket p raw hi) : bracketHi p raw = hi := by
  obtain ⟨hpos, hrom, hbelow, hreach⟩ := h
  unfold bracketHi
  by_cases hle : raw ≤ (romRaw p hi).toNat
  · have hfind : (List.range' 1 (p.nCal - 1)).find? (fun i => decide (raw ≤ (romRaw p i).toNat)) = some hi := by
      refine List.find?_range'_eq_some.2 ⟨decide_eq_true hle, List.mem_range'_1.2 (by omega), fun j h1 hj => ?_⟩
      simpa using hbelow j h1 hj
    rw [hfind]
  · have hfind : (List.range' 1 (p.nCal - 1)).find? (fun i => decide (raw ≤ (romRaw p i).toNat)) = none := by
      refine List.find?_eq_none.2 fun j hj => ?_
      obtain ⟨h1, hlt⟩ := List.mem_range'_1.1 hj
      have hcases : j < hi ∨ j = hi := by omega
      rcases hcases with hj | rfl
      · simpa using hbelow j h1 hj
      · simpa using hle
    rw [hfind]
    dsimp only
    omega

/-- The conversion of a valid sample, by its bracket. -/
theorem convert_of_bracket {p : Params} {raw : Half} {hi : ℕ} (h1 : 1 ≤ raw.toNat) (hmax : raw.toNat < p.rawMax.toNat)
    (h : IsUpperBracket p raw.toNat hi) :
    convert p raw = (.ok,
      if raw = romRaw p hi then romTemp p hi
      else if raw = romRaw p (hi - 1) then romTemp p (hi - 1)
      else interpolate p (hi - 1) hi raw.toNat) := by
  unfold convert
  dsimp only
  rw [if_neg (by omega), bracketHi_eq h]
  simp only [BitVec.toNat_inj]
  split_ifs <;> rfl

/-- Settles O17. -/
theorem conversionUsesFirstBracket : Obligations.ConversionUsesFirstBracket :=
  fun _ _ _ h1 hmax hpos hrom hbelow hreach => convert_of_bracket h1 hmax ⟨hpos, hrom, hbelow, hreach⟩

/-! ## Table points -/

/-- The raw values of an admitted ROM increase with the index (00_scope R11). -/
theorem romRaw_strictMono {p : Params} (hp : p.admitted = true) {i j : ℕ} (hij : i < j) (hj : j < p.nCal) :
    (romRaw p i).toNat < (romRaw p j).toNat := by
  obtain ⟨-, -, hraw, -⟩ := (check_ok_iff p).1 ((admitted_iff p).1 hp)
  induction j, hij using Nat.le_induction with
  | base => exact hraw i hj
  | succ k _ ih => exact lt_trans (ih (by omega)) (hraw k hj)

/-- In an admitted ROM a sample above point `lo` and not above the next has that pair as its bracket. -/
theorem isUpperBracket_succ {p : Params} (hp : p.admitted = true) {lo raw : ℕ} (hrom : lo + 1 < p.nCal)
    (hlo : (romRaw p lo).toNat < raw) (hhi : raw ≤ (romRaw p (lo + 1)).toNat) : IsUpperBracket p raw (lo + 1) where
  pos := by omega
  inRom := hrom
  below j _ hj := by
    rcases Nat.lt_or_eq_of_le (Nat.le_of_lt_succ hj) with hlt | rfl
    · exact lt_trans (romRaw_strictMono hp hlt (by omega)) hlo
    · exact hlo
  reaches := .inl hhi

/-- The first point has the first pair as its bracket. -/
theorem isUpperBracket_one {p : Params} (hp : p.admitted = true) : IsUpperBracket p (romRaw p 0).toNat 1 := by
  have h2 : 2 ≤ p.nCal := ((check_ok_iff p).1 ((admitted_iff p).1 hp)).1
  exact ⟨le_rfl, h2, fun j h1 hj => by omega, .inl (romRaw_strictMono hp one_pos h2).le⟩

/-- Settles O18: point 0 is the lower point of the first pair, every other point the upper one of its own. -/
theorem tablePointsConvertExactly : Obligations.TablePointsConvertExactly := by
  intro p i hp hi h1 hmax
  cases i with
  | zero =>
    have hbracket := isUpperBracket_one hp
    have hne : romRaw p 0 ≠ romRaw p 1 := fun he =>
      absurd (romRaw_strictMono hp one_pos hbracket.inRom) (by rw [he]; exact lt_irrefl _)
    rw [convert_of_bracket h1 hmax hbracket, if_neg hne, if_pos rfl]
  | succ k =>
    have hbracket := isUpperBracket_succ hp hi (romRaw_strictMono hp (Nat.lt_succ_self k) hi) le_rfl
    rw [convert_of_bracket h1 hmax hbracket, if_pos rfl]

/-! ## Between two points -/

/-- Strictly between two points the conversion interpolates (40_lookup R115). -/
theorem convert_between {p : Params} (hp : p.admitted = true) {lo : ℕ} {raw : Half} (hrom : lo + 1 < p.nCal)
    (hlo : (romRaw p lo).toNat < raw.toNat) (hhi : raw.toNat < (romRaw p (lo + 1)).toNat)
    (hmax : raw.toNat < p.rawMax.toNat) : (convert p raw).2 = interpolate p lo (lo + 1) raw.toNat := by
  have hneHi : raw ≠ romRaw p (lo + 1) := fun he => absurd hhi (by rw [he]; exact lt_irrefl _)
  have hneLo : raw ≠ romRaw p lo := fun he => absurd hlo (by rw [he]; exact lt_irrefl _)
  rw [convert_of_bracket (by omega) hmax (isUpperBracket_succ hp hrom hlo hhi.le), if_neg hneHi, Nat.add_sub_cancel,
    if_neg hneLo]

/-- A difference of raw values that is not negative is exact (40_lookup R115). -/
theorem decodeF32_rawDifference {hi lo : ℕ} (hle : lo ≤ hi) (hhi : hi < 2 ^ 16) :
    decodeF32 (i2f ((hi : ℤ) - lo)) = .fin false (2 ^ 149 * (hi - lo)) := by
  rw [decodeF32_i2f (by omega), decide_eq_false (by omega), show ((hi : ℤ) - lo).natAbs = hi - lo by omega]

/-- Above the lower point the interpolation follows the order of the two temperatures: i2f, fmul by a fixed factor, fdiv
by a positive constant and fadd of a constant are each monotone (40_lookup R116(b)). -/
theorem interpolate_ordered {p : Params} (hp : p.admitted = true) {lo r1 r2 : ℕ} (hrom : lo + 1 < p.nCal)
    (hlo : (romRaw p lo).toNat < r1) (hr : r1 ≤ r2) (hr2 : r2 < 2 ^ 16) :
    (fle (romTemp p lo) (romTemp p (lo + 1)) = true →
      fle (interpolate p lo (lo + 1) r1) (interpolate p lo (lo + 1) r2) = true)
    ∧ (fle (romTemp p (lo + 1)) (romTemp p lo) = true →
      fle (interpolate p lo (lo + 1) r2) (interpolate p lo (lo + 1) r1) = true) := by
  obtain ⟨-, -, hraw, hfinite, -⟩ := (check_ok_iff p).1 ((admitted_iff p).1 hp)
  obtain ⟨_, _, hlow⟩ := hfinite lo (by omega)
  obtain ⟨_, _, hhigh⟩ := hfinite (lo + 1) hrom
  obtain ⟨hrise, hfall⟩ := fsub_sign hhigh hlow
  have hpair := hraw lo hrom
  have hnum1 := decodeF32_rawDifference hlo.le (by omega)
  have hnum2 := decodeF32_rawDifference (hlo.le.trans hr) hr2
  have hden := decodeF32_rawDifference hpair.le (romRaw p (lo + 1)).isLt
  have hquotient {a b : Word} (h : fle a b = true) := fadd_mono hlow (fdiv_mono hden (by omega) h)
  exact ⟨fun h => hquotient (fmul_mono hnum1 hnum2 (by omega) (by omega) (hrise h)),
    fun h => hquotient (fmul_antitone hnum1 hnum2 (by omega) (by omega) (hfall h))⟩

/-- Settles O19. -/
theorem conversionMonotoneBetweenPoints : Obligations.ConversionMonotoneBetweenPoints := by
  intro p lo r1 r2 hp hrom _ hlo hr hhi hmax
  rw [fge_eq_fle, fge_eq_fle, convert_between hp hrom hlo (hr.trans hhi) (hr.trans hmax),
    convert_between hp hrom (hlo.trans hr) hhi hmax]
  exact interpolate_ordered hp hrom hlo hr.le r2.isLt

end Sys2Proof.Proofs
end

section
/-! SAMPLE: the rate limiter, the fault path and the success path (40_lookup R121 to R123). -/

namespace Sys2Proof.Proofs

open Sys2Proof.Machine Sys2Proof.Laws

/-! ## The rate limiter -/

/-- The limiter as 40_lookup R121 writes it. -/
theorem rateLimited_iff (s : State) (ch : Channel) :
    rateLimited s ch = true
      ↔ s.sampled ch = true ∧ ((s.tnow.toNat : Int) - s.ts[ch].toNat) % 2 ^ 32 < s.minSi.toNat := by
  rw [rateLimited, Bool.and_eq_true, decide_eq_true_iff, ← elapsedTicks_eq, Nat.cast_lt]

theorem not_rateLimited_iff (s : State) (ch : Channel) :
    rateLimited s ch = false
      ↔ s.sampled ch = false ∨ (s.minSi.toNat : Int) ≤ ((s.tnow.toNat : Int) - s.ts[ch].toNat) % 2 ^ 32 := by
  rw [← Bool.not_eq_true, rateLimited_iff, not_and_or, Bool.not_eq_true, not_lt]

/-! ## The three paths -/

/-- The writes of the fault path (40_lookup R122). -/
def cacheFault (s : State) (ch : Channel) : State :=
  ({ s with temp := s.temp.set ch Config.sent }).setFaulted ch true

/-- The writes of the success path (40_lookup R123). -/
def cacheValue (s : State) (ch : Channel) (v : Word) : State :=
  (({ s with temp := s.temp.set ch v, ts := s.ts.set ch s.tnow }).setFaulted ch false).setSampled ch true

section Paths

variable {s : State} {ch : Channel} (raw : Half)

theorem exec_sample_limited (h : rateLimited s ch = true) :
    exec (.sample ch raw) s = .next (s.respond (if s.faulted ch then .cachedFault else .cached) s.temp[ch]) := by
  change execSample ch raw s = _
  rw [execSample, if_pos h]
  rfl

variable (hlimit : rateLimited s ch = false)
include hlimit

theorem exec_sample_fault (h : raw.toNat = 0 ∨ s.params.rawMax.toNat ≤ raw.toNat) :
    exec (.sample ch raw) s = .next ((cacheFault s ch).respond .sensorFault Config.sent) := by
  change execSample ch raw s = _
  rcases execSample_cases ch raw s with ⟨hl, -⟩ | ⟨-, -, he⟩ | ⟨-, hvalid, -⟩
  · rw [hlimit] at hl
    cases hl
  · exact he
  · exact absurd h hvalid

theorem exec_sample_valid (h1 : 1 ≤ raw.toNat) (hmax : raw.toNat < s.params.rawMax.toNat) :
    exec (.sample ch raw) s =
      .next ((cacheValue s ch (convert s.params raw).2).respond .ok (convert s.params raw).2) := by
  change execSample ch raw s = _
  rcases execSample_cases ch raw s with ⟨hl, -⟩ | ⟨-, hfault, -⟩ | ⟨-, -, -, he⟩
  · rw [hlimit] at hl
    cases hl
  · omega
  · exact he

end Paths

/-- Settles O20: inside the interval by the cached path, else by the path the sample takes. -/
theorem sampleInsideIntervalIsCached : Obligations.SampleInsideIntervalIsCached := by
  refine fun ch raw s => ⟨fun hsampled hinside => exec_sample_limited raw ((rateLimited_iff s ch).2 ⟨hsampled, hinside⟩),
    fun houtside => ?_⟩
  have hlimit := (not_rateLimited_iff s ch).2 houtside
  by_cases h : raw.toNat = 0 ∨ s.params.rawMax.toNat ≤ raw.toNat
  · refine ⟨_, exec_sample_fault raw hlimit h, ?_⟩
    rw [respond_response, convert_of_extreme h]
  · refine ⟨_, exec_sample_valid raw hlimit (by omega) (by omega), ?_⟩
    rw [respond_response, convert_status_of_valid (by omega) (by omega)]

/-! ## What each path writes -/

section Writes

variable (s : State) (ch c : Channel) (v : Word)

theorem cacheFault_temp : (cacheFault s ch).temp[c] = if c = ch then Config.sent else s.temp[c] := getElem_set_fin ..

theorem cacheFault_faulted : (cacheFault s ch).faulted c = (decide (c = ch) || s.faulted c) :=
  (setFaulted_faulted _ ch c true).trans (Bool.if_true_left ..)

theorem cacheValue_temp : (cacheValue s ch v).temp[c] = if c = ch then v else s.temp[c] := getElem_set_fin ..

theorem cacheValue_ts : (cacheValue s ch v).ts[c] = if c = ch then s.tnow else s.ts[c] := getElem_set_fin ..

theorem cacheValue_faulted : (cacheValue s ch v).faulted c = (!decide (c = ch) && s.faulted c) :=
  (setFaulted_faulted _ ch c false).trans (Bool.if_false_left ..)

theorem cacheValue_sampled : (cacheValue s ch v).sampled c = (decide (c = ch) || s.sampled c) :=
  (setSampled_sampled _ ch c true).trans (Bool.if_true_left ..)

/-- The channel of a converted sample holds its value and its time, valid. -/
theorem cacheValue_self : (cacheValue s ch v).temp[ch] = v ∧ (cacheValue s ch v).ts[ch] = s.tnow
    ∧ (cacheValue s ch v).faulted ch = false ∧ (cacheValue s ch v).sampled ch = true :=
  ⟨(cacheValue_temp s ch ch v).trans (if_pos rfl), (cacheValue_ts s ch ch v).trans (if_pos rfl),
    by simp [cacheValue_faulted], by simp [cacheValue_sampled]⟩

end Writes

/-- The response is outside the frame: giving one changes no register. -/
theorem changesOnly_respond {addrs : List Half} {s t : State} (h : ChangesOnly addrs s t) (c : Status) (r : Word) :
    ChangesOnly addrs s (t.respond c r) := h

/-- The fault path changes TEMP of the channel and TFLT. -/
theorem cacheFault_frame (s : State) (ch : Channel) :
    ChangesOnly [BitVec.ofNat 16 (0x040 + ch.val), 0x061#16] s (cacheFault s ch) := by
  refine ⟨peek_frame rfl fun r hr => ?_, rfl, rfl, rfl, rfl⟩
  cases r with
  | temp c =>
    have hne : c ≠ ch := fun he => hr (by simp [he, Reg.addr])
    exact (cacheFault_temp s ch c).trans (if_neg hne)
  | tflt => exact absurd (by simp [Reg.addr]) hr
  | _ => rfl

/-- The success path changes TEMP and TS of the channel, TS_VLD and TFLT. -/
theorem cacheValue_frame (s : State) (ch : Channel) (v : Word) :
    ChangesOnly [BitVec.ofNat 16 (0x040 + ch.val), BitVec.ofNat 16 (0x050 + ch.val), 0x060#16, 0x061#16] s
      (cacheValue s ch v) := by
  refine ⟨peek_frame rfl fun r hr => ?_, rfl, rfl, rfl, rfl⟩
  cases r with
  | temp c =>
    have hne : c ≠ ch := fun he => hr (by simp [he, Reg.addr])
    exact (cacheValue_temp s ch c v).trans (if_neg hne)
  | ts c =>
    have hne : c ≠ ch := fun he => hr (by simp [he, Reg.addr])
    exact (cacheValue_ts s ch c v).trans (if_neg hne)
  | tsVld | tflt => exact absurd (by simp [Reg.addr]) hr
  | _ => rfl

/-! ## The statements -/

/-- Settles O21. -/
theorem sampleFaultCachesSentinel : Obligations.SampleFaultCachesSentinel := by
  intro ch raw s houtside hextreme
  refine ⟨_, exec_sample_fault raw ((not_rateLimited_iff s ch).2 houtside) hextreme, respond_response .., ?_,
    fun c => cacheFault_faulted s ch c, changesOnly_respond (cacheFault_frame s ch) _ _⟩
  exact (cacheFault_temp s ch ch).trans (if_pos rfl)

/-- Settles O22. -/
theorem sampleSuccessUpdatesCache : Obligations.SampleSuccessUpdatesCache := by
  intro ch raw s houtside h1 hmax
  obtain ⟨htemp, hts, -, -⟩ := cacheValue_self s ch (convert s.params raw).2
  exact ⟨_, exec_sample_valid raw ((not_rateLimited_iff s ch).2 houtside) h1 hmax, respond_response .., htemp, hts,
    fun c => cacheValue_faulted s ch c _, fun c => cacheValue_sampled s ch c _,
    changesOnly_respond (cacheValue_frame s ch _) _ _⟩

/-- What ends with `done` has the response it is given. -/
theorem response_of_done {c c' : Status} {r r' : Word} {u t : State} (h : done c r u = .next t)
    (ht : t.response = some ⟨c', r'⟩) : c = c' ∧ r = r' ∧ t = u.respond c r := by
  injection h with h
  rw [← h, respond_response, Option.some.injEq, Response.mk.injEq] at ht
  exact ⟨ht.1, ht.2, h.symm⟩

/-- A SAMPLE that answers OK took the success path. -/
theorem exec_sample_ok {s t : State} {ch : Channel} {raw : Half} {v : Word} (h : exec (.sample ch raw) s = .next t)
    (hok : t.response = some ⟨.ok, v⟩) : t = (cacheValue s ch v).respond .ok v := by
  change execSample ch raw s = _ at h
  rcases execSample_cases ch raw s with ⟨-, he⟩ | ⟨-, -, he⟩ | ⟨-, -, -, he⟩ <;> rw [he] at h
  · obtain ⟨hstatus, -⟩ := response_of_done h hok
    split at hstatus <;> cases hstatus
  · obtain ⟨hstatus, -⟩ := response_of_done h hok
    cases hstatus
  · obtain ⟨-, rfl, ht⟩ := response_of_done h hok
    exact ht

/-- Settles O23: the success path leaves the channel sampled at this time and not faulted, so the limiter serves its
value. -/
theorem secondSampleInsideIntervalAgrees : Obligations.SecondSampleInsideIntervalAgrees := by
  intro ch raw raw' s t v now hexec hok hinside
  obtain rfl := exec_sample_ok hexec hok
  obtain ⟨htemp, hts, hfaulted, hsampled⟩ := cacheValue_self s ch v
  have hlimit : rateLimited { (cacheValue s ch v).respond .ok v with tnow := now } ch = true := by
    refine (rateLimited_iff _ ch).2 ⟨hsampled, ?_⟩
    change ((now.toNat : Int) - (cacheValue s ch v).ts[ch].toNat) % 2 ^ 32 < s.minSi.toNat
    rw [hts]
    exact hinside
  have hstatus : (if (cacheValue s ch v).faulted ch = true then Status.cachedFault else .cached) = .cached := by
    rw [hfaulted, if_neg Bool.false_ne_true]
  calc exec (.sample ch raw') { (cacheValue s ch v).respond .ok v with tnow := now }
      = .next { (cacheValue s ch v).respond .ok v with
          tnow := now
          response := some ⟨if (cacheValue s ch v).faulted ch = true then .cachedFault else .cached,
            (cacheValue s ch v).temp[ch]⟩ } := exec_sample_limited raw' hlimit
    _ = _ := by rw [hstatus, htemp]

end Sys2Proof.Proofs
end

section
/-! The section average: the channels taken, their status and their value (41_hysteresis R140 to R143). -/

namespace Sys2Proof.Proofs

open Sys2Proof.Machine Sys2Proof.Laws

/-- Settles O24: AVG ends with the section average as its response and no other write. -/
theorem avgReturnsSectionAverage : Obligations.AvgReturnsSectionAverage := by
  intro x s
  change execAvg x s = _
  rfl

/-! ## The channels taken -/

section Channels

variable {s : State} {x : Sec}

theorem mem_activeValid {c : Channel} :
    c ∈ activeValid s x ↔ secOf c = x ∧ s.isActive c = true ∧ s.faulted c = false := by
  simp [activeValid, mem_channelsOf]

theorem mem_allValid {c : Channel} : c ∈ allValid s x ↔ secOf c = x ∧ s.faulted c = false := by
  simp [allValid, mem_channelsOf]

theorem activeValid_eq_nil_iff :
    activeValid s x = [] ↔ ∀ c, secOf c = x → s.faulted c = false → s.isActive c = false := by
  simp only [List.eq_nil_iff_forall_not_mem, mem_activeValid, not_and, Bool.not_eq_false]
  exact forall_congr' fun c => imp_congr_right fun _ => by cases s.isActive c <;> simp

theorem allValid_eq_nil_iff : allValid s x = [] ↔ ∀ c, secOf c = x → s.faulted c = true := by
  simp only [List.eq_nil_iff_forall_not_mem, mem_allValid, not_and, Bool.not_eq_false]

/-- Where no channel is valid, none is active and valid. -/
theorem activeValid_eq_nil_of_allValid (h : allValid s x = []) : activeValid s x = [] :=
  activeValid_eq_nil_iff.2 fun c hc hv => by
    rw [allValid_eq_nil_iff.1 h c hc] at hv
    cases hv

theorem exists_activeValid {c : Channel} (hc : secOf c = x) (ha : s.isActive c = true) (hv : s.faulted c = false) :
    ∃ first rest, activeValid s x = first :: rest :=
  List.exists_cons_of_ne_nil (List.ne_nil_of_mem (mem_activeValid.2 ⟨hc, ha, hv⟩))

theorem exists_allValid {c : Channel} (hc : secOf c = x) (hv : s.faulted c = false) :
    ∃ first rest, allValid s x = first :: rest :=
  List.exists_cons_of_ne_nil (List.ne_nil_of_mem (mem_allValid.2 ⟨hc, hv⟩))

/-- The active valid channels are those of the sixteen, ascending. -/
theorem activeValid_eq_filter : activeValid s x =
    (List.finRange 16).filter (fun c => decide (secOf c = x) && s.isActive c && !s.faulted c) := by
  simp only [Bool.and_assoc, filter_section, activeValid]

/-- The valid channels are those of the sixteen, ascending. -/
theorem allValid_eq_filter : allValid s x =
    (List.finRange 16).filter (fun c => decide (secOf c = x) && !s.faulted c) := (filter_section ..).symm

/-! ## The three outcomes -/

variable {first : Channel} {rest : List Channel}

theorem sectionAverage_of_active (h : activeValid s x = first :: rest) :
    sectionAverage s x = (.ok, favg s first rest) := by
  rw [sectionAverage, h]

theorem sectionAverage_of_all (ha : activeValid s x = []) (h : allValid s x = first :: rest) :
    sectionAverage s x = (.avgAll, favg s first rest) := by
  rw [sectionAverage, ha, h]

theorem sectionAverage_of_none (h : allValid s x = []) : sectionAverage s x = (.avgDefault, Config.tDefault) := by
  rw [sectionAverage, activeValid_eq_nil_of_allValid h, h]

end Channels

/-- Settles O25, by which of the two lists of channels is empty. -/
theorem averageStatusNamesChannelsTaken : Obligations.AverageStatusNamesChannelsTaken := by
  intro s x
  refine ⟨?_, ?_, ?_, ?_, ?_⟩
  · rintro ⟨c, hc, ha, hv⟩
    obtain ⟨first, rest, htaken⟩ := exists_activeValid hc ha hv
    rw [sectionAverage_of_active htaken]
  · rintro hnone ⟨c, hc, hv⟩
    obtain ⟨first, rest, htaken⟩ := exists_allValid hc hv
    rw [sectionAverage_of_all (activeValid_eq_nil_iff.2 hnone) htaken]
  · intro hfaulted
    exact sectionAverage_of_none (allValid_eq_nil_iff.2 hfaulted)
  · intro first rest htaken
    exact sectionAverage_of_active (activeValid_eq_filter.trans htaken)
  · intro first rest hnone htaken
    exact sectionAverage_of_all (activeValid_eq_nil_iff.2 hnone) (allValid_eq_filter.trans htaken)

/-! ## What the average reads -/

/-- The average of a list reads the temperatures of its channels. -/
theorem favg_congr {s s' : State} {first : Channel} {rest : List Channel}
    (h : ∀ c ∈ first :: rest, s'.temp[c] = s.temp[c]) : favg s' first rest = favg s first rest := by
  obtain ⟨hfirst, hrest⟩ := List.forall_mem_cons.1 h
  have hsum : sumTemps s' s.temp[first] rest = sumTemps s s.temp[first] rest :=
    List.foldl_ext _ _ _ fun _ c hc => by rw [hrest c hc]
  rw [favg, favg, hfirst, hsum]

/-- Settles O26: the lists of channels are the same, and every channel on them is valid. -/
theorem averageReadsOnlyValidOwnChannels : Obligations.AverageReadsOnlyValidOwnChannels := by
  intro s s' x hflags htemp
  have hactive : activeValid s' x = activeValid s x := List.filter_congr fun c hc => by
    obtain ⟨ha, hf⟩ := hflags c (mem_channelsOf.1 hc)
    rw [ha, hf]
  have hall : allValid s' x = allValid s x := List.filter_congr fun c hc => by
    rw [(hflags c (mem_channelsOf.1 hc)).2]
  cases ha : activeValid s x with
  | cons first rest =>
    rw [sectionAverage_of_active ha, sectionAverage_of_active (hactive.trans ha), favg_congr fun c hc => ?_]
    obtain ⟨hx, -, hv⟩ := mem_activeValid.1 (ha ▸ hc)
    exact htemp c hx hv
  | nil =>
    cases hv : allValid s x with
    | cons first rest =>
      rw [sectionAverage_of_all ha hv, sectionAverage_of_all (hactive.trans ha) (hall.trans hv),
        favg_congr fun c hc => ?_]
      obtain ⟨hx, hvalid⟩ := mem_allValid.1 (hv ▸ hc)
      exact htemp c hx hvalid
    | nil => rw [sectionAverage_of_none hv, sectionAverage_of_none (hall.trans hv)]

/-! ## One channel -/

/-- Division by 1.0 is exact. -/
theorem fdiv_one {w : Word} (h : isNaN w = true → w = canonicalNaN) : fdiv w (i2f 1) = w := by
  have hone : decodeF32 (i2f 1) = .fin false (2 ^ 149) := decodeF32_i2f (n := 1) (by norm_num)
  cases hw : decodeF32 w with
  | nan =>
    have hnan := isNaN_iff.2 hw
    rw [(arithmetic_nan (.inl hnan)).2.2, h hnan]
  | inf p =>
    rw [eq_infPattern hw]
    simp [fdiv, hone]
  | fin p m =>
    obtain ⟨low, hlow, rfl, rfl⟩ := decodeF32_fin_iff.1 hw
    rw [fdiv_fin hw hone (by positivity), mul_comm, roundMag_exact hlow (by positivity), Bool.xor_false]

/-- Settles O27: the only channel taken is `ch`, and its TEMP over 1 is its TEMP. -/
theorem singleActiveChannelAveragesExactly : Obligations.SingleActiveChannelAveragesExactly := by
  intro s ch hcanonical ha hv hothers
  have htaken : activeValid s (secOf ch) = [ch] := by
    have hnodup : (activeValid s (secOf ch)).Nodup := (channelsOf_nodup _).filter _
    refine List.perm_singleton.1 ((List.perm_ext_iff_of_nodup hnodup (List.nodup_singleton ch)).2 fun c => ?_)
    rw [mem_activeValid, List.mem_singleton]
    constructor
    · rintro ⟨hc, hac, hvc⟩
      by_contra hne
      rcases hothers c hc hne with hinactive | hfaulted
      · rw [hac] at hinactive
        cases hinactive
      · rw [hvc] at hfaulted
        cases hfaulted
    · rintro rfl
      exact ⟨rfl, ha, hv⟩
  rw [sectionAverage_of_active htaken]
  exact congrArg _ (fdiv_one (hcanonical ch))

end Sys2Proof.Proofs
end

section
/-! HYST: its decision, the drive requests of its section, and the section without a setpoint (41_hysteresis R147 to
R151). -/

namespace Sys2Proof.Proofs

open Sys2Proof.Machine Sys2Proof.Laws

/-- Settles O31: a NaN average makes both comparisons false; a NaN target or band makes both thresholds NaN. -/
theorem naNHoldsHysteresis : Obligations.NaNHoldsHysteresis := by
  intro target band avg held h
  have hcompare (rel : ℤ → ℤ → Bool) : orderedCompare rel avg (fsub target band) = false
      ∧ orderedCompare rel avg (fadd target band) = false := by
    rcases h with havg | hthreshold
    · exact ⟨orderedCompare_nan (.inl havg), orderedCompare_nan (.inl havg)⟩
    · have hnan : isNaN canonicalNaN = true := by decide
      rw [fsub_nan hthreshold, (arithmetic_nan hthreshold).1]
      exact ⟨orderedCompare_nan (.inr hnan), orderedCompare_nan (.inr hnan)⟩
  simp [hystDecision, flt, fgt, hcompare]

/-! ## The writes of HYST -/

section Writes

variable (s : State) (x : Sec) (on : Bool)

theorem hystWrite_heating (y : Sec) : (hystWrite s x on).heating y = if y = x then on else s.heating y := by
  rw [hystWrite_eq]
  exact bitAt_setBit ..

/-- HYST changes HYST_ON and DRIVE. -/
theorem hystWrite_frame : ChangesOnly [0x0D0#16, 0x0D1#16] s (hystWrite s x on) := by
  rw [hystWrite_eq]
  refine ⟨peek_frame rfl fun r hr => ?_, rfl, rfl, rfl, rfl⟩
  cases r with
  | hystOn | drive => exact absurd (by simp [Reg.addr]) hr
  | _ => rfl

end Writes

/-! ## The two outcomes under STRATEGY = HYST -/

section Outcomes

variable {s : State} {x : Sec}

theorem noSetpoint_iff : noSetpoint s x = true ↔ s.target[x] = Config.sent := by
  rw [noSetpoint, feqBits, beq_iff_eq]

variable (hstrategy : s.params.strategy = .hyst)
include hstrategy

theorem exec_hyst_noSetpoint (h : s.target[x] = Config.sent) :
    exec (.hyst x) s = .next ((hystWrite s x false).respond .noTarget (sectionAverage s x).2) := by
  change execHyst x s = _
  rw [execHyst_of_hyst hstrategy, newHeating, noSetpoint_iff.2 h]
  rfl

theorem exec_hyst_setpoint (h : s.target[x] ≠ Config.sent) :
    exec (.hyst x) s = .next
      ((hystWrite s x (hystDecision s.target[x] s.hystBand (sectionAverage s x).2 (s.heating x))).respond
        (sectionAverage s x).1 (sectionAverage s x).2) := by
  have hset : noSetpoint s x = false := Bool.eq_false_iff.2 (mt noSetpoint_iff.1 h)
  change execHyst x s = _
  rw [execHyst_of_hyst hstrategy, newHeating, hset]
  rfl

end Outcomes

/-- Settles O29. -/
theorem hystWithoutSetpointForcesOff : Obligations.HystWithoutSetpointForcesOff := by
  intro x s hstrategy htarget
  refine ⟨_, exec_hyst_noSetpoint hstrategy htarget, respond_response .., fun y => ?_, fun ch => ?_,
    changesOnly_respond (hystWrite_frame s x false) _ _⟩
  · rw [respond_heating, hystWrite_heating, Bool.if_false_left]
  · rw [respond_driven, hystWrite_driven, Bool.false_and, Bool.if_false_left]

/-- Settles O30. -/
theorem hystDecidesAndDrivesSection : Obligations.HystDecidesAndDrivesSection := by
  intro x s hstrategy htarget
  refine ⟨_, exec_hyst_setpoint hstrategy htarget, respond_response .., ?_, fun y hy => ?_, fun ch hch => ?_,
    fun ch hch => ?_, changesOnly_respond (hystWrite_frame s x _) _ _⟩
  · rw [respond_heating, hystWrite_heating, if_pos rfl, hystDecision]
  · rw [respond_heating, hystWrite_heating, if_neg hy]
  · rw [respond_driven, respond_heating, hystWrite_driven, hystWrite_heating, if_pos hch, if_pos rfl]
  · rw [respond_driven, hystWrite_driven, if_neg hch]

end Sys2Proof.Proofs
end

section
/-! AGG: its range, its writes, and its clamped remap (41_hysteresis R155 to R158). -/

namespace Sys2Proof.Proofs

open Sys2Proof.Machine Sys2Proof.Laws

/-! ## Signs and strict order -/

theorem signedMag_not (p : Bool) (m : ℕ) : signedMag (!p) m = -signedMag p m := by cases p <;> simp

theorem natAbs_signedMag (p : Bool) (m : ℕ) : (signedMag p m).natAbs = m := by cases p <;> simp

theorem decide_signedMag_neg (p : Bool) {m : ℕ} (hm : m ≠ 0) : decide (signedMag p m < 0) = p := by
  cases p with
  | false => exact decide_eq_false (by rw [signedMag_false]; omega)
  | true => exact decide_eq_true (by rw [signedMag_true]; omega)

theorem flt_iff {a b : Word} {x y : ℤ} (ha : orderKey (decodeF32 a) = some x) (hb : orderKey (decodeF32 b) = some y) :
    flt a b = true ↔ x < y := by
  rw [flt, orderedCompare_some ha hb, decide_eq_true_iff]

theorem fgt_iff {a b : Word} {x y : ℤ} (ha : orderKey (decodeF32 a) = some x) (hb : orderKey (decodeF32 b) = some y) :
    fgt a b = true ↔ y < x := by
  rw [fgt, orderedCompare_some ha hb, decide_eq_true_iff, gt_iff_lt]

theorem fle_of_fgt {a b : Word} (h : fgt a b = true) : fle b a = true := by
  obtain ⟨x, y, hx, hy, -⟩ := orderedCompare_true h
  exact (fle_iff hy hx).2 ((fgt_iff hx hy).1 h).le

/-! ## The range -/

section Range

variable {s : State} (x : Sec)

theorem aggRangeValid_iff :
    aggRangeValid s = true ↔ fgt s.aggTmax s.aggTmin = true ∧ s.aggPmin.toNat < s.aggPmax.toNat := by
  rw [aggRangeValid, Bool.and_eq_true, decide_eq_true_iff]

theorem exec_agg_invalid (h : ¬ (fgt s.aggTmax s.aggTmin = true ∧ s.aggPmin.toNat < s.aggPmax.toNat)) :
    exec (.agg x) s = .next (s.respond .eCfg 0#32) := by
  have hrange : aggRangeValid s = false := Bool.eq_false_iff.2 (mt aggRangeValid_iff.1 h)
  change execAgg x s = _
  rw [execAgg, hrange]
  rfl

/-- The writes of AGG (41_hysteresis R155). -/
def aggWrite (s : State) (x : Sec) (v : Word) : State :=
  { s with aggOut := s.aggOut.set x v, aggPwm := s.aggPwm.set x (BitVec.ofNat 16 (ftrunc v)) }

theorem exec_agg_valid (h : aggRangeValid s = true) :
    exec (.agg x) s = .next ((aggWrite s x (aggValue s (sectionAverage s x).2)).respond (sectionAverage s x).1
      (aggValue s (sectionAverage s x).2)) := by
  change execAgg x s = _
  rw [execAgg, h]
  rfl

end Range

/-- Settles O33: at reset both pairs of bounds are equal. -/
theorem aggFailsOnInvalidRange : Obligations.AggFailsOnInvalidRange := by
  refine ⟨fun x s h => exec_agg_invalid x h, fun a b h => orderedCompare_nan h, fun x p q => exec_agg_invalid x ?_⟩
  rintro ⟨-, hlt⟩
  exact lt_irrefl _ hlt

/-! ## What AGG writes -/

section Writes

variable (s : State) (x y : Sec) (v : Word)

theorem aggWrite_aggOut : (aggWrite s x v).aggOut[y] = if y = x then v else s.aggOut[y] := getElem_set_fin ..

theorem aggWrite_aggPwm :
    (aggWrite s x v).aggPwm[y] = if y = x then BitVec.ofNat 16 (ftrunc v) else s.aggPwm[y] := getElem_set_fin ..

/-- AGG changes AGG_OUT and AGG_PWM of its section. -/
theorem aggWrite_frame :
    ChangesOnly [BitVec.ofNat 16 (0x0E0 + x.val), BitVec.ofNat 16 (0x0E4 + x.val)] s (aggWrite s x v) := by
  refine ⟨peek_frame rfl fun r hr => ?_, rfl, rfl, rfl, rfl⟩
  cases r with
  | aggOut y =>
    have hne : y ≠ x := fun he => hr (by simp [he, Reg.addr])
    exact (aggWrite_aggOut s x y v).trans (if_neg hne)
  | aggPwm y =>
    have hne : y ≠ x := fun he => hr (by simp [he, Reg.addr])
    exact congrArg zext32 ((aggWrite_aggPwm s x y v).trans (if_neg hne))
  | _ => rfl

end Writes

/-- Settles O34: the integer part of what a valid range gives fits AGG_PWM. -/
theorem aggWritesClampedRemap : Obligations.AggWritesClampedRemap := by
  intro x s v htemps hpwms hv
  have hrange : aggRangeValid s = true := aggRangeValid_iff.2 ⟨htemps, hpwms⟩
  obtain rfl : v = aggValue s (sectionAverage s x).2 := hv
  obtain ⟨-, -, hfits⟩ := aggValue_bounds hrange (sectionAverage s x).2
  refine ⟨_, exec_agg_valid x hrange, respond_response .., ?_, ?_, changesOnly_respond (aggWrite_frame s x _) _ _⟩
  · exact (aggWrite_aggOut s x x _).trans (if_pos rfl)
  · rw [respond_aggPwm, aggWrite_aggPwm, if_pos rfl, BitVec.toNat_ofNat, Nat.mod_eq_of_lt hfits]

/-! ## The clamp -/

section Clamp

variable {u lo hi : Word}

theorem aggClamp_of_nan (h : isNaN u = true) : aggClamp u lo hi = lo := by simp [aggClamp, h]

theorem aggClamp_of_below (h : flt u lo = true) : aggClamp u lo hi = lo := by simp [aggClamp, h]

theorem aggClamp_of_above (hu : isNaN u = false) (hlo : flt u lo = false) (h : fgt u hi = true) :
    aggClamp u lo hi = hi := by simp [aggClamp, hu, hlo, h]

theorem aggClamp_of_between (hu : isNaN u = false) (hlo : flt u lo = false) (h : fgt u hi = false) :
    aggClamp u lo hi = u := by simp [aggClamp, hu, hlo, h]

end Clamp

/-! ## The integer part -/

/-- The integer part of a finite value that is not negative, from its magnitude; -0.0 has magnitude 0. -/
theorem ftrunc_of_nonneg {v : Word} {p : Bool} {m : ℕ} (hv : decodeF32 v = .fin p m) (h : 0 ≤ signedMag p m) :
    (m : ℤ) = signedMag p m ∧ ftrunc v = m / 2 ^ 149 := by
  cases p with
  | false => simp [ftrunc, hv]
  | true =>
    obtain rfl : m = 0 := by
      rw [signedMag_true] at h
      omega
    simp [ftrunc, hv]

/-- The integer part of a finite value from an integer on is at least that integer. -/
theorem le_ftrunc {v : Word} {k : ℤ} {n : ℕ} (hk : orderKey (decodeF32 v) = some k) (hlo : 2 ^ 149 * (n : ℤ) ≤ k)
    (hfinite : k < 2 ^ 128 * 2 ^ 149) : n ≤ ftrunc v := by
  rcases place_cases hk with ⟨-, rfl⟩ | ⟨-, rfl⟩ | ⟨p, m, hv, rfl, -⟩
  · omega
  · omega
  · obtain ⟨hmag, htrunc⟩ := ftrunc_of_nonneg hv (by omega)
    rw [htrunc, Nat.le_div_iff_mul_le (by positivity)]
    omega

/-- The integer part is the value rounded toward zero. -/
theorem ftrunc_eq_floor {v : Word} {x : ℚ} (hv : binary32Value v = some x) (hx : 0 ≤ x) : ftrunc v = ⌊x⌋₊ := by
  obtain ⟨m, hdec, rfl⟩ := decodeF32_of_value hv
  have hnonneg : 0 ≤ signedMag (signBit v) m := by
    have hmul := mul_nonneg hx (show (0 : ℚ) ≤ 2 ^ 149 by positivity)
    rw [div_mul_cancel₀ _ (by positivity)] at hmul
    exact_mod_cast hmul
  obtain ⟨hmag, htrunc⟩ := ftrunc_of_nonneg hdec hnonneg
  have hfloor := Nat.floor_div_eq_div (K := ℚ) m (2 ^ 149)
  rw [Nat.cast_pow, Nat.cast_ofNat] at hfloor
  rw [htrunc, ← hmag, Int.cast_natCast, hfloor]

/-- Settles O35: the clamped value has a place between the two bounds, and its integer part follows from that place. -/
theorem aggClampStaysInRange : Obligations.AggClampStaysInRange := by
  refine ⟨fun u lo hi => ⟨aggClamp_of_nan, aggClamp_of_below, aggClamp_of_above, aggClamp_of_between⟩, ?_, ?_⟩
  · rintro u pmin pmax v hlt rfl
    have hmax := pmax.isLt
    have hlo := orderKey_i2f (n := pmin.toNat) (by omega)
    have hhi := orderKey_i2f (n := pmax.toNat) (by omega)
    obtain ⟨k, hk, hlok, hkhi⟩ := aggClamp_between (u := u) hlo hhi (by omega)
    exact ⟨(fle_iff hlo hk).2 hlok, (fle_iff hk hhi).2 hkhi, le_ftrunc hk hlok (by omega), ftrunc_le hk hkhi⟩
  · intro v x hv hx
    rw [ftrunc_eq_floor hv hx]
    exact ⟨Nat.floor_le hx, Nat.lt_floor_add_one x⟩

/-! ## The remap at tmin -/

/-- A finite word less itself is +0.0. -/
theorem fsub_self {a : Word} {p : Bool} {m : ℕ} (ha : decodeF32 a = .fin p m) : fsub a a = zeroPattern false := by
  have hsum : signedMag p m + signedMag (!p) m = 0 := by rw [signedMag_not, add_neg_cancel]
  rw [fsub, fadd_fin ha (decodeF32_fneg_fin ha), if_pos hsum, Bool.and_not_self]

/-- A zero times a finite word is a zero. -/
theorem fmul_zero_fin (z : Bool) {b : Word} {q : Bool} {n : ℕ} (hb : decodeF32 b = .fin q n) :
    fmul (zeroPattern z) b = zeroPattern (z ^^ q) := by
  rw [fmul_fin (decodeF32_zeroPattern z) hb, zero_mul, roundMag_zero, zeroPattern_eq_pack]

/-- A zero over a word that has a place other than 0 is a zero. -/
theorem exists_fdiv_zero (z : Bool) {b : Word} {k : ℤ} (hb : orderKey (decodeF32 b) = some k) (hk : k ≠ 0) :
    ∃ q, fdiv (zeroPattern z) b = zeroPattern q := by
  rcases place_cases hb with ⟨rfl, -⟩ | ⟨rfl, -⟩ | ⟨q, n, hfin, rfl, -⟩
  · exact ⟨_, by rw [fdiv, decodeF32_zeroPattern, decodeF32_infPattern]⟩
  · exact ⟨_, by rw [fdiv, decodeF32_zeroPattern, decodeF32_infPattern]⟩
  · have hn : n ≠ 0 := fun h0 => hk (by subst h0; cases q <;> rfl)
    exact ⟨z ^^ q, by rw [fdiv_fin (decodeF32_zeroPattern z) hfin hn, mul_zero, roundMag_zero, zeroPattern_eq_pack]⟩

/-- A zero plus a finite word that is not a zero is that word. -/
theorem fadd_zero_fin (z : Bool) {b : Word} {q : Bool} {n : ℕ} (hb : decodeF32 b = .fin q n) (hn : n ≠ 0) :
    fadd (zeroPattern z) b = b := by
  have hzero : signedMag z 0 = 0 := by cases z <;> rfl
  have hne : signedMag q n ≠ 0 := fun h => hn (by rw [← natAbs_signedMag q n, h, Int.natAbs_zero])
  rw [fadd_fin (decodeF32_zeroPattern z) hb, hzero, zero_add, if_neg hne, decide_signedMag_neg q hn, natAbs_signedMag]
  obtain ⟨low, hlow, rfl, rfl⟩ := decodeF32_fin_iff.1 hb
  have hexact := roundMag_exact hlow one_pos
  rw [mul_one] at hexact
  rw [hexact]

/-- A positive count of units rounds to a place above 0: a single unit is representable. -/
theorem roundUnits_pos {z : ℤ} (hz : 0 < z) : ∃ k, orderKey (decodeF32 (roundUnits z)) = some k ∧ 0 < k := by
  have hunit : orderKey (decodeF32 (roundUnits 1)) = some 1 := by decide
  have hmono := roundUnits_mono (show 1 ≤ z by omega)
  obtain ⟨-, k, -, hk, -⟩ := orderedCompare_true hmono
  have hle := (fle_iff hunit hk).1 hmono
  exact ⟨k, hk, by omega⟩

/-- A word less a finite one below it has a place above 0. -/
theorem fsub_pos {a b : Word} {q : Bool} {n : ℕ} (hb : decodeF32 b = .fin q n) (h : fgt a b = true) :
    ∃ k, orderKey (decodeF32 (fsub a b)) = some k ∧ 0 < k := by
  rcases fle_cases (fle_of_fgt h) with rfl | rfl | ⟨-, -, p, m, -, ha, -⟩
  · rw [decodeF32_infPattern] at hb
    cases hb
  · have hinf : fsub (infPattern false) b = infPattern false := by simp [fsub, fadd, decodeF32_fneg_fin hb]
    rw [hinf, decodeF32_infPattern]
    exact ⟨_, rfl, by norm_num⟩
  · have hlt : signedMag q n < signedMag p m := (fgt_iff (by rw [ha]; rfl) (by rw [hb]; rfl)).1 h
    rw [fsub, orderKey_fadd ha (decodeF32_fneg_fin hb), signedMag_not]
    exact roundUnits_pos (by omega)

/-- The difference of two small integers is exact. -/
theorem fsub_i2f {m n : ℤ} (hm : m.natAbs < 2 ^ 24) (hn : n.natAbs < 2 ^ 24) (hne : m ≠ n) :
    fsub (i2f m) (i2f n) = i2f (m - n) := by
  have hunits (z : ℤ) : signedMag (decide (z < 0)) (2 ^ 149 * z.natAbs) = 2 ^ 149 * z := by
    rw [signedMag_mul, signedMag_decide, Nat.cast_pow, Nat.cast_ofNat]
  have hsum : 2 ^ 149 * m + -(2 ^ 149 * n) = 2 ^ 149 * (m - n) := by ring
  have hsign : (2 ^ 149 * (m - n) < 0) ↔ m - n < 0 := by omega
  rw [fsub, fadd_fin (decodeF32_i2f hm) (decodeF32_fneg_fin (decodeF32_i2f hn)), signedMag_not, hunits, hunits, hsum,
    if_neg (by omega), i2f, decide_eq_decide.2 hsign, Int.natAbs_mul, Int.natAbs_pow]
  rfl

/-- The remap of tmin itself: its difference to tmin is +0.0, so the quotient is a zero and the sum is the high end. -/
theorem aggRemap_tmin {tmin tmax pminf pmaxf : Word} {p q r : Bool} {m n k : ℕ} (htmin : decodeF32 tmin = .fin p m)
    (hlt : fgt tmax tmin = true) (hspan : decodeF32 (fsub pminf pmaxf) = .fin q n)
    (hmax : decodeF32 pmaxf = .fin r k) (hk : k ≠ 0) : aggRemap tmin tmax pminf pmaxf tmin = pmaxf := by
  obtain ⟨d, hd, hpos⟩ := fsub_pos htmin hlt
  obtain ⟨z, hquotient⟩ := exists_fdiv_zero (false ^^ q) hd hpos.ne'
  rw [aggRemap, fsub_self htmin, fmul_zero_fin false hspan, hquotient, fadd_zero_fin z hmax hk]

/-- Settles O36: the remap gives pmax, which is positive, and the clamp keeps it. -/
theorem minimumTemperatureMapsToPmax : Obligations.MinimumTemperatureMapsToPmax := by
  intro s neg mag htemps hpwms htmin
  have hmax := s.aggPmax.isLt
  have hpmin := orderKey_i2f (n := s.aggPmin.toNat) (by omega)
  have hpmax := orderKey_i2f (n := s.aggPmax.toNat) (by omega)
  have hspan := decodeF32_i2f (n := (s.aggPmin.toNat : ℤ) - s.aggPmax.toNat) (by omega)
  rw [← fsub_i2f (by omega) (by omega) (by omega)] at hspan
  have hremap := aggRemap_tmin htmin htemps hspan (decodeF32_i2f (n := (s.aggPmax.toNat : ℤ)) (by omega)) (by omega)
  rw [aggValue, hremap]
  refine aggClamp_of_between ?_ ?_ ?_
  · simp [isNaN, decodeF32_i2f (n := (s.aggPmax.toNat : ℤ)) (by omega)]
  · exact Bool.eq_false_iff.2 (mt (flt_iff hpmax hpmin).1 (by omega))
  · exact Bool.eq_false_iff.2 (mt (fgt_iff hpmax hpmax).1 (lt_irrefl _))

end Sys2Proof.Proofs
end

section
/-! PID: its output clamp, the channel forced off, the completed update, the first update, and what PID reads (42_pid
R170 to R175). -/

namespace Sys2Proof.Proofs

open Sys2Proof.Machine Sys2Proof.Laws

/-! ## The output clamp -/

section Clamp

variable {u : Word}

/-- What is above 1.0 is above +0.0. -/
theorem fgt_zero_of_fgt_one (h : fgt u f32One = true) : fgt u f32Zero = true := by
  obtain ⟨x, -, hx, -, -⟩ := orderedCompare_true h
  have hone : orderKey (decodeF32 f32One) = some (2 ^ 149) := by decide
  have hlt := (fgt_iff hx hone).1 h
  exact (fgt_iff hx orderKey_zero).2 (by omega)

theorem not_fgt_of_fle {a b : Word} (h : fle a b = true) : fgt a b = false := by
  obtain ⟨x, y, hx, hy, -⟩ := orderedCompare_true h
  exact Bool.eq_false_iff.2 (mt (fgt_iff hx hy).1 (not_lt.2 ((fle_iff hx hy).1 h)))

theorem pidClamp_of_above (h : fgt u f32One = true) : pidClamp u = f32One := if_pos h

theorem pidClamp_of_not_positive (h : fgt u f32Zero = false) : pidClamp u = f32Zero := by
  have hone : fgt u f32One = false := Bool.eq_false_iff.2 fun hone => by
    rw [fgt_zero_of_fgt_one hone] at h
    cases h
  simp [pidClamp, hone, h]

theorem pidClamp_of_unit (hpos : fgt u f32Zero = true) (hone : fgt u f32One = false) : pidClamp u = u := by
  simp [pidClamp, hone, hpos]

/-- The patterns up to that of 1.0 are numbers in [+0.0, 1.0], and -0.0 is not among them. -/
theorem unit_of_toNat_le {w : Word} (h : w.toNat ≤ 0x3F800000) :
    fle f32Zero w = true ∧ fle w f32One = true ∧ isNaN w = false ∧ w ≠ 0x80000000#32 := by
  obtain ⟨low, hlow, rfl⟩ : ∃ low, low ≤ 0x3F800000 ∧ w = packF32 false low :=
    ⟨w.toNat, h, BitVec.eq_of_toNat_eq (by rw [packF32_toNat _ (by omega)]; simp)⟩
  refine ⟨fle_pack (p := false) (l := 0) (by omega) (by omega) (by simp),
    fle_pack (q := false) (k := 0x3F800000) (by omega) (by omega) (by simpa using hlow),
    pack_not_nan _ (by omega), fun heq => ?_⟩
  rw [heq] at h
  exact absurd h (by decide)

end Clamp

/-- Settles O39: the clamped pattern is at most that of 1.0, and each clause is a branch of the clamp. -/
theorem pidClampStaysInUnitInterval : Obligations.PidClampStaysInUnitInterval := by
  intro u
  obtain ⟨hzero, hone, hnumber, hneg⟩ := unit_of_toNat_le (pidClamp_toNat_le u)
  exact ⟨hzero, hone, hnumber, hneg, fun hnan => pidClamp_of_not_positive (orderedCompare_nan (.inl hnan)),
    pidClamp_of_not_positive, pidClamp_of_above, fun hpos hle => pidClamp_of_unit hpos (not_fgt_of_fle hle)⟩

/-! ## The two outcomes under STRATEGY = PID -/

section Outcomes

variable {s : State} {ch : Channel} (hstrategy : s.params.strategy = .pid)
include hstrategy

/-- Without a setpoint or a temperature the channel is forced off; the missing setpoint is named first. -/
theorem exec_pid_forcedOff (h : s.target[secOf ch] = Config.sent ∨ s.faulted ch = true) :
    exec (.pid ch) s = .next ((pidForceOff s ch).respond
      (if s.target[secOf ch] = Config.sent then .noTarget else .tempFault) f32Zero) := by
  change execPid ch s = _
  rw [execPid, hstrategy]
  by_cases htarget : s.target[secOf ch] = Config.sent
  · rw [if_pos htarget]
    exact if_pos (noSetpoint_iff.2 htarget)
  · rw [if_neg htarget]
    exact (if_neg (mt noSetpoint_iff.1 htarget)).trans (if_pos (h.resolve_left htarget))

theorem exec_pid_update (htarget : s.target[secOf ch] ≠ Config.sent) (hvalid : s.faulted ch = false) :
    exec (.pid ch) s = .next ((pidUpdate s ch).respond .ok (pidOutput s ch)) := by
  change execPid ch s = _
  rcases execPid_of_pid hstrategy ch with ⟨hset | hfault, -⟩ | ⟨-, -, he⟩
  · exact absurd (noSetpoint_iff.1 hset) htarget
  · rw [hvalid] at hfault
    cases hfault
  · exact he

end Outcomes

/-! ## What PID writes -/

/-- Of one kind of register, the address outside a frame that holds the address of channel `ch` is another channel's. -/
theorem channel_ne_of_addr_not_mem {f : Channel → Reg} {ch c : Channel} {addrs : List Half}
    (hc : BitVec.ofNat 16 (f c).addr ∉ addrs) (hch : BitVec.ofNat 16 (f ch).addr ∈ addrs) : c ≠ ch := by
  rintro rfl
  exact hc hch

section Writes

variable (s : State) (ch c : Channel)

theorem pidForceOff_pout : (pidForceOff s ch).pout[c] = if c = ch then f32Zero else s.pout[c] := getElem_set_fin ..

theorem pidUpdate_integ : (pidUpdate s ch).integ[c] = if c = ch then pidIntegral s ch else s.integ[c] :=
  getElem_set_fin ..

theorem pidUpdate_perr : (pidUpdate s ch).perr[c] = if c = ch then pidError s ch else s.perr[c] := getElem_set_fin ..

theorem pidUpdate_ptime : (pidUpdate s ch).ptime[c] = if c = ch then s.tnow else s.ptime[c] := getElem_set_fin ..

theorem pidUpdate_pout : (pidUpdate s ch).pout[c] = if c = ch then pidOutput s ch else s.pout[c] := getElem_set_fin ..

theorem pidUpdate_pidStarted : (pidUpdate s ch).pidStarted c = (decide (c = ch) || s.pidStarted c) :=
  (setPidStarted_pidStarted _ ch c true).trans (Bool.if_true_left ..)

/-- The accumulator, the output and the drive request of the channel after a completed update. -/
theorem pidUpdate_self :
    (pidUpdate s ch).integ[ch] = pidIntegral s ch ∧ (pidUpdate s ch).perr[ch] = pidError s ch
      ∧ (pidUpdate s ch).ptime[ch] = s.tnow ∧ (pidUpdate s ch).pout[ch] = pidOutput s ch
      ∧ (pidUpdate s ch).driven ch = (fgt (pidOutput s ch) s.pidThr && s.isActive ch) :=
  ⟨(pidUpdate_integ s ch ch).trans (if_pos rfl), (pidUpdate_perr s ch ch).trans (if_pos rfl),
    (pidUpdate_ptime s ch ch).trans (if_pos rfl), (pidUpdate_pout s ch ch).trans (if_pos rfl),
    (pidUpdate_driven s ch ch).trans (if_pos rfl)⟩

/-- A channel forced off changes its POUT and DRIVE. -/
theorem pidForceOff_frame : ChangesOnly [BitVec.ofNat 16 (0x0C0 + ch.val), 0x0D1#16] s (pidForceOff s ch) := by
  refine ⟨peek_frame rfl fun r hr => ?_, rfl, rfl, rfl, rfl⟩
  cases r with
  | pout c =>
    exact (pidForceOff_pout s ch c).trans (if_neg (channel_ne_of_addr_not_mem (f := .pout) hr (by simp [Reg.addr])))
  | drive => exact absurd (by simp [Reg.addr]) hr
  | _ => rfl

/-- A completed update changes INTEG, PERR, PTIME and POUT of its channel, PINIT and DRIVE. -/
theorem pidUpdate_frame :
    ChangesOnly [BitVec.ofNat 16 (0x080 + ch.val), BitVec.ofNat 16 (0x090 + ch.val), BitVec.ofNat 16 (0x0A0 + ch.val),
      0x0B0#16, BitVec.ofNat 16 (0x0C0 + ch.val), 0x0D1#16] s (pidUpdate s ch) := by
  refine ⟨peek_frame rfl fun r hr => ?_, rfl, rfl, rfl, rfl⟩
  cases r with
  | integ c =>
    exact (pidUpdate_integ s ch c).trans (if_neg (channel_ne_of_addr_not_mem (f := .integ) hr (by simp [Reg.addr])))
  | perr c =>
    exact (pidUpdate_perr s ch c).trans (if_neg (channel_ne_of_addr_not_mem (f := .perr) hr (by simp [Reg.addr])))
  | ptime c =>
    exact (pidUpdate_ptime s ch c).trans (if_neg (channel_ne_of_addr_not_mem (f := .ptime) hr (by simp [Reg.addr])))
  | pout c =>
    exact (pidUpdate_pout s ch c).trans (if_neg (channel_ne_of_addr_not_mem (f := .pout) hr (by simp [Reg.addr])))
  | pinit | drive => exact absurd (by simp [Reg.addr]) hr
  | _ => rfl

end Writes

/-- Settles O37: both missing inputs end in the same writes. -/
theorem pidWithoutInputForcesOff : Obligations.PidWithoutInputForcesOff := by
  intro ch s hstrategy hmissing
  refine ⟨_, exec_pid_forcedOff hstrategy hmissing, respond_response .., ?_, fun c => ?_,
    changesOnly_respond (pidForceOff_frame s ch) _ _⟩
  · exact (pidForceOff_pout s ch ch).trans (if_pos rfl)
  · rw [respond_driven, pidForceOff_driven, Bool.if_false_left]

/-! ## The values of an update -/

/-- The elapsed ticks as 42_pid R170 and R173 write them. -/
theorem pidElapsed_eq (s : State) (ch : Channel) :
    (pidElapsed s ch : ℤ) =
      if s.pidStarted ch = true then ((s.tnow.toNat : ℤ) - s.ptime[ch].toNat) % 2 ^ 32 else 0 := by
  rw [pidElapsed, Nat.cast_ite, elapsedTicks_eq, Nat.cast_zero]

/-- ICLAMP_EN is the one defined bit of CTRL (10_state R50). -/
theorem bitAt_ctrl_iff (m : BitVec 1) : bitAt m 0 = true ↔ m = 1#1 := by
  revert m
  decide

/-- The new integral as 42_pid R170 and R171 write it. -/
theorem pidIntegral_eq (s : State) (ch : Channel) :
    pidIntegral s ch =
      if s.ctrl = 1#1 then integralClamp (fadd s.integ[ch] (fmul (pidError s ch) (pidSeconds s ch))) s.iclamp
      else fadd s.integ[ch] (fmul (pidError s ch) (pidSeconds s ch)) :=
  if_congr (bitAt_ctrl_iff s.ctrl) rfl rfl

/-- Settles O38: the names of the statement are the values the model computes. -/
theorem pidUpdatesAccumulatorAndDrive : Obligations.PidUpdatesAccumulatorAndDrive := by
  intro ch s e dt i0 i d o el hstrategy htarget hvalid he hel hdt hi0 hi hd ho
  obtain rfl : el = pidElapsed s ch := Nat.cast_injective (hel.trans (pidElapsed_eq s ch).symm)
  obtain rfl : e = pidError s ch := he
  obtain rfl : dt = pidSeconds s ch := hdt
  subst hi0
  obtain rfl : i = pidIntegral s ch := hi.trans (pidIntegral_eq s ch).symm
  obtain rfl : d = pidDerivative s ch := hd
  obtain rfl : o = pidOutput s ch := ho
  obtain ⟨hinteg, hperr, hptime, hpout, hdriven⟩ := pidUpdate_self s ch
  exact ⟨_, exec_pid_update hstrategy htarget hvalid, respond_response .., hinteg, hperr, hptime, hpout,
    fun c => pidUpdate_pidStarted s ch c, hdriven, fun c hc => (pidUpdate_driven s ch c).trans (if_neg hc),
    changesOnly_respond (pidUpdate_frame s ch) _ _⟩

/-! ## The first update -/

/-- The conversion of an integer is the rounding of its count of units 2^-149. -/
theorem i2f_eq_roundUnits (n : ℤ) : i2f n = roundUnits (2 ^ 149 * n) := by
  have hsign : (2 ^ 149 * n < 0) ↔ n < 0 := by omega
  rw [i2f, roundUnits, decide_eq_decide.2 hsign, Int.natAbs_mul, Int.natAbs_pow]
  rfl

/-- A finite word times a zero is a zero. -/
theorem fmul_fin_zero {a : Word} {p : Bool} {m : ℕ} (ha : decodeF32 a = .fin p m) (z : Bool) :
    fmul a (zeroPattern z) = zeroPattern (p ^^ z) := by
  rw [fmul_fin ha (decodeF32_zeroPattern z), mul_zero, roundMag_zero, zeroPattern_eq_pack]

/-- The sum of +0.0 and a zero is +0.0. -/
theorem fadd_posZero_zero (z : Bool) : fadd f32Zero (zeroPattern z) = f32Zero := by cases z <;> decide

section FirstUpdate

variable {s : State} {ch : Channel} (hfirst : s.pidStarted ch = false)
include hfirst

/-- No time has passed at the first update (42_pid R173). -/
theorem pidElapsed_first : pidElapsed s ch = 0 := by simp [pidElapsed, hfirst]

theorem pidDerivative_first : pidDerivative s ch = f32Zero := if_pos (pidElapsed_first hfirst)

theorem pidSeconds_first (hp : s.params.admitted = true) : ∃ z, pidSeconds s ch = zeroPattern z := by
  obtain ⟨-, -, -, -, -, htick, -⟩ := (check_ok_iff s.params).1 ((admitted_iff s.params).1 hp)
  obtain ⟨k, hk, hpos⟩ := roundUnits_pos (z := 2 ^ 149 * (s.params.tickHz.toNat : ℤ)) (by omega)
  rw [← i2f_eq_roundUnits] at hk
  have hzero : i2f (0 : ℕ) = zeroPattern false := by decide
  rw [pidSeconds, pidElapsed_first hfirst, hzero]
  exact exists_fdiv_zero false hk hpos.ne'

theorem pidIntegral_first {neg : Bool} {mag : ℕ} (hp : s.params.admitted = true) (hinteg : s.integ[ch] = f32Zero)
    (hctrl : s.ctrl = 0#1) (herror : decodeF32 (pidError s ch) = .fin neg mag) : pidIntegral s ch = f32Zero := by
  obtain ⟨z, hz⟩ := pidSeconds_first hfirst hp
  rw [pidIntegral_eq, if_neg (by rw [hctrl]; decide), hinteg, hz, fmul_fin_zero herror, fadd_posZero_zero]

end FirstUpdate

/-- Settles O40: the time step is a zero, so the integral is +0.0 plus a zero. -/
theorem firstPidUpdateKeepsIntegral : Obligations.FirstPidUpdateKeepsIntegral := by
  intro ch s e neg mag hstrategy hp htarget hvalid hfirst hinteg hctrl he hfinite
  obtain rfl : e = pidError s ch := he
  have hintegral := pidIntegral_first hfirst hp hinteg hctrl hfinite
  obtain ⟨hI, hperr, hptime, hpout, -⟩ := pidUpdate_self s ch
  refine ⟨_, exec_pid_update hstrategy htarget hvalid, hI.trans hintegral, hperr, hptime, ?_, hpout.trans ?_⟩
  · exact (pidUpdate_pidStarted s ch ch).trans (by simp)
  · rw [pidOutput, hintegral, pidDerivative_first hfirst]
    rfl

/-! ## What PID reads -/

/-- Two states agree on all that PID of a channel reads, its drive request apart (42_pid R170 to R173, R175). -/
structure SamePidInputs (ch : Channel) (s s' : State) : Prop where
  params : s'.params = s.params
  tnow : s'.tnow = s.tnow
  kp : s'.kp = s.kp
  ki : s'.ki = s.ki
  kd : s'.kd = s.kd
  ctrl : s'.ctrl = s.ctrl
  iclamp : s'.iclamp = s.iclamp
  target : s'.target[secOf ch] = s.target[secOf ch]
  temp : s'.temp[ch] = s.temp[ch]
  faulted : s'.faulted ch = s.faulted ch
  integ : s'.integ[ch] = s.integ[ch]
  perr : s'.perr[ch] = s.perr[ch]
  ptime : s'.ptime[ch] = s.ptime[ch]
  pidStarted : s'.pidStarted ch = s.pidStarted ch

namespace SamePidInputs

variable {ch : Channel} {s s' : State} (h : SamePidInputs ch s s')
include h

theorem pidError_eq : pidError s' ch = pidError s ch := by rw [pidError, pidError, h.target, h.temp]

theorem pidElapsed_eq : pidElapsed s' ch = pidElapsed s ch := by
  rw [pidElapsed, pidElapsed, h.pidStarted, h.tnow, h.ptime]

theorem pidSeconds_eq : pidSeconds s' ch = pidSeconds s ch := by
  rw [pidSeconds, pidSeconds, h.pidElapsed_eq, h.params]

theorem pidIntegral_eq : pidIntegral s' ch = pidIntegral s ch := by
  rw [pidIntegral, pidIntegral, h.integ, h.pidError_eq, h.pidSeconds_eq, h.ctrl, h.iclamp]

theorem pidDerivative_eq : pidDerivative s' ch = pidDerivative s ch := by
  rw [pidDerivative, pidDerivative, h.pidElapsed_eq, h.kd, h.pidError_eq, h.perr, h.pidSeconds_eq]

theorem pidOutput_eq : pidOutput s' ch = pidOutput s ch := by
  rw [pidOutput, pidOutput, h.kp, h.ki, h.pidError_eq, h.pidIntegral_eq, h.pidDerivative_eq]

end SamePidInputs

/-- Settles O41, by the outcome both states share: E_STRAT, the channel forced off, or a completed update. -/
theorem pidReadsOnlyItsOwnChannel : Obligations.PidReadsOnlyItsOwnChannel := by
  intro ch s s' t t' hparams htnow hkp hki hkd hctrl hiclamp htarget htemp hfaulted hinteg hperr hptime hstarted ht ht'
  have h : SamePidInputs ch s s' := ⟨hparams, htnow, hkp, hki, hkd, hctrl, hiclamp, htarget, htemp, hfaulted, hinteg,
    hperr, hptime, hstarted⟩
  cases hs : s.params.strategy with
  | hyst =>
    have hs' : s'.params.strategy = .hyst := by rw [hparams, hs]
    obtain rfl := Host.Outcome.next.inj ((otherStrategyFails.2 ch s hs).symm.trans ht)
    obtain rfl := Host.Outcome.next.inj ((otherStrategyFails.2 ch s' hs').symm.trans ht')
    exact ⟨rfl, nofun, hinteg, hperr, hptime, hstarted, nofun⟩
  | pid =>
    have hs' : s'.params.strategy = .pid := by rw [hparams, hs]
    by_cases hmissing : s.target[secOf ch] = Config.sent ∨ s.faulted ch = true
    · have hmissing' : s'.target[secOf ch] = Config.sent ∨ s'.faulted ch = true := by rwa [htarget, hfaulted]
      obtain rfl := Host.Outcome.next.inj ((exec_pid_forcedOff hs hmissing).symm.trans ht)
      obtain rfl := Host.Outcome.next.inj ((exec_pid_forcedOff hs' hmissing').symm.trans ht')
      refine ⟨?_, fun _ => ?_, hinteg, hperr, hptime, hstarted, fun _ _ _ => ?_⟩
      · rw [respond_response, respond_response, htarget]
      · rw [respond_pout, respond_pout, pidForceOff_pout, pidForceOff_pout, if_pos rfl, if_pos rfl]
      · rw [respond_driven, respond_driven, pidForceOff_driven, pidForceOff_driven, if_pos rfl, if_pos rfl]
    · rw [not_or, Bool.not_eq_true] at hmissing
      obtain ⟨hset, hvalid⟩ := hmissing
      obtain rfl := Host.Outcome.next.inj ((exec_pid_update hs hset hvalid).symm.trans ht)
      obtain rfl := Host.Outcome.next.inj
        ((exec_pid_update hs' (by rwa [htarget]) (by rwa [hfaulted])).symm.trans ht')
      obtain ⟨hintegral, herror, htime, hout, hdrive⟩ := pidUpdate_self s ch
      obtain ⟨hintegral', herror', htime', hout', hdrive'⟩ := pidUpdate_self s' ch
      refine ⟨?_, fun _ => ?_, ?_, ?_, ?_, ?_, fun hthr hactive _ => ?_⟩
      · rw [respond_response, respond_response, h.pidOutput_eq]
      · rw [respond_pout, respond_pout, hout, hout', h.pidOutput_eq]
      · rw [respond_integ, respond_integ, hintegral, hintegral', h.pidIntegral_eq]
      · rw [respond_perr, respond_perr, herror, herror', h.pidError_eq]
      · rw [respond_ptime, respond_ptime, htime, htime', htnow]
      · rw [respond_pidStarted, respond_pidStarted, pidUpdate_pidStarted, pidUpdate_pidStarted, hstarted]
      · rw [respond_driven, respond_driven, hdrive, hdrive', h.pidOutput_eq, hthr, hactive]

end Sys2Proof.Proofs
end

section
/-! RDREG, WRREG and NOP (43_register_access R190 to R194; 60_exceptions R213). -/

namespace Sys2Proof.Proofs

open Sys2Proof.Machine Sys2Proof.Laws

/-! ## The read-write registers -/

/-- The access column of 10_state R59 marks RW exactly the registers at the writable addresses. -/
theorem access_eq_readWrite_iff {r : Reg} {a : Half} (ha : a.toNat = r.addr) :
    r.access = .readWrite ↔ writableAddr a := by
  unfold writableAddr
  cases r <;> simp only [Reg.addr] at ha <;> simp only [Reg.access, reduceCtorEq, true_iff, false_iff] <;> omega

theorem access_eq_readOnly {r : Reg} {a : Half} (ha : a.toNat = r.addr) (h : ¬ writableAddr a) :
    r.access = .readOnly := by
  cases hacc : r.access with
  | readOnly => rfl
  | readWrite => exact absurd ((access_eq_readWrite_iff ha).1 hacc) h

/-- Every writable address holds a read-write register, whatever the ROM. -/
theorem regAt_of_writableAddr (p : Params) {a : Half} (h : writableAddr a) :
    ∃ r, regAt p a = some r ∧ r.access = .readWrite := by
  have hfixed : ∃ r, fixedRegAt a.toNat = some r := by
    rcases h with h | h | h
    · exact fixedRegAt_of_block (base := 0x010) (n := 9) (by decide) (by omega)
    · exact fixedRegAt_of_block (base := 0x020) (n := 4) (by decide) (by omega)
    · exact fixedRegAt_of_block (base := 0x028) (n := 4) (by decide) (by omega)
  obtain ⟨r, hr⟩ := hfixed
  exact ⟨r, regAt_of_fixed hr, (access_eq_readWrite_iff (fixedRegAt_some hr).1).2 h⟩

theorem eq_ofNat_addr_of_regAt {p : Params} {a : Half} {r : Reg} (h : regAt p a = some r) :
    a = BitVec.ofNat 16 r.addr := by
  rw [← regAt_addr h, BitVec.ofNat_toNat, BitVec.setWidth_eq]

/-! ## Reads after a write -/

/-- A register of `k` bits stores the low `k` bits of the word written to it (10_state R60). -/
theorem zext32_setWidth (v : Word) (k : ℕ) : zext32 (v.setWidth k) = v &&& BitVec.ofNat 32 (2 ^ k - 1) := by
  apply BitVec.eq_of_getLsbD_eq
  intro i hi
  simp only [zext32, BitVec.getLsbD_setWidth, BitVec.getLsbD_and, BitVec.getLsbD_ofNat, Nat.testBit_two_pow_sub_one, hi,
    decide_true, Bool.true_and, Bool.and_comm]

/-- A register of 32 bits stores the whole word. -/
theorem eq_and_definedBits {v : Word} {a : Half} (h : definedBits a = BitVec.allOnes 32) : v = v &&& definedBits a := by
  rw [h, BitVec.and_allOnes]

/-- A written register reads the word with its reserved bits dropped. -/
theorem readReg_writeReg_self (s : State) {r : Reg} (v : Word) (ha : r.access = .readWrite) :
    readReg (writeReg s r v) r = v &&& definedBits (BitVec.ofNat 16 r.addr) := by
  cases r with
  | ctrl => exact zext32_setWidth v 1
  | active | aggPmin | aggPmax => exact zext32_setWidth v 16
  | kp | ki | kd | pidThr | iclamp | hystBand | minSi | aggTmin | aggTmax => exact eq_and_definedBits rfl
  | target x =>
    have hbits : definedBits (BitVec.ofNat 16 (Reg.target x).addr) = BitVec.allOnes 32 := by
      revert x
      decide
    calc readReg (writeReg s (.target x) v) (.target x) = v := (getElem_set_fin s.target x x v).trans (if_pos rfl)
      _ = v &&& definedBits (BitVec.ofNat 16 (Reg.target x).addr) := eq_and_definedBits hbits
  | _ => cases ha

/-- Each arm of `writeReg` assigns one field, or one element of TARGET, which `readReg` reads for that register only. -/
theorem readReg_writeReg_of_ne (s : State) {r q : Reg} (v : Word) (h : q ≠ r) :
    readReg (writeReg s r v) q = readReg s q := by
  cases r with
  | target x =>
    cases q with
    | target y => exact (getElem_set_fin s.target x y v).trans (if_neg fun hy => h (congrArg Reg.target hy))
    | _ => rfl
  | kp | ki | kd | pidThr | iclamp | hystBand | minSi | ctrl | active | aggTmin | aggTmax | aggPmin | aggPmax =>
    cases q <;> first | contradiction | rfl
  | _ => rfl

/-- A write changes the addressed register alone (43_register_access R194). -/
theorem writeReg_frame (s : State) (r : Reg) (v : Word) :
    ChangesOnly [BitVec.ofNat 16 r.addr] s (writeReg s r v) := by
  have hport : SamePort s (writeReg s r v) := by cases r <;> exact ⟨rfl, rfl, rfl⟩
  refine ⟨peek_frame (writeReg_params s r v) fun q hq => ?_, writeReg_params s r v, hport⟩
  exact readReg_writeReg_of_ne s v fun h => hq (h ▸ List.mem_singleton_self _)

/-! ## RDREG, by what stands at the address -/

theorem execRdreg_of_unmapped {s : State} {addr : Half} (h : regAt s.params addr = none) :
    execRdreg addr s = fail .eRegAddr s := by
  rw [execRdreg, h]

theorem execRdreg_of_mapped {s : State} {addr : Half} {r : Reg} (h : regAt s.params addr = some r) :
    execRdreg addr s = done .ok (readReg s r) s := by
  rw [execRdreg, h]

/-! ## The statements -/

/-- Settles O42: NOP only responds. -/
theorem nopReturnsOk : Obligations.NopReturnsOk := fun _ => rfl

/-- Settles O43, by whether a register stands at the address, which is what `peek` tests too. -/
theorem rdregReturnsRegister : Obligations.RdregReturnsRegister := by
  intro addr s
  constructor
  · intro v hv
    obtain ⟨r, hr, rfl⟩ := Option.map_eq_some_iff.1 hv
    exact execRdreg_of_mapped hr
  · intro hnone
    exact execRdreg_of_unmapped (Option.map_eq_none_iff.1 hnone)

/-- Settles O45: the register at a writable address is read-write, and its write is framed to its own address. -/
theorem wrregWritesOnlyItsRegister : Obligations.WrregWritesOnlyItsRegister := by
  intro addr s haddr
  obtain ⟨r, hr, hacc⟩ := regAt_of_writableAddr s.params haddr
  obtain rfl := eq_ofNat_addr_of_regAt hr
  have hread : peek (writeReg s r s.data) (BitVec.ofNat 16 r.addr)
      = some (s.data &&& definedBits (BitVec.ofNat 16 r.addr)) := by
    rw [peek, writeReg_params, hr, Option.map_some, readReg_writeReg_self s s.data hacc]
  exact ⟨_, execWrreg_of_readWrite hr hacc, respond_response .., hread,
    changesOnly_respond (writeReg_frame s r s.data) ..⟩

/-- Settles O46: no register stands at an unmapped address, and one that is not writable holds a read-only register. -/
theorem wrregElsewhereFails : Obligations.WrregElsewhereFails := by
  intro addr s hn
  constructor
  · intro hunmapped
    exact execWrreg_of_unmapped (Option.map_eq_none_iff.1 ((peek_eq_none_iff hn addr).2 hunmapped))
  · intro hmapped hreadOnly
    obtain ⟨r, hr⟩ := regAt_of_mappedAddr hn hmapped
    exact execWrreg_of_readOnly hr (access_eq_readOnly (regAt_addr hr) hreadOnly)

end Sys2Proof.Proofs
end

section
/-! Status codes, failures and the idle machine (60_exceptions R210, R220, R229). -/

namespace Sys2Proof.Proofs

open Sys2Proof.Machine Sys2Proof.Laws

/-! ## The status codes -/

/-- The codes 0x20..0xFF are never returned (60_exceptions R210). -/
theorem status_code_lt (c : Status) : c.code.toNat < 0x20 := by
  cases c <;> decide

/-- Settles O14: a row of the table per status. -/
theorem statusCodesFollowTable : Obligations.StatusCodesFollowTable :=
  ⟨rfl, rfl, rfl, rfl, rfl, rfl, rfl, rfl, rfl, rfl, rfl, rfl, rfl, status_code_lt⟩

/-! ## Nothing issued -/

/-- Settles O10. -/
theorem idleStepHoldsState : Obligations.IdleStepHoldsState := fun _ hp hq => step_idle hp hq

/-! ## The two ways a transaction ends -/

/-- What a transaction performed from `s` answers: a completion code over whatever state it has written, or a failure
from `s` itself (60_exceptions R210). -/
inductive EndsFrom (s : State) : Answer → Prop where
  | completed {c : Status} (r : Word) (u : State) (hc : c.code.toNat < 0x10) : EndsFrom s (done c r u)
  | failed (c : Status) : EndsFrom s (fail c s)

/-- A failure code can only come from `fail`, which is given the state before the transaction. -/
theorem EndsFrom.failure_precise {s t : State} {a : Answer} {r : Response} (h : EndsFrom s a) (ht : a = .next t)
    (hr : t.response = some r) (hfail : 0x10 ≤ r.status.code.toNat) :
    r.result = 0#32 ∧ t = { s with response := some r } := by
  cases h with
  | completed v u hc =>
    obtain ⟨rfl, -, -⟩ := response_of_done ht hr
    exact absurd hfail (Nat.not_le.2 hc)
  | failed c =>
    obtain ⟨rfl, hresult, rfl⟩ := response_of_done (u := s) ht hr
    exact ⟨hresult.symm, hr ▸ rfl⟩

/-! ## How each command ends -/

section Commands

variable (s : State)

theorem convert_completes (p : Params) (raw : Half) : (convert p raw).1.code.toNat < 0x10 := by
  rcases convert_cases p raw with ⟨-, h⟩ | ⟨-, h⟩ <;> rw [h] <;> decide

theorem sectionAverage_completes (x : Sec) : (sectionAverage s x).1.code.toNat < 0x10 := by
  cases ha : activeValid s x with
  | cons first rest =>
    rw [sectionAverage_of_active ha]
    show Status.ok.code.toNat < 0x10
    decide
  | nil =>
    cases hv : allValid s x with
    | cons first rest =>
      rw [sectionAverage_of_all ha hv]
      show Status.avgAll.code.toNat < 0x10
      decide
    | nil =>
      rw [sectionAverage_of_none hv]
      decide

theorem execSample_ends (ch : Channel) (raw : Half) : EndsFrom s (execSample ch raw s) := by
  rcases execSample_cases ch raw s with ⟨-, h⟩ | ⟨-, -, h⟩ | ⟨-, -, -, h⟩ <;> rw [h]
  · refine .completed _ _ ?_
    split <;> decide
  · exact .completed _ _ (by decide)
  · exact .completed _ _ (by decide)

theorem execHyst_ends (x : Sec) : EndsFrom s (execHyst x s) := by
  cases hs : s.params.strategy with
  | pid =>
    rw [execHyst_of_pid hs]
    exact .failed _
  | hyst =>
    rw [execHyst_of_hyst hs]
    refine .completed _ _ ?_
    split
    · decide
    · exact sectionAverage_completes s x

theorem exec_pid_ends (ch : Channel) : EndsFrom s (exec (.pid ch) s) := by
  cases hs : s.params.strategy with
  | hyst =>
    show EndsFrom s (execPid ch s)
    rw [execPid_of_hyst hs]
    exact .failed _
  | pid =>
    by_cases hmissing : s.target[secOf ch] = Config.sent ∨ s.faulted ch = true
    · rw [exec_pid_forcedOff hs hmissing]
      refine .completed _ _ ?_
      split <;> decide
    · obtain ⟨htarget, hvalid⟩ := not_or.1 hmissing
      rw [exec_pid_update hs htarget (Bool.eq_false_iff.2 hvalid)]
      exact .completed _ _ (by decide)

theorem exec_agg_ends (x : Sec) : EndsFrom s (exec (.agg x) s) := by
  by_cases hrange : aggRangeValid s = true
  · rw [exec_agg_valid x hrange]
    exact .completed _ _ (sectionAverage_completes s x)
  · rw [exec_agg_invalid x (mt aggRangeValid_iff.2 hrange)]
    exact .failed _

theorem execRdreg_ends (addr : Half) : EndsFrom s (execRdreg addr s) := by
  cases hr : regAt s.params addr with
  | none =>
    rw [execRdreg_of_unmapped hr]
    exact .failed _
  | some r =>
    rw [execRdreg_of_mapped hr]
    exact .completed _ _ (by decide)

theorem execWrreg_ends (addr : Half) : EndsFrom s (execWrreg addr s) := by
  cases hr : regAt s.params addr with
  | none =>
    rw [execWrreg_of_unmapped hr]
    exact .failed _
  | some r =>
    cases ha : r.access with
    | readOnly =>
      rw [execWrreg_of_readOnly hr ha]
      exact .failed _
    | readWrite =>
      rw [execWrreg_of_readWrite hr ha]
      exact .completed _ _ (by decide)

/-- Every command completes, or fails from the state it was given. -/
theorem exec_ends (i : Instr) : EndsFrom s (exec i s) := by
  cases i with
  | nop => exact .completed _ _ (by decide)
  | conv raw => exact .completed _ _ (convert_completes s.params raw)
  | sample ch raw => exact execSample_ends s ch raw
  | avg x => exact .completed _ _ (sectionAverage_completes s x)
  | hyst x => exact execHyst_ends s x
  | pid ch => exact exec_pid_ends s ch
  | agg x => exact exec_agg_ends s x
  | rdreg addr => exact execRdreg_ends s addr
  | wrreg addr => exact execWrreg_ends s addr

/-- An illegal word fails before any operation is performed (30_encoding R97). -/
theorem runTransaction_ends (cmd : Word) : EndsFrom s (runTransaction cmd s) := by
  cases hd : decode cmd with
  | error e =>
    rw [runTransaction_of_illegal hd]
    exact .failed _
  | ok i =>
    rw [runTransaction_of_decode hd]
    exact exec_ends s i

end Commands

/-- Settles O13: whatever ends with a failure code is the state before with that response. -/
theorem failureWritesNothing : Obligations.FailureWritesNothing :=
  ⟨fun i s _ _ ht hr hfail => (exec_ends s i).failure_precise ht hr hfail,
    fun cmd s _ _ ht hr hfail => (runTransaction_ends s cmd).failure_precise ht hr hfail⟩

end Sys2Proof.Proofs
end

section
/-! RESET, the state it leaves, and control on channels that have no reading (70_reset_and_hazards R240 to R242,
R255). -/

namespace Sys2Proof.Proofs

open Sys2Proof.Machine Sys2Proof.Laws

/-! ## The state after RESET -/

section ResetState

variable (p : Params) (q : List Interaction)

@[simp] theorem resetWith_faulted (ch : Channel) : (State.resetWith p q).faulted ch = true := bitAt_allOnes16 ch

@[simp] theorem resetWith_sampled (ch : Channel) : (State.resetWith p q).sampled ch = false := bitAt_zero ch

@[simp] theorem resetWith_driven (ch : Channel) : (State.resetWith p q).driven ch = false := bitAt_zero ch

@[simp] theorem resetWith_heating (x : Sec) : (State.resetWith p q).heating x = false := bitAt_zero x

theorem resetWith_target (x : Sec) : (State.resetWith p q).target[x] = Config.sent :=
  Vector.getElem_replicate x.isLt

/-- The registers of one channel that hold a word. -/
theorem resetWith_channel (ch : Channel) :
    (State.resetWith p q).temp[ch] = Config.sent ∧ (State.resetWith p q).ts[ch] = 0#32
      ∧ (State.resetWith p q).integ[ch] = 0#32 ∧ (State.resetWith p q).perr[ch] = 0#32
      ∧ (State.resetWith p q).ptime[ch] = 0#32 ∧ (State.resetWith p q).pout[ch] = 0#32 := by
  simp [State.resetWith]

/-- The registers of one section that hold a word or a PWM value. -/
theorem resetWith_section (x : Sec) :
    (State.resetWith p q).target[x] = Config.sent ∧ (State.resetWith p q).aggOut[x] = 0#32
      ∧ (State.resetWith p q).aggPwm[x] = 0#16 :=
  ⟨resetWith_target p q x, Vector.getElem_replicate x.isLt, Vector.getElem_replicate x.isLt⟩

end ResetState

/-- Settles O9: the step is `resetWith`, its arrays element by element and its other registers by computation. -/
theorem resetSetsEveryRegister : Obligations.ResetSetsEveryRegister := by
  intro s later hp hq
  refine ⟨_, step_reset hp hq, rfl, rfl, resetWith_channel s.params later, resetWith_section s.params later, ?_⟩
  and_intros <;> rfl

/-- The fixture of the model's own reset passes every clause of the check (log 2). -/
theorem resetParams_admitted : Config.resetParams.admitted = true := by decide

/-- Settles O50: the model's own reset state is the case of its parameter set. -/
theorem resetStateIsGood : Obligations.ResetStateIsGood :=
  ⟨fun _ q hp => good_resetWith hp q, good_resetWith resetParams_admitted []⟩

/-! ## A section with no valid reading -/

section Unread

variable {s : State} {x : Sec}

/-- Every channel of the section faulted: the average is the default (41_hysteresis R141). -/
theorem sectionAverage_of_faulted (h : ∀ ch, secOf ch = x → s.faulted ch = true) :
    sectionAverage s x = (.avgDefault, Config.tDefault) :=
  sectionAverage_of_none (allValid_eq_nil_iff.2 h)

/-- Below `target - band` the comparator turns on, whatever was held (41_hysteresis R149). -/
theorem hystDecision_of_below {target band avg : Word} (held : Bool) (h : flt avg (fsub target band) = true) :
    hystDecision target band avg held = true := if_pos h

end Unread

/-- Settles O32: the comparator sees 25.0, and its decision is written to the held bit and the gated drive requests. -/
theorem unreadSectionIsComparedAsDefault : Obligations.UnreadSectionIsComparedAsDefault := by
  intro x s hstrategy htarget hfaulted hbelow
  have havg := sectionAverage_of_faulted hfaulted
  have hon : hystDecision s.target[x] s.hystBand (sectionAverage s x).2 (s.heating x) = true := by
    rw [havg]
    exact hystDecision_of_below _ hbelow
  have hexec := exec_hyst_setpoint hstrategy htarget
  rw [hon, havg] at hexec
  refine ⟨_, hexec, respond_response .., ?_, fun ch hch => ?_⟩
  · rw [respond_heating, hystWrite_heating, if_pos rfl]
  · rw [respond_driven, hystWrite_driven, if_pos hch, Bool.true_and]

/-! ## Control right after RESET -/

section NothingDriven

variable {s : State}

theorem drive_eq_zero (h : ∀ ch, s.driven ch = false) : s.drive = 0#16 :=
  bitAt_ext fun ch => (h ch).trans (bitAt_zero ch).symm

theorem hystOn_eq_zero (h : ∀ x, s.heating x = false) : s.hystOn = 0#4 :=
  bitAt_ext fun x => (h x).trans (bitAt_zero x).symm

/-- A section forced off in a state that drives nothing leaves every drive request 0. -/
theorem hystWrite_off_drive (h : ∀ ch, s.driven ch = false) (x : Sec) : (hystWrite s x false).drive = 0#16 :=
  drive_eq_zero fun ch => by rw [hystWrite_driven, h, Bool.false_and, ite_self]

/-- A section forced off in a state that holds no section on leaves every held decision off. -/
theorem hystWrite_off_hystOn (h : ∀ y, s.heating y = false) (x : Sec) : (hystWrite s x false).hystOn = 0#4 :=
  hystOn_eq_zero fun y => by rw [hystWrite_heating, h, ite_self]

/-- A channel forced off in a state that drives nothing leaves every drive request 0. -/
theorem pidForceOff_drive (h : ∀ ch, s.driven ch = false) (ch : Channel) : (pidForceOff s ch).drive = 0#16 :=
  drive_eq_zero fun c => by rw [pidForceOff_driven, h, ite_self]

end NothingDriven

section ControlAfterReset

variable {p : Params} (q : List Interaction)

/-- HYST after RESET: the section is forced off, with the default average as its result. -/
theorem exec_hyst_resetWith (hstrategy : p.strategy = .hyst) (x : Sec) :
    exec (.hyst x) (State.resetWith p q)
      = .next ((hystWrite (State.resetWith p q) x false).respond .noTarget Config.tDefault) := by
  have hexec := exec_hyst_noSetpoint (s := State.resetWith p q) hstrategy (resetWith_target p q x)
  rwa [sectionAverage_of_faulted fun ch _ => resetWith_faulted p q ch] at hexec

/-- PID after RESET: the missing setpoint is named before the missing temperature. -/
theorem exec_pid_resetWith (hstrategy : p.strategy = .pid) (ch : Channel) :
    exec (.pid ch) (State.resetWith p q)
      = .next ((pidForceOff (State.resetWith p q) ch).respond .noTarget f32Zero) := by
  have htarget := resetWith_target p q (secOf ch)
  have hexec := exec_pid_forcedOff (s := State.resetWith p q) hstrategy (.inl htarget)
  rwa [if_pos htarget] at hexec

end ControlAfterReset

/-- Settles O57: each control operation forces off what RESET already holds off. -/
theorem controlAfterResetDrivesNothing : Obligations.ControlAfterResetDrivesNothing := by
  intro p q
  refine ⟨fun ch => ⟨resetWith_faulted p q ch, resetWith_sampled p q ch, resetWith_driven p q ch⟩,
    resetWith_target p q, fun hstrategy x => ?_, fun hstrategy ch => ?_⟩
  · exact ⟨_, exec_hyst_resetWith q hstrategy x, respond_response .., hystWrite_off_drive (resetWith_driven p q) x,
      hystWrite_off_hystOn (resetWith_heating p q) x⟩
  · exact ⟨_, exec_pid_resetWith q hstrategy ch, respond_response ..,
      pidForceOff_drive (resetWith_driven p q) ch, rfl⟩

end Sys2Proof.Proofs
end

section
/-! A command word placed before the queue (20_memory R70, R71; log 10). -/

namespace Sys2Proof.Proofs

open Sys2Proof.Machine Sys2Proof.Laws

@[simp] theorem withFetchWord_params (s : State) (nbits w : Nat) : (s.withFetchWord nbits w).params = s.params := rfl

/-- The 32 bits of CMD carry a whole command word, and it stands before everything already queued. -/
theorem withFetchWord_queue (s : State) (cmd : Word) :
    (s.withFetchWord 32 cmd.toNat).queue = .transaction cmd 0#32 0#32 :: s.queue := by
  have hword : BitVec.ofNat 32 (cmd.toNat % 2 ^ 32) = cmd := by
    rw [Nat.mod_eq_of_lt cmd.isLt, BitVec.ofNat_toNat, BitVec.setWidth_eq]
  simp only [State.withFetchWord, issueNext, hword]

/-- Accepting the placed transaction gives the queue back as it was. -/
theorem acceptTransaction_withFetchWord (s : State) (nbits w : Nat) (data tnow : Word) :
    acceptTransaction (s.withFetchWord nbits w) data tnow s.queue = { s with data := data, tnow := tnow } := rfl

/-- Settles O8: the placed word heads the queue, and the step runs the command it decodes to (O7). -/
theorem placedWordRunsNext : Obligations.PlacedWordRunsNext := by
  intro s i hp
  have hqueue := withFetchWord_queue s (encode i)
  calc step (s.withFetchWord 32 (encode i).toNat)
      = exec i (acceptTransaction (s.withFetchWord 32 (encode i).toNat) 0#32 0#32 s.queue) :=
        stepRunsDecodedCommand _ _ _ _ _ i (by rwa [withFetchWord_params]) hqueue (decode_encode i)
    _ = exec i { s with data := 0#32, tnow := 0#32 } := by rw [acceptTransaction_withFetchWord]

end Sys2Proof.Proofs
end
